-- ==== Sys2Proof/Word.lean ====
section
/-! DEFINITION. The word types of the block: bytes, 16-bit channel counts, 32-bit host words (00_scope.md R8). -/

namespace Sys2Proof

/-- An 8-bit value: a target register address, a data byte, a pin identifier (R50). -/
abbrev Byte := BitVec 8

/-- A 16-bit value: a register pair or a raw channel count (R104, R160). -/
abbrev Half := BitVec 16

/-- A 32-bit host word (R20, R80). -/
abbrev Word := BitVec 32

end Sys2Proof
end

