-- ==== Sys2Proof/Config.lean ====
section
/-! DEFINITION. The parameters of the block (00_scope.md R7) and the values the spec leaves free (20_memory.md R54,
10_state.md R26). A parameter the spec marks OPEN, and every free value, is an opaque constant: nothing can prove a
value of it. -/

namespace Sys2Proof

/-- What an outstanding operation hands back when it returns (20_memory.md R53, 43_led_driver.md R181): success or failure,
and the bytes of a read in the order received. A one-byte read uses `b0` only; a write, a claim, a delay or another pin
operation uses no byte. -/
structure Reply where
  ok : Bool
  b0 : Byte
  b1 : Byte
  deriving DecidableEq, Repr, Inhabited

namespace Config

/-- `DEV_ADDR`, the one bus address the block uses (R7, R50). -/
def devAddr : BitVec 7 := 0x29#7

/-- `CMD_BIT`, ORed into every target register address on the wire (R7, R51). -/
def cmdBit : Byte := 0x80#8

/-- `ID_EXPECTED`, the identity byte (R7, R124). -/
def idExpected : Byte := 0x44#8

/-- `T_SETTLE` in milliseconds, a lower bound (R7, R126). -/
def tSettleMs : Nat := 3

/-- `NLED_MAX`, the number of pin-map entries (R7, R180). -/
abbrev nledMax : Nat := 3

/-- `PIN_ID_W`, the width of a pin identifier (R7). -/
abbrev pinIdW : Nat := 8

/-- `ATIME_RESET`, the 700 ms code (R7, R27). -/
def atimeReset : Byte := 0x00#8

/-- `GAIN_RESET`, the 16x code (R7, R27). -/
def gainReset : Byte := 0x02#8

/-- `HOST_BASE`, OPEN: the platform address of the host window (R7, R64). -/
opaque hostBase : Nat

/-- `F_CLK` in Hz, OPEN: the clock that times `T_SETTLE` (R7, R223). -/
opaque fClk : Nat

/-- `F_SCL` in Hz, OPEN: the bus speed (R7). -/
opaque fScl : Nat

/-- `T_XFER_TIMEOUT` in milliseconds, OPEN: the transport's own timeout, if it has one (R7, R259). -/
opaque tXferTimeout : Option Nat

/-- `PIN_RELEASE_ON_RESET`, OPEN: whether a reset frees the block's pin claims (R7, R182, R241). -/
opaque pinReleaseOnReset : Bool

/-- Free value: what the outstanding operation answers when `world` holds no further stimulus, at the n-th draw; `none`
says that it has not returned yet (R54, R181, R259; log 2). -/
opaque freeReply : Nat → Option Reply

/-- Free value: the word a host read made while busy is filled from, at the n-th draw (R26; log 2). -/
opaque freeWord : Nat → Word

end Config

end Sys2Proof
end

