-- ==== Sys2Proof/Syntax.lean ====
section
/-! DEFINITION. The twelve commands of the opcode map (30_encoding.md R82), and the lines of a host program (R89, R90). -/

namespace Sys2Proof

/-- A decoded command, one constructor for each row of spec/opcode_table.json (R82, R83, R84). -/
inductive Instr where
  | bwr (reg value : Byte)
  | brd (reg : Byte)
  | brd2 (regLow : Byte)
  | enable
  | disable
  | setatime (code : Byte)
  | setgain (code : Byte)
  | readrgb
  | ledpin (index pin : Byte)
  | ledinit (count : Byte) (inverted : Bool)
  | setled (index : Byte) (value : Bool)
  | getled (index : Byte)
  deriving DecidableEq, Repr

/-- The command's mnemonic as the opcode map spells it (R82). -/
def Instr.mnemonic : Instr → String
  | .bwr _ _ => "BWR"
  | .brd _ => "BRD"
  | .brd2 _ => "BRD2"
  | .enable => "ENABLE"
  | .disable => "DISABLE"
  | .setatime _ => "SETATIME"
  | .setgain _ => "SETGAIN"
  | .readrgb => "READRGB"
  | .ledpin _ _ => "LEDPIN"
  | .ledinit _ _ => "LEDINIT"
  | .setled _ _ => "SETLED"
  | .getled _ => "GETLED"

/-- The driver commands (41_sensor_driver.md R120). -/
def Instr.isDriver : Instr → Bool
  | .enable | .disable | .setatime _ | .setgain _ | .readrgb => true
  | .bwr _ _ | .brd _ | .brd2 _ | .ledpin _ _ | .ledinit _ _ | .setled _ _ | .getled _ => false

/-- The LED commands (43_led_driver.md R193). -/
def Instr.isLed : Instr → Bool
  | .ledpin _ _ | .ledinit _ _ | .setled _ _ | .getled _ => true
  | .bwr _ _ | .brd _ | .brd2 _ | .enable | .disable | .setatime _ | .setgain _ | .readrgb => false

/-- The register names an assembler line may use for an address (R52, R89). -/
inductive RegName where
  | enable | atime | control | id | cdatal | rdatal | gdatal | bdatal
  deriving DecidableEq, Repr

/-- A `reg` operand of an assembler line: a number or a name (R89). -/
inductive RegOperand where
  | num (n : Nat)
  | name (r : RegName)
  deriving DecidableEq, Repr

/-- A line of a host program before its operands are checked: the twelve commands in the operand order of R89 and the
pseudo-instructions of R90. -/
inductive AsmLine where
  | bwr (reg : RegOperand) (value : Nat)
  | brd (reg : RegOperand)
  | brd2 (regLow : RegOperand)
  | enable
  | disable
  | setatime (code : Nat)
  | setgain (code : Nat)
  | readrgb
  | ledpin (index pin : Nat)
  | ledinit (count inverted : Nat)
  | setled (index value : Nat)
  | getled (index : Nat)
  | ledon (index : Nat)
  | ledoff (index : Nat)
  | raww (value : Nat) (reg : RegOperand)
  | post (word : Nat)
  deriving DecidableEq, Repr

/-- What a host does for one assembled line (R90): `issue` writes the word and waits for BUSY = 0, `post` writes it and
does not wait. -/
inductive HostLine where
  | issue (w : Word)
  | post (w : Word)
  deriving DecidableEq, Repr

end Sys2Proof
end

