-- ==== Sys2Proof/Machine/Operands.lean ====
section
/-! DEFINITION. The target register map, the wire form of an address, the byte order of a pair, and the operand checks
(20_memory.md R51, R52, R56; 30_encoding.md R83, R84, R86; 43_led_driver.md R184). -/

namespace Sys2Proof

namespace Target

/-- The target register addresses the driver uses (R52). -/
def regEnable : Byte := 0x00#8
def regAtime : Byte := 0x01#8
def regControl : Byte := 0x0F#8
def regId : Byte := 0x12#8
def regCdatal : Byte := 0x14#8
def regRdatal : Byte := 0x16#8
def regGdatal : Byte := 0x18#8
def regBdatal : Byte := 0x1A#8

/-- `ENABLE_PON`, the power-on bit (R52). -/
def pon : Byte := 0x01#8

/-- `ENABLE_AEN`, the ADC-enable bit (R52). -/
def aen : Byte := 0x02#8

/-- The six integration-time codes (R52, R86). -/
def atimeCodes : List Byte := [0xFF#8, 0xF6#8, 0xEB#8, 0xD5#8, 0xC0#8, 0x00#8]

/-- The four gain codes (R52, R86). -/
def gainCodes : List Byte := [0x00#8, 0x01#8, 0x02#8, 0x03#8]

end Target

/-- The address a register name stands for (R52, R89). -/
def RegName.addr : RegName → Byte
  | .enable => Target.regEnable
  | .atime => Target.regAtime
  | .control => Target.regControl
  | .id => Target.regId
  | .cdatal => Target.regCdatal
  | .rdatal => Target.regRdatal
  | .gdatal => Target.regGdatal
  | .bdatal => Target.regBdatal

/-- The number a `reg` operand stands for (R89). -/
def RegOperand.value : RegOperand → Nat
  | .num n => n
  | .name r => r.addr.toNat

/-- The wire command byte of a target register address (R51). -/
def wireByte (reg : Byte) : Byte := reg ||| Config.cmdBit

/-- The 16-bit value of a pair, from its bytes in the order received, low byte first (R56, R104). -/
def pairValue (lo hi : Byte) : Half := (hi.zeroExtend 16 <<< 8) ||| lo.zeroExtend 16

/-- The legality check of `SETATIME`'s code (R86). -/
def atimeLegal (code : Byte) : Bool := Target.atimeCodes.contains code

/-- The legality check of `SETGAIN`'s code (R86). -/
def gainLegal (code : Byte) : Bool := Target.gainCodes.contains code

/-- The legality check of `LEDINIT`'s count (R86). -/
def countLegal (count : Byte) : Bool := decide (count.toNat ≤ Config.nledMax)

/-- The physical level of a logical LED value under a polarity (R184). -/
def ledLevel (value inverted : Bool) : Bool := value ^^ inverted

end Sys2Proof
end

