-- ==== Sys2Proof/WellFormed.lean ====
section
/-! DEFINITION. The static checks: operand legality of a command (30_encoding.md R86) and the assembler's own checks of a
line (R89). Every value of `Instr` has an encoding, so no further check stands between a command and its word. -/

namespace Sys2Proof

/-- The operand is one the command accepts; a command that is not ends with BAD_OPERAND (R86). -/
def Instr.legal : Instr → Bool
  | .setatime code => atimeLegal code
  | .setgain code => gainLegal code
  | .ledinit count _ => countLegal count
  | .bwr _ _ | .brd _ | .brd2 _ | .enable | .disable | .readrgb | .ledpin _ _ | .setled _ _ | .getled _ => true

/-- A number fits an 8-bit field (R80, R89). -/
def fitsByte (n : Nat) : Bool := decide (n < 256)

/-- A number is a flag operand (R89). -/
def isFlag (n : Nat) : Bool := decide (n < 2)

/-- The assembler accepts the line: every operand fits its field, every flag is 0 or 1 (R89). -/
def AsmLine.wellFormed : AsmLine → Bool
  | .bwr reg value | .raww value reg => fitsByte reg.value && fitsByte value
  | .brd reg | .brd2 reg => fitsByte reg.value
  | .enable | .disable | .readrgb => true
  | .setatime code | .setgain code => fitsByte code
  | .ledpin index pin => fitsByte index && fitsByte pin
  | .ledinit count inverted => fitsByte count && isFlag inverted
  | .setled index value => fitsByte index && isFlag value
  | .getled index | .ledon index | .ledoff index => fitsByte index
  | .post word => decide (word < 4294967296)

end Sys2Proof
end

