-- ==== Sys2Proof/Decode.lean ====
section
/-! DEFINITION. Decoding of a command word, total, rejecting by name; the encoder from the same table; the opcode table as
data (30_encoding.md R80 to R88). -/

namespace Sys2Proof

/-- Why a word is ILLEGAL_COMMAND: the three cases of R81. -/
inductive Illegal where
  /-- `OPC` is 0x0, 0xD, 0xE or 0xF (R81 a, R85). -/
  | reservedOpcode
  /-- `Z1` or `Z0` is not zero (R81 b). -/
  | reservedField
  /-- A bit the command's row marks as must-be-zero is 1 (R81 c). -/
  | mustBeZero
  deriving DecidableEq, Repr

/-- The fields of a command word (R80). -/
def fieldOpc (w : Word) : BitVec 4 := w.extractLsb' 28 4
def fieldZ1 (w : Word) : BitVec 4 := w.extractLsb' 24 4
def fieldA (w : Word) : Byte := w.extractLsb' 16 8
def fieldB (w : Word) : Byte := w.extractLsb' 8 8
def fieldZ0 (w : Word) : Byte := w.extractLsb' 0 8

/-- A command whose row fixes some operand bits at zero: legal exactly when they are. -/
def needZero (zero : Bool) (i : Instr) : Except Illegal Instr :=
  if zero then .ok i else .error .mustBeZero

/-- The command of an opcode and its two operand fields (R82). -/
def decodeFields (opc : BitVec 4) (a b : Byte) : Except Illegal Instr :=
  match opc.toNat with
  | 0x1 => .ok (.bwr a b)
  | 0x2 => needZero (b == 0) (.brd a)
  | 0x3 => needZero (b == 0) (.brd2 a)
  | 0x4 => needZero (a == 0 && b == 0) .enable
  | 0x5 => needZero (a == 0 && b == 0) .disable
  | 0x6 => needZero (a == 0) (.setatime b)
  | 0x7 => needZero (a == 0) (.setgain b)
  | 0x8 => needZero (a == 0 && b == 0) .readrgb
  | 0x9 => .ok (.ledpin a b)
  | 0xA => needZero (b.extractLsb' 1 7 == 0) (.ledinit a (b.getLsbD 0))
  | 0xB => needZero (b.extractLsb' 1 7 == 0) (.setled a (b.getLsbD 0))
  | 0xC => needZero (b == 0) (.getled a)
  | _ => .error .reservedOpcode

/-- Decoding of a 32-bit command word (R81). -/
def decode (w : Word) : Except Illegal Instr :=
  if fieldZ1 w == 0 && fieldZ0 w == 0 then decodeFields (fieldOpc w) (fieldA w) (fieldB w)
  else .error .reservedField

/-- The word with the given opcode and operand fields and reserved fields zero (R80, R89). -/
def commandWord (opc : BitVec 4) (a b : Byte) : Word := opc ++ (0#4 ++ (a ++ (b ++ 0#8)))

/-- A flag in bit 0 of an operand field (R84). -/
def flagByte (f : Bool) : Byte := if f then 1#8 else 0#8

/-- The word of a command (R82, R87). -/
def encode : Instr → Word
  | .bwr reg value => commandWord 0x1#4 reg value
  | .brd reg => commandWord 0x2#4 reg 0#8
  | .brd2 regLow => commandWord 0x3#4 regLow 0#8
  | .enable => commandWord 0x4#4 0#8 0#8
  | .disable => commandWord 0x5#4 0#8 0#8
  | .setatime code => commandWord 0x6#4 0#8 code
  | .setgain code => commandWord 0x7#4 0#8 code
  | .readrgb => commandWord 0x8#4 0#8 0#8
  | .ledpin index pin => commandWord 0x9#4 index pin
  | .ledinit count inverted => commandWord 0xA#4 count (flagByte inverted)
  | .setled index value => commandWord 0xB#4 index (flagByte value)
  | .getled index => commandWord 0xC#4 index 0#8

/-- One row of the opcode table: a word is the row's command when `w & mask = value` (R81, R87). -/
structure OpRow where
  mnemonic : String
  value : Word
  mask : Word
  deriving DecidableEq, Repr

/-- The opcode table (R87). -/
def opcodeTable : List OpRow :=
  [⟨"BWR", 0x10000000#32, 0xFF0000FF#32⟩, ⟨"BRD", 0x20000000#32, 0xFF00FFFF#32⟩,
   ⟨"BRD2", 0x30000000#32, 0xFF00FFFF#32⟩, ⟨"ENABLE", 0x40000000#32, 0xFFFFFFFF#32⟩,
   ⟨"DISABLE", 0x50000000#32, 0xFFFFFFFF#32⟩, ⟨"SETATIME", 0x60000000#32, 0xFFFF00FF#32⟩] ++
  [⟨"SETGAIN", 0x70000000#32, 0xFFFF00FF#32⟩, ⟨"READRGB", 0x80000000#32, 0xFFFFFFFF#32⟩,
   ⟨"LEDPIN", 0x90000000#32, 0xFF0000FF#32⟩, ⟨"LEDINIT", 0xA0000000#32, 0xFF00FEFF#32⟩,
   ⟨"SETLED", 0xB0000000#32, 0xFF00FEFF#32⟩, ⟨"GETLED", 0xC0000000#32, 0xFF00FFFF#32⟩]

/-- The word is the row's (R81). -/
def OpRow.accepts (r : OpRow) (w : Word) : Bool := w &&& r.mask == r.value

/-- The 32-bit word of an instruction given as the opcode table numbers its bits: bits at and above `nbits` are zero. -/
def tableWord (nbits w : Nat) : Word := BitVec.ofNat 32 (w % 2 ^ min nbits 32)

/-- The command the decoder reads from a word numbered as spec/opcode_table.json numbers it. -/
def decodeTableWord (nbits w : Nat) : Option Instr :=
  match decode (tableWord nbits w) with
  | .ok i => some i
  | .error _ => none

end Sys2Proof
end

