-- ==== Sys2Proof/Machine/State.lean ====
section
/-! DEFINITION. The state of the block (10_state.md), the state the spec gives the agents around it (R35), and what the
outside world does to it (00_scope.md R6). Plain data throughout. -/

namespace Sys2Proof.Machine

/-- The error codes of `STATUS.ERR` (60_exceptions.md R211); codes 8 to 15 do not exist. -/
inductive ErrCode where
  | ok
  | busError
  | identityMismatch
  | pinUnavailable
  | indexOutOfRange
  | illegalCommand
  | badOperand
  | badState
  deriving DecidableEq, Repr

/-- The sensor driver state `SSTATE` (R28); the value 3 does not exist. -/
inductive SState where
  | uninit
  | verifying
  | ready
  deriving DecidableEq, Repr

/-- The pseudocode variable a pair read is assigned to (R105, R134). -/
inductive PairVar where
  | v | c | r | g | b
  deriving DecidableEq, Repr

/-- The variables of the command in progress (R31): the byte `id` or `v` (R103, R122, R127), the pair `v` (R105), the four
raw channels (R134). They are zero between commands (R58, R132). -/
structure Locals where
  byte : Byte := 0
  pair : Half := 0
  clear : Half := 0
  red : Half := 0
  green : Half := 0
  blue : Half := 0
  deriving DecidableEq, Repr

/-- One step a command still has to do (R31): a statement of the pseudocode (R9). -/
inductive Op where
  /-- `MemWrite(reg, 1, v)` (R100). -/
  | memWrite (reg v : Byte)
  /-- `MemWrite(reg, 1, v & mask)` for the byte `v` read before (R127). -/
  | memWriteMasked (reg mask : Byte)
  /-- `id <- MemRead(reg, 1)`, `v <- MemRead(reg, 1)` (R102). -/
  | memRead (reg : Byte)
  /-- `x <- MemRead(regLow, 2)` (R104). -/
  | memReadPair (regLow : Byte) (x : PairVar)
  /-- `Delay(T_SETTLE)` (R126). -/
  | delay
  /-- `PinOpen(p)`, raising PIN_UNAVAILABLE when it is refused (R187). -/
  | pinOpen (p : Byte)
  /-- `PinSetOutput(p)` (R181). -/
  | pinSetOutput (p : Byte)
  /-- `PinWrite(p, level)` (R181). -/
  | pinWrite (p : Byte) (level : Bool)
  /-- `if id != ID_EXPECTED: raise IDENTITY_MISMATCH` (R122). -/
  | checkId
  /-- `st.sstate <- VERIFYING`, where the `try` block of `Begin` opens (R122). -/
  | setVerifying
  /-- `st.sstate <- READY`, just after the `try` block of `Begin` has closed (R122). -/
  | setReady
  /-- `st.enabled <- e` (R126, R127). -/
  | setEnabled (e : Bool)
  /-- `st.atime <- code` (R128). -/
  | setAtime (code : Byte)
  /-- `st.gain <- code` (R130). -/
  | setGain (code : Byte)
  /-- `st.result <- zext_32(v)` for a byte (R103). -/
  | resultByte
  /-- `st.result <- zext_32(v)` for a pair (R105). -/
  | resultPair
  /-- `st.result <- {0x00, Q(r, c), Q(g, c), Q(b, c)}` (R134). -/
  | resultRgb
  /-- The success writes of `LEDINIT` (R187). -/
  | bankUp (count : Byte) (inverted : Bool)
  /-- The block's own work, not finished yet: it ends with a return stimulus, or when no stimulus is left (R166, R259; log 4). -/
  | work
  deriving DecidableEq, Repr

/-- An action of the block on the outside world (R5): bus transactions to a device address (R53), delays (R9), pin
operations (R181). -/
inductive Action where
  | busWrite (dev : BitVec 7) (bytes : List Byte)
  | busWriteRead (dev : BitVec 7) (bytes : List Byte) (n : Nat)
  | delay (atLeastMs : Nat)
  | pinOpen (p : Byte)
  | pinSetOutput (p : Byte)
  | pinWrite (p : Byte) (level : Bool)
  deriving DecidableEq, Repr

/-- What the pin transport holds for one pin (R35, R182): whether the block's claim was granted, whether the pin was set to
output, and the last level the block wrote since reset (`none`: no level written). -/
structure PinState where
  claimed : Bool := false
  output : Bool := false
  level : Option Bool := none
  deriving DecidableEq, Repr

/-- The pins by identifier: identifiers strictly rising, no entry equal to the default (log 9). -/
abbrev Pins := List (Nat × PinState)

/-- A host access: its offset from `HOST_BASE`, its width in bytes and, for a write, the data (R20, R57). -/
inductive HostAccess where
  | read (off : Int) (bytes : Nat)
  | write (off : Int) (bytes : Nat) (data : Word)
  deriving DecidableEq, Repr

/-- What the outside world does next (00_scope.md R6; log 1). -/
inductive Stimulus where
  /-- A host access reaches the window (R20). -/
  | access (a : HostAccess)
  /-- The outstanding operation returns (R53, R181, R126). -/
  | ret (r : Reply)
  /-- The block's own work takes so long that the stimuli after this one, up to the next return, arrive before it ends
  (R166; log 4). -/
  | linger
  /-- The reset input is asserted and released (R240). -/
  | reset
  /-- The pin transport releases a claim (R182). -/
  | pinReleased (p : Byte)
  deriving DecidableEq, Repr

/-- The four host registers (R20). -/
inductive HostReg where
  | cmd | status | result | config
  deriving DecidableEq, Repr

/-- The state (R36 lists the block's own fields). -/
structure State where
  /-- `st.busy` (R21). -/
  busy : Bool
  /-- `st.err` (R22). -/
  err : ErrCode
  /-- `st.result` (R23). -/
  result : Word
  /-- `st.lastcmd` (R21). -/
  lastcmd : Word
  /-- `st.cv` (R30). -/
  cv : Bool
  /-- `st.ovr` (R30). -/
  ovr : Bool
  /-- `st.sstate` (R28). -/
  sstate : SState
  /-- `st.enabled` (R28). -/
  enabled : Bool
  /-- `st.atime` (R27). -/
  atime : Byte
  /-- `st.gain` (R27). -/
  gain : Byte
  /-- `st.lbinit` (R32). -/
  lbinit : Bool
  /-- `st.inverted` (R32). -/
  inverted : Bool
  /-- `st.ledcount` (R32). -/
  ledcount : Byte
  /-- `st.ledStates[i]` (R32). -/
  ledStates : Vector Bool Config.nledMax
  /-- `st.pinmap[i]` (R32). -/
  pinmap : Vector (BitVec Config.pinIdW) Config.nledMax
  /-- The steps the command in progress still has to do, the outstanding one first (R31). -/
  micro : List Op
  /-- The variables of the command in progress (R31). -/
  locals : Locals
  /-- The pin transport's side (R35). -/
  pins : Pins
  /-- Every action issued so far, oldest first (R5). -/
  actions : List Action
  /-- What the last host read returned (R20). -/
  hostData : Option Word
  /-- The stimuli still to come, oldest first (R6; log 1). -/
  world : List Stimulus
  /-- How many free values have been drawn (R54; log 2). -/
  draws : Nat
  deriving DecidableEq, Repr

/-- The spec gives the block no fault: every failure ends the command with an error code and the block goes on
(60_exceptions.md R210, R218, R219), so this type has no constructor and nothing raises one. -/
inductive Fault where
  deriving DecidableEq, Repr

/-- Why a step has no meaning. -/
inductive Refusal where
  /-- An instruction without a meaning yet, by mnemonic. Raised by an arm of `exec` only; no arm raises it. Safe. -/
  | notModelled (mnemonic : String)
  /-- A host access that is not an aligned 32-bit access to one of the four offsets (20_memory.md R57: "A model gives it no
  step (it refuses)"). Raised by the host port. Safe: the access has no run. -/
  | hostAccess (a : HostAccess)
  deriving DecidableEq, Repr

/-- The block right after reset (R36, R240), with nothing issued, nothing claimed and nothing about to arrive. -/
def State.reset : State where
  busy := false
  err := .ok
  result := 0x00000000#32
  lastcmd := 0x00000000#32
  cv := false
  ovr := false
  sstate := .uninit
  enabled := false
  atime := Config.atimeReset
  gain := Config.gainReset
  lbinit := false
  inverted := false
  ledcount := 0x00#8
  ledStates := Vector.replicate Config.nledMax false
  pinmap := Vector.replicate Config.nledMax 0x00#8
  micro := []
  locals := {}
  pins := []
  actions := []
  hostData := none
  world := []
  draws := 0

end Sys2Proof.Machine
end

