-- ==== Sys2Proof/Machine/Flags.lean ====
section
/-! DEFINITION. The codes and views of the status bookkeeping: `STATUS`, `CONFIG`, the error codes and their classes
(10_state.md R22, R24, R26; 60_exceptions.md R211, R212). -/

namespace Sys2Proof.Machine

/-- The number of an error code (R211). -/
def ErrCode.code : ErrCode → BitVec 4
  | .ok => 0
  | .busError => 1
  | .identityMismatch => 2
  | .pinUnavailable => 3
  | .indexOutOfRange => 4
  | .illegalCommand => 5
  | .badOperand => 6
  | .badState => 7

/-- The code is of the contract-violation class, which sets `CV` (R212, R216). -/
def ErrCode.isContract : ErrCode → Bool
  | .indexOutOfRange | .illegalCommand | .badOperand | .badState => true
  | .ok | .busError | .identityMismatch | .pinUnavailable => false

/-- The number of a driver state (R28). -/
def SState.code : SState → BitVec 2
  | .uninit => 0
  | .verifying => 1
  | .ready => 2

/-- One bit of a register view. -/
def bit (b : Bool) : BitVec 1 := BitVec.ofBool b

/-- `STATUS` as read while idle (R22), highest field first. -/
def State.statusWord (s : State) : Word :=
  0#8 ++ (s.ledcount ++ (0#1 ++ (bit s.ovr ++ (bit s.cv ++ (bit s.inverted ++ (bit s.lbinit ++
    (bit s.enabled ++ (s.sstate.code ++ (s.err.code ++ (0#3 ++ bit s.busy))))))))))

/-- `CONFIG` (R24). -/
def State.configWord (s : State) : Word := 0#16 ++ (s.gain ++ s.atime)

/-- The bits of `STATUS` that belong to a field other than `BUSY` (R22): the ones a read while busy leaves open. -/
def statusOpenBits : Word := 0x00FF7FF0#32

/-- `STATUS` as read while busy, filled from a free word: `BUSY` is 1, reserved bits are 0 (R22, R26; log 8). -/
def busyStatus (free : Word) : Word := (free &&& statusOpenBits) ||| 1#32

end Sys2Proof.Machine
end

