-- ==== Sys2Proof/Machine/Quantizer.lean ====
section
/-! DEFINITION. The RGB channel quantizer (42_quantizer.md). -/

namespace Sys2Proof.Machine

/-- `Q(raw, clear)`: exact product, truncating division, clamp on the full quotient, 0 for a zero clear count (R160,
R161, R164). -/
def quantize (raw clear : Half) : Byte :=
  if clear = 0 then 0 else BitVec.ofNat 8 (min 255 (raw.toNat * 255 / clear.toNat))

/-- `{0x00, Q(r, c), Q(g, c), Q(b, c)}` (R134, R165). -/
def rgbWord (c r g b : Half) : Word := 0#8 ++ (quantize r c ++ (quantize g c ++ quantize b c))

end Sys2Proof.Machine
end

