-- ==== Sys2Proof/Machine/Ops.lean ====
section
/-! DEFINITION. The named operations every meaning is built from: the pin transport's record, the state updates, the two
endings of a command (60_exceptions.md R210, R216), the issue and completion of one operation, the run of a command's
steps (20_memory.md R65), and the shared sequences of the driver (41_sensor_driver.md R121, R122, R126). -/

namespace Sys2Proof.Machine

/-! ### The pin transport's record (R35, R181, R182) -/

/-- What the record says of a pin; an unlisted pin is in the default state. -/
def Pins.get : Pins → Nat → PinState
  | [], _ => {}
  | (k, x) :: ps, p => if k = p then x else Pins.get ps p

/-- An entry, or nothing for the default state. -/
def Pins.entry (p : Nat) (x : PinState) : Pins := if x = {} then [] else [(p, x)]

/-- Writes one pin's state, keeping the canonical form. -/
def Pins.set : Pins → Nat → PinState → Pins
  | [], p, x => Pins.entry p x
  | (k, y) :: ps, p, x =>
    if k < p then (k, y) :: Pins.set ps p x
    else if k = p then Pins.entry p x ++ ps
    else Pins.entry p x ++ (k, y) :: ps

/-- Every identifier is above `lo`, identifiers rise strictly, no entry is the default state. -/
def Pins.wfFrom : Option Nat → Pins → Bool
  | _, [] => true
  | lo, (k, x) :: ps => (match lo with | none => true | some l => decide (l < k)) && decide (x ≠ {}) && Pins.wfFrom (some k) ps

/-- The canonical form of the record. -/
def Pins.wf (ps : Pins) : Bool := Pins.wfFrom none ps

/-- The record after a reset: claims are freed only under `PIN_RELEASE_ON_RESET`, and no level is known any more (R241;
log 9). -/
def Pins.afterReset (ps : Pins) : Pins :=
  if Config.pinReleaseOnReset then []
  else ps.flatMap fun e => Pins.entry e.1 { e.2 with level := none }

/-! ### Updates of the state -/

namespace State

/-- A command word is accepted (R21). -/
def accept (w : Word) (s : State) : State := { s with lastcmd := w, busy := true }

/-- A command word is dropped (R21, R30). -/
def dropWord (s : State) : State := { s with ovr := true, cv := true }

/-- `done`: the success ending (R9, R216). The micro-state is empty afterwards (R31). -/
def endOk (s : State) : State := { s with err := .ok, busy := false, micro := [], locals := {} }

/-- `raise E`: the error ending (R210, R216), the block's one exception entry; it saves nothing but the code (R218). -/
def raise (e : ErrCode) (s : State) : State :=
  { s with err := e, cv := s.cv || e.isContract, busy := false, micro := [], locals := {} }

/-- The handler of `Begin`'s `try` block (R122, R123). -/
def revertBegin (s : State) : State := { s with sstate := .uninit, enabled := false }

/-- One more action has been issued (R5). -/
def emit (a : Action) (s : State) : State := { s with actions := s.actions ++ [a] }

/-- What is still to arrive. -/
def withWorld (w : List Stimulus) (s : State) : State := { s with world := w }

/-- A free value has been drawn. -/
def draw (s : State) : State := { s with draws := s.draws + 1 }

/-- The command waits with these steps to do (R31). -/
def suspend (ops : List Op) (s : State) : State := { s with micro := ops }

/-- The byte variable of the command. -/
def setByte (v : Byte) (s : State) : State := { s with locals := { s.locals with byte := v } }

/-- A 16-bit variable of the command. -/
def setPair (x : PairVar) (v : Half) (s : State) : State :=
  match x with
  | .v => { s with locals := { s.locals with pair := v } }
  | .c => { s with locals := { s.locals with clear := v } }
  | .r => { s with locals := { s.locals with red := v } }
  | .g => { s with locals := { s.locals with green := v } }
  | .b => { s with locals := { s.locals with blue := v } }

def setSstate (x : SState) (s : State) : State := { s with sstate := x }

def setEnabled (e : Bool) (s : State) : State := { s with enabled := e }

def setAtime (c : Byte) (s : State) : State := { s with atime := c }

def setGain (c : Byte) (s : State) : State := { s with gain := c }

def setResult (r : Word) (s : State) : State := { s with result := r }

/-- `st.ledStates[i] <- v` (R189). -/
def setLed (i : Nat) (v : Bool) (s : State) : State := { s with ledStates := s.ledStates.setIfInBounds i v }

/-- `st.pinmap[i] <- p` (R186). -/
def setPinmap (i : Nat) (p : Byte) (s : State) : State := { s with pinmap := s.pinmap.setIfInBounds i p }

/-- The success writes of `LEDINIT` (R187). -/
def bankUp (count : Byte) (inv : Bool) (s : State) : State :=
  { s with inverted := inv, ledcount := count, ledStates := Vector.replicate Config.nledMax false, lbinit := true }

/-- The pin transport's state of one pin changes. -/
def updPin (p : Byte) (f : PinState → PinState) (s : State) : State :=
  { s with pins := s.pins.set p.toNat (f (s.pins.get p.toNat)) }

/-- A host read returns a word. -/
def setHostData (w : Word) (s : State) : State := { s with hostData := some w }

/-- A reset of the block (R240); nothing outside the block is reset (R241). -/
def resetBlock (s : State) : State :=
  { State.reset with
    pins := s.pins.afterReset
    actions := s.actions
    hostData := s.hostData
    world := s.world
    draws := s.draws }

/-- `st.ledStates[i]` (R32). -/
def led (s : State) (i : Nat) : Bool := (s.ledStates[i]?).getD false

/-- `st.pinmap[i]` (R32). -/
def pinOf (s : State) (i : Nat) : Byte := (s.pinmap[i]?).getD 0

/-- The pin identifiers of the first `n` LEDs, in index order (R187). -/
def bankPins (s : State) (n : Nat) : List Byte := s.pinmap.toList.take n

end State

/-! ### One step of a command -/

/-- The action an operation issues; `none` for a step inside the block (R53, R100 to R104, R126, R181). -/
def Op.action (s : State) : Op → Option Action
  | .memWrite reg v => some (.busWrite Config.devAddr [wireByte reg, v])
  | .memWriteMasked reg mask => some (.busWrite Config.devAddr [wireByte reg, s.locals.byte &&& mask])
  | .memRead reg => some (.busWriteRead Config.devAddr [wireByte reg] 1)
  | .memReadPair reg _ => some (.busWriteRead Config.devAddr [wireByte reg] 2)
  | .delay => some (.delay Config.tSettleMs)
  | .pinOpen p => some (.pinOpen p)
  | .pinSetOutput p => some (.pinSetOutput p)
  | .pinWrite p level => some (.pinWrite p level)
  | .checkId | .setVerifying | .setReady | .setEnabled _ | .setAtime _ | .setGain _ | .resultByte | .resultPair
  | .resultRgb | .bankUp _ _ | .work => none

/-- The effect of an operation when it returns `r`, or the error it raises (R101, R102, R104, R181, R187). -/
def Op.finish (r : Reply) (s : State) : Op → Except ErrCode State
  | .memWrite _ _ => if r.ok then .ok s else .error .busError
  | .memWriteMasked _ _ => if r.ok then .ok s else .error .busError
  | .memRead _ => if r.ok then .ok (s.setByte r.b0) else .error .busError
  | .memReadPair _ x => if r.ok then .ok (s.setPair x (pairValue r.b0 r.b1)) else .error .busError
  | .pinOpen p => if r.ok then .ok (s.updPin p fun x => { x with claimed := true }) else .error .pinUnavailable
  | .pinSetOutput p => .ok (s.updPin p fun x => { x with output := true })
  | .pinWrite p level => .ok (s.updPin p fun x => { x with level := some level })
  | .delay | .checkId | .setVerifying | .setReady | .setEnabled _ | .setAtime _ | .setGain _ | .resultByte
  | .resultPair | .resultRgb | .bankUp _ _ | .work => .ok s

/-- The effect of a step inside the block, or the error it raises (R122, R103, R105, R126 to R134, R187). -/
def Op.internal (s : State) : Op → Except ErrCode State
  | .checkId => if s.locals.byte = Config.idExpected then .ok s else .error .identityMismatch
  | .setVerifying => .ok (s.setSstate .verifying)
  | .setReady => .ok (s.setSstate .ready)
  | .setEnabled e => .ok (s.setEnabled e)
  | .setAtime c => .ok (s.setAtime c)
  | .setGain c => .ok (s.setGain c)
  | .resultByte => .ok (s.setResult (s.locals.byte.zeroExtend 32))
  | .resultPair => .ok (s.setResult (s.locals.pair.zeroExtend 32))
  | .resultRgb => .ok (s.setResult (rgbWord s.locals.clear s.locals.red s.locals.green s.locals.blue))
  | .bankUp n inv => .ok (s.bankUp n inv)
  | .memWrite _ _ | .memWriteMasked _ _ | .memRead _ | .memReadPair _ _ | .delay | .pinOpen _ | .pinSetOutput _
  | .pinWrite _ _ | .work => .ok s

/-- The steps still to do lie inside the `try` block of `Begin`: it has been entered and not left (R122). -/
def inTry (rest : List Op) : Bool := rest.contains .setReady && !rest.contains .setVerifying

/-- The error ending at a point of a command, through the handler where one is active (R122, R123, R216). -/
def raiseAt (rest : List Op) (e : ErrCode) (s : State) : State :=
  if inTry rest then (s.revertBegin).raise e else s.raise e

/-- The answer the outstanding operation gets before anything else arrives, if it gets one: the next stimulus if it is a
return, nothing if another stimulus comes first, a free value if no stimulus is left (R54, R181; log 1, log 2). -/
def State.nextReply (s : State) : Option Reply × State :=
  match s.world with
  | .ret r :: w => (some r, s.withWorld w)
  | [] => (Config.freeReply s.draws, s.draw)
  | _ :: _ => (none, s)

/-- The block's own work is still going on when the next stimulus arrives (log 4). -/
def State.lingering (s : State) : Option State :=
  match s.world with
  | .linger :: w => some (s.withWorld w)
  | _ => none

/-- What one step of a command comes to: it is done, it has ended the command with an error, or it is outstanding. -/
inductive OpOutcome where
  | passed (s : State)
  | raised (e : ErrCode) (s : State)
  | waiting (s : State)
  deriving DecidableEq, Repr

/-- The outcome of an effect. -/
def OpOutcome.ofExcept (s : State) : Except ErrCode State → OpOutcome
  | .ok s' => .passed s'
  | .error e => .raised e s

/-- One step of a command: a step inside the block takes effect; an operation is issued, and takes effect if it returns
before anything else arrives. -/
def Op.start (op : Op) (s : State) : OpOutcome :=
  match op.action s with
  | none => .ofExcept s (op.internal s)
  | some a =>
    match (s.emit a).nextReply with
    | (some r, s') => .ofExcept s' (op.finish r s')
    | (none, s') => .waiting s'

/-- The run of a command's steps, in order, each complete before the next begins, none after a failure (R65). It stops with
the command in progress when an operation has not returned (R31). -/
def run : List Op → State → State
  | [], s =>
    match s.lingering with
    | some s' => s'.suspend [.work]
    | none => s.endOk
  | op :: rest, s =>
    match s.lingering with
    | some s' => s'.suspend (.work :: op :: rest)
    | none =>
      match op.start s with
      | .passed s' => run rest s'
      | .raised e s' => raiseAt rest e s'
      | .waiting s' => s'.suspend (op :: rest)

/-- The outstanding operation returns `r`; with nothing outstanding the return reaches nobody (R221). -/
def resume (r : Reply) (s : State) : State :=
  match s.micro with
  | [] => s
  | op :: rest =>
    match op.finish r s with
    | .ok s' => run rest s'
    | .error e => raiseAt rest e s

/-- No stimulus is left: the block's own work ends, since no command waits on the outside world but at a call (R259; log 4);
an outstanding operation may still return, as the free value says, or never (R54, R259; log 2). -/
def unprompted (s : State) : State :=
  match s.micro with
  | [] => s
  | .work :: rest => run rest s
  | _ :: _ =>
    match Config.freeReply s.draws with
    | some r => resume r s.draw
    | none => s.draw

/-! ### Sequences shared by the driver commands -/

/-- `EnableBody()` (R126). -/
def enableBody : List Op :=
  [.memWrite Target.regEnable Target.pon, .delay, .memWrite Target.regEnable (Target.pon ||| Target.aen),
   .setEnabled true]

/-- `Begin()` (R122), which pushes the shadow values held when it starts. -/
def beginOps (s : State) : List Op :=
  [.memRead Target.regId, .checkId, .setVerifying, .memWrite Target.regAtime s.atime,
   .memWrite Target.regControl s.gain] ++ enableBody ++ [.setReady]

/-- The guard of every driver command (R121). -/
def guardOps (s : State) : List Op := if s.sstate = .uninit then beginOps s else []

end Sys2Proof.Machine
end

