-- ==== Sys2Proof/Machine/ColorBus.lean ====
section
/-! DEFINITION. The raw bus commands (40_colorbus.md R106, R103, R105, R107). -/

namespace Sys2Proof.Machine

/-- `BWR reg, value` (R106). -/
def execBwr (reg value : Byte) (s : State) : Host.Outcome State Fault Refusal :=
  .next (run [.memWrite reg value] s)

/-- `BRD reg` (R103). -/
def execBrd (reg : Byte) (s : State) : Host.Outcome State Fault Refusal :=
  .next (run [.memRead reg, .resultByte] s)

/-- `BRD2 regLow` (R105). -/
def execBrd2 (regLow : Byte) (s : State) : Host.Outcome State Fault Refusal :=
  .next (run [.memReadPair regLow .v, .resultPair] s)

end Sys2Proof.Machine
end

