-- ==== Sys2Proof/Machine/Led.lean ====
section
/-! DEFINITION. The LED commands (43_led_driver.md R186, R187, R189, R191), their checks in the order of
60_exceptions.md R213. -/

namespace Sys2Proof.Machine

/-- `LEDPIN index, pin` (R186). -/
def execLedpin (index pin : Byte) (s : State) : Host.Outcome State Fault Refusal :=
  .next (if index.toNat ≥ Config.nledMax then s.raise .indexOutOfRange
    else if s.lbinit then s.raise .badState
    else run [] (s.setPinmap index.toNat pin))

/-- The claims of `LEDINIT`: each pin in index order is opened, set to output and driven to the off level (R187). -/
def claimOps (inverted : Bool) (pins : List Byte) : List Op :=
  pins.flatMap fun p => [.pinOpen p, .pinSetOutput p, .pinWrite p (ledLevel false inverted)]

/-- `LEDINIT count, inverted` (R187). -/
def execLedinit (count : Byte) (inverted : Bool) (s : State) : Host.Outcome State Fault Refusal :=
  .next (if countLegal count then
      if s.lbinit then s.raise .badState
      else run (claimOps inverted (s.bankPins count.toNat) ++ [.bankUp count inverted]) s
    else s.raise .badOperand)

/-- `SETLED index, value` (R189): the store, then the pin write. -/
def execSetled (index : Byte) (value : Bool) (s : State) : Host.Outcome State Fault Refusal :=
  .next (if index.toNat ≥ s.ledcount.toNat then s.raise .indexOutOfRange
    else run [.pinWrite (s.pinOf index.toNat) (ledLevel value s.inverted)] (s.setLed index.toNat value))

/-- `GETLED index` (R191). -/
def execGetled (index : Byte) (s : State) : Host.Outcome State Fault Refusal :=
  .next (if index.toNat ≥ s.ledcount.toNat then s.raise .indexOutOfRange
    else run [] (s.setResult ((bit (s.led index.toNat)).zeroExtend 32)))

end Sys2Proof.Machine
end

