-- ==== Sys2Proof/Machine/Sensor.lean ====
section
/-! DEFINITION. The driver commands (41_sensor_driver.md R125, R127, R128, R130, R134). -/

namespace Sys2Proof.Machine

/-- `ENABLE` (R125): from UNINIT the begin sequence and then a second enable sequence. -/
def execEnable (s : State) : Host.Outcome State Fault Refusal :=
  .next (run (guardOps s ++ enableBody) s)

/-- `DISABLE` (R127): a read-modify-write that keeps bits [7:2]. -/
def execDisable (s : State) : Host.Outcome State Fault Refusal :=
  .next (run (guardOps s ++
    [.memRead Target.regEnable, .memWriteMasked Target.regEnable (~~~(Target.pon ||| Target.aen)), .setEnabled false]) s)

/-- `SETATIME code` (R128): the operand check (R86), the guard with the old code, the shadow, the write. -/
def execSetatime (code : Byte) (s : State) : Host.Outcome State Fault Refusal :=
  .next (if atimeLegal code then run (guardOps s ++ [.setAtime code, .memWrite Target.regAtime code]) s
    else s.raise .badOperand)

/-- `SETGAIN code` (R130): the operand check (R86), the guard with the old code, the shadow, the write. -/
def execSetgain (code : Byte) (s : State) : Host.Outcome State Fault Refusal :=
  .next (if gainLegal code then run (guardOps s ++ [.setGain code, .memWrite Target.regControl code]) s
    else s.raise .badOperand)

/-- `READRGB` (R134): clear, red, green, blue, each one pair read (R132), then the quantizer. -/
def execReadrgb (s : State) : Host.Outcome State Fault Refusal :=
  .next (run (guardOps s ++
    [.memReadPair Target.regCdatal .c, .memReadPair Target.regRdatal .r, .memReadPair Target.regGdatal .g,
     .memReadPair Target.regBdatal .b, .resultRgb]) s)

end Sys2Proof.Machine
end

