-- ==== Sys2Proof/Machine/Dispatch.lean ====
section
/-! DEFINITION. The dispatch: one arm per command (30_encoding.md R82), each calling its meaning. -/

namespace Sys2Proof.Machine

/-- The effect of an accepted command. -/
def exec (i : Instr) (s : State) : Host.Outcome State Fault Refusal :=
  match i with
  | .bwr reg value => Sys2Proof.Machine.execBwr reg value s
  | .brd reg => Sys2Proof.Machine.execBrd reg s
  | .brd2 regLow => Sys2Proof.Machine.execBrd2 regLow s
  | .enable => Sys2Proof.Machine.execEnable s
  | .disable => Sys2Proof.Machine.execDisable s
  | .setatime code => Sys2Proof.Machine.execSetatime code s
  | .setgain code => Sys2Proof.Machine.execSetgain code s
  | .readrgb => Sys2Proof.Machine.execReadrgb s
  | .ledpin index pin => Sys2Proof.Machine.execLedpin index pin s
  | .ledinit count inverted => Sys2Proof.Machine.execLedinit count inverted s
  | .setled index value => Sys2Proof.Machine.execSetled index value s
  | .getled index => Sys2Proof.Machine.execGetled index s

end Sys2Proof.Machine
end

