-- ==== Sys2Proof/Machine/HostPort.lean ====
section
/-! DEFINITION. The host port: the window's decoding, reads and writes, acceptance of a command word (10_state.md R20 to R26;
20_memory.md R57), and the block's answer to each stimulus of the outside world (00_scope.md R6). -/

namespace Sys2Proof.Machine

/-- The register at an offset of the window (R20). -/
def HostReg.atOffset (off : Int) : Option HostReg :=
  if off = 0x00 then some .cmd
  else if off = 0x04 then some .status
  else if off = 0x08 then some .result
  else if off = 0x0C then some .config
  else none

/-- The register an access reaches, if it is one the block defines: a 32-bit access to one of the four offsets (R57). -/
def HostAccess.reg : HostAccess → Option HostReg
  | .read off bytes => if bytes = 4 then HostReg.atOffset off else none
  | .write off bytes _ => if bytes = 4 then HostReg.atOffset off else none

/-- A platform read at an absolute address, as the window sees it (R20, R64). -/
def HostAccess.readAt (addr bytes : Nat) : HostAccess := .read ((addr : Int) - (Config.hostBase : Int)) bytes

/-- A platform write at an absolute address, as the window sees it (R20, R64). -/
def HostAccess.writeAt (addr bytes : Nat) (data : Word) : HostAccess :=
  .write ((addr : Int) - (Config.hostBase : Int)) bytes data

/-- The host writes a word to `CMD`. -/
def HostAccess.command (w : Word) : HostAccess := .write 0x00 4 w

/-- The host reads `STATUS`. -/
def HostAccess.poll : HostAccess := .read 0x04 4

/-- What a host register reads while the block is idle (R21 to R24). -/
def State.regWord (s : State) : HostReg → Word
  | .cmd => s.lastcmd
  | .status => s.statusWord
  | .result => s.result
  | .config => s.configWord

/-- A host read: while busy only `BUSY` and `CMD` are defined, the rest is drawn (R26). -/
def hostRead (r : HostReg) (s : State) : State :=
  if s.busy then
    match r with
    | .cmd => s.setHostData s.lastcmd
    | .status => (s.setHostData (busyStatus (Config.freeWord s.draws))).draw
    | .result => (s.setHostData (Config.freeWord s.draws)).draw
    | .config => (s.setHostData (Config.freeWord s.draws)).draw
  else s.setHostData (s.regWord r)

/-- An idle block takes a command word: the command it decodes to runs, an illegal word ends at once (R21, R81). -/
def runWord (w : Word) (s : State) : Host.Outcome State Fault Refusal :=
  match decode w with
  | .ok i => exec i (s.accept w)
  | .error _ => .next ((s.accept w).raise .illegalCommand)

/-- A host write: to `CMD` it issues or drops a command word (R21), to the other registers it does nothing (R25). -/
def hostWrite (r : HostReg) (w : Word) (s : State) : Host.Outcome State Fault Refusal :=
  match r with
  | .cmd => if s.busy then .next s.dropWord else runWord w s
  | .status => .next s
  | .result => .next s
  | .config => .next s

/-- A host access; one outside the rules of the window has no step (R57). -/
def hostAccess (a : HostAccess) (s : State) : Host.Outcome State Fault Refusal :=
  match a.reg with
  | none => .refused (.hostAccess a)
  | some r =>
    match a with
    | .read _ _ => .next (hostRead r s)
    | .write _ _ w => hostWrite r w s

/-- The block's answer to one stimulus (R6). -/
def react (x : Stimulus) (s : State) : Host.Outcome State Fault Refusal :=
  match x with
  | .access a => hostAccess a s
  | .ret r => .next (resume r s)
  | .linger => .next s
  | .reset => .next s.resetBlock
  | .pinReleased p => .next (s.updPin p fun x => { x with claimed := false })

/-- One step: the next stimulus arrives; with none left, an outstanding operation may still return and an idle block stays
as it is. -/
def stepWorld (s : State) : Host.Outcome State Fault Refusal :=
  match s.world with
  | [] => .next (unprompted s)
  | x :: w => react x (s.withWorld w)

/-- The host writes a word to `CMD` next, and the block is idle to take it. -/
def offerWord (w : Word) (s : State) : State :=
  { s with busy := false, micro := [], world := .access (.command w) :: s.world }

end Sys2Proof.Machine
end

