-- ==== Sys2Proof/Machine/Step.lean ====
section
/-! DEFINITION. One step of the machine, and the placing of a command word where the next step takes it. -/

namespace Sys2Proof.Machine

/-- One step: the next stimulus of `world` arrives (00_scope.md R6). -/
def step (s : State) : Host.Outcome State Fault Refusal := stepWorld s

/-- The state in which the next step accepts and runs the command word given as the opcode table numbers it. -/
def State.withFetchWord (s : State) (nbits w : Nat) : State := offerWord (tableWord nbits w) s

end Sys2Proof.Machine
end

