-- ==== Sys2Proof/Machine/Assembler.lean ====
section
/-! DEFINITION. The assembler of host programs: a parsed line to a word (30_encoding.md R89, R90), and the text of a line to
a parsed line (R89; log 15). -/

namespace Sys2Proof

/-- An operand as an 8-bit field. -/
def asByte (n : Nat) : Byte := BitVec.ofNat 8 n

/-- The command a well-formed line stands for; `post` has none (R89, R90). -/
def AsmLine.instr : AsmLine → Option Instr
  | .bwr reg value => some (.bwr (asByte reg.value) (asByte value))
  | .raww value reg => some (.bwr (asByte reg.value) (asByte value))
  | .brd reg => some (.brd (asByte reg.value))
  | .brd2 reg => some (.brd2 (asByte reg.value))
  | .enable => some .enable
  | .disable => some .disable
  | .setatime code => some (.setatime (asByte code))
  | .setgain code => some (.setgain (asByte code))
  | .readrgb => some .readrgb
  | .ledpin index pin => some (.ledpin (asByte index) (asByte pin))
  | .ledinit count inverted => some (.ledinit (asByte count) (inverted == 1))
  | .setled index value => some (.setled (asByte index) (value == 1))
  | .getled index => some (.getled (asByte index))
  | .ledon index => some (.setled (asByte index) true)
  | .ledoff index => some (.setled (asByte index) false)
  | .post _ => none

/-- The assembled line; `none` where the assembler rejects it (R89, R90). -/
def assemble (l : AsmLine) : Option HostLine :=
  if l.wellFormed then
    match l with
    | .post word => some (.post (BitVec.ofNat 32 word))
    | _ => l.instr.map fun i => .issue (encode i)
  else none

namespace Asm

/-- The line up to its comment (R89). -/
def stripComment : List Char → List Char
  | [] => []
  | c :: cs => if c = ';' then [] else c :: stripComment cs

/-- The maximal runs of characters that are neither blank nor comma, and each comma by itself. -/
def tokens : List Char → List (List Char)
  | [] => []
  | c :: cs =>
    let rest := tokens cs
    if c = ' ' || c = '\t' then [] :: rest
    else if c = ',' then [] :: [','] :: [] :: rest
    else
      match rest with
      | t :: ts => if t = [','] then [c] :: t :: ts else (c :: t) :: ts
      | [] => [[c]]

/-- The tokens of a line, comments and blanks left out. -/
def words (line : List Char) : List (List Char) := (tokens (stripComment line)).filter fun t => !t.isEmpty

/-- The value of a digit, up to base 16. -/
def digit (c : Char) : Option Nat :=
  if '0' ≤ c ∧ c ≤ '9' then some (c.toNat - '0'.toNat)
  else if 'a' ≤ c ∧ c ≤ 'f' then some (c.toNat - 'a'.toNat + 10)
  else if 'A' ≤ c ∧ c ≤ 'F' then some (c.toNat - 'A'.toNat + 10)
  else none

/-- A non-empty digit string in a base, added to what stands before it. -/
def digits (base : Nat) : Nat → List Char → Option Nat
  | acc, [] => some acc
  | acc, c :: cs =>
    match digit c with
    | some d => if d < base then digits base (acc * base + d) cs else none
    | none => none

/-- A number, hexadecimal after 0x, else decimal (R89). -/
def number : List Char → Option Nat
  | '0' :: 'x' :: c :: cs => digits 16 0 (c :: cs)
  | c :: cs => digits 10 0 (c :: cs)
  | [] => none

/-- A register name (R52, R89). -/
def regName (t : List Char) : Option RegName :=
  if t = "ENABLE".toList then some .enable
  else if t = "ATIME".toList then some .atime
  else if t = "CONTROL".toList then some .control
  else if t = "ID".toList then some .id
  else if t = "CDATAL".toList then some .cdatal
  else if t = "RDATAL".toList then some .rdatal
  else if t = "GDATAL".toList then some .gdatal
  else if t = "BDATAL".toList then some .bdatal
  else none

/-- A `reg` operand (R89). -/
def regOperand (t : List Char) : Option RegOperand :=
  match regName t with
  | some r => some (.name r)
  | none => (number t).map .num

/-- The operands of a line, separated by commas; `none` where the separation is wrong. -/
def operands : List (List Char) → Option (List (List Char))
  | [] => some []
  | [t] => if t = [','] then none else some [t]
  | [t, c, u] => if t = [','] || c != [','] || u = [','] then none else some [t, u]
  | _ => none

/-- A line with no operand. -/
def line0 (l : AsmLine) : List (List Char) → Option AsmLine
  | [] => some l
  | _ => none

/-- A line with one operand. -/
def line1 {α : Type} (p : List Char → Option α) (f : α → AsmLine) : List (List Char) → Option AsmLine
  | [t] => (p t).map f
  | _ => none

/-- A line with two operands. -/
def line2 {α β : Type} (p : List Char → Option α) (q : List Char → Option β) (f : α → β → AsmLine) :
    List (List Char) → Option AsmLine
  | [t, u] =>
    match p t, q u with
    | some x, some y => some (f x y)
    | _, _ => none
  | _ => none

/-- The line of a mnemonic and its operands; `none` for an unknown mnemonic (R89, R90). -/
def lineOf (m : List Char) (ops : List (List Char)) : Option AsmLine :=
  if m = "BWR".toList then line2 regOperand number .bwr ops
  else if m = "BRD".toList then line1 regOperand .brd ops
  else if m = "BRD2".toList then line1 regOperand .brd2 ops
  else if m = "ENABLE".toList then line0 .enable ops
  else if m = "DISABLE".toList then line0 .disable ops
  else if m = "SETATIME".toList then line1 number .setatime ops
  else if m = "SETGAIN".toList then line1 number .setgain ops
  else if m = "READRGB".toList then line0 .readrgb ops
  else if m = "LEDPIN".toList then line2 number number .ledpin ops
  else if m = "LEDINIT".toList then line2 number number .ledinit ops
  else if m = "SETLED".toList then line2 number number .setled ops
  else if m = "GETLED".toList then line1 number .getled ops
  else if m = "LEDON".toList then line1 number .ledon ops
  else if m = "LEDOFF".toList then line1 number .ledoff ops
  else if m = "RAWW".toList then line2 number regOperand .raww ops
  else if m = "POST".toList then line1 number .post ops
  else none

/-- The parsed line of a text line; `none` where the assembler rejects the text (R89). -/
def parseLine (text : String) : Option AsmLine :=
  match words text.toList with
  | [] => none
  | m :: rest =>
    match operands rest with
    | some ops => lineOf m ops
    | none => none

end Asm

/-- The assembler on text: a host line, or a rejection (R89). -/
def assembleText (text : String) : Option HostLine :=
  match Asm.parseLine text with
  | some l => assemble l
  | none => none

end Sys2Proof
end

