-- ==== Sys2Proof/Machine/HostProgram.lean ====
section
/-! DEFINITION. A host that runs a program: for each line it writes the word and, unless the line is a POST, reads STATUS
until BUSY = 0 (30_encoding.md R90; log 16). -/

namespace Sys2Proof.Machine

/-- The host's place in its program: the lines not yet issued, and whether it is waiting for BUSY = 0. -/
structure HostRun where
  lines : List HostLine
  waiting : Bool
  deriving DecidableEq, Repr

/-- The last `STATUS` read said BUSY = 0 (R66). -/
def sawIdle (s : State) : Bool :=
  match s.hostData with
  | some d => !d.getLsbD 0
  | none => false

/-- One turn of the host: the access it makes, if any, and its place afterwards. -/
def HostRun.turn (h : HostRun) : HostRun × Option HostAccess :=
  if h.waiting then (h, some .poll)
  else
    match h.lines with
    | [] => (h, none)
    | .issue w :: ls => (⟨ls, true⟩, some (.command w))
    | .post w :: ls => (⟨ls, false⟩, some (.command w))

/-- What a poll tells the host: it goes on once it has read BUSY = 0 (R66, R90). -/
def HostRun.observe (h : HostRun) (polled : Bool) (s : State) : HostRun :=
  if polled && sawIdle s then { h with waiting := false } else h

/-- One turn of host and block: the host's access, and while the block is busy one stimulus of the rest of the world. -/
def hostTurn (h : HostRun) (s : State) : Host.Outcome (HostRun × State) Fault Refusal :=
  match h.turn with
  | (h', none) => .next (h', s)
  | (h', some a) =>
    match hostAccess a s with
    | .next s' =>
      if s'.busy then
        match stepWorld s' with
        | .next s'' => .next (h'.observe h.waiting s', s'')
        | .fault f => .fault f
        | .refused r => .refused r
      else .next (h'.observe h.waiting s', s')
    | .fault f => .fault f
    | .refused r => .refused r

/-- So many turns. -/
def hostTurns : Nat → HostRun → State → Host.Outcome (HostRun × State) Fault Refusal
  | 0, h, s => .next (h, s)
  | n + 1, h, s =>
    match hostTurn h s with
    | .next (h', s') => hostTurns n h' s'
    | .fault f => .fault f
    | .refused r => .refused r

end Sys2Proof.Machine
end

