-- ==== Sys2Proof/Machine/RefTarget.lean ====
section
/-! DEFINITION. The reference target (20_memory.md R55): a premise that claims and tests may name, not a property of the
block. Nothing in the machine refers to it. -/

namespace Sys2Proof.Machine

/-- `T[0..127]`. -/
structure RefTarget where
  regs : Vector Byte 128
  deriving DecidableEq, Repr

/-- `T[c & 0x7F]`. -/
def RefTarget.reg (t : RefTarget) (c : Byte) : Byte := (t.regs[(c &&& 0x7F#8).toNat]?).getD 0

/-- `T[c & 0x7F] <- v`. -/
def RefTarget.setReg (t : RefTarget) (c v : Byte) : RefTarget :=
  { regs := t.regs.setIfInBounds (c &&& 0x7F#8).toNat v }

/-- The answer to one action, and the target afterwards (R55). Delays end and pins are granted. -/
def RefTarget.answer (t : RefTarget) : Action → Reply × RefTarget
  | .busWrite _ [c, v] => (⟨true, 0, 0⟩, t.setReg c v)
  | .busWriteRead _ [c] n => (⟨true, t.reg c, if n = 2 then t.reg (c + 1) else 0⟩, t)
  | _ => (⟨true, 0, 0⟩, t)

/-- The answers to actions in order. -/
def RefTarget.answers : RefTarget → List Action → List Reply
  | _, [] => []
  | t, a :: as => (t.answer a).1 :: RefTarget.answers (t.answer a).2 as

end Sys2Proof.Machine
end

