-- ==== Sys2Proof/Safety.lean ====
section
/-! DEFINITION. The terms claims are stated in: the invariants of the block, the worlds in which a command runs to its end
without interruption, the whole course of a command that does not, the action sequences the spec tabulates
(41_sensor_driver.md R137), and what the assembler makes of a line (30_encoding.md R89). -/

namespace Sys2Proof.Machine

/-! ### A run without contract violation -/

/-- No contract violation has happened since reset (10_state.md R30, 60_exceptions.md R212). -/
def State.noViolation (s : State) : Prop := s.cv = false

/-! ### The driver state (10_state.md R28, R29, R31) -/

/-- A step that can be outstanding: an operation on the outside world, or the block's own work (R31). -/
def Op.waits : Op → Bool
  | .memWrite _ _ | .memWriteMasked _ _ | .memRead _ | .memReadPair _ _ | .delay | .pinOpen _ | .pinSetOutput _
  | .pinWrite _ _ | .work => true
  | .checkId | .setVerifying | .setReady | .setEnabled _ | .setAtime _ | .setGain _ | .resultByte | .resultPair
  | .resultRgb | .bankUp _ _ => false

/-- The driver state passes lawfully through the steps still to do: VERIFYING is entered only from UNINIT and left only for
READY, `enabled` is written only outside UNINIT, and the command does not end in VERIFYING (R28, R122). -/
def lawfulWalk : SState → List Op → Bool
  | x, [] => decide (x ≠ .verifying)
  | x, .setVerifying :: ops => decide (x = .uninit) && lawfulWalk .verifying ops
  | x, .setReady :: ops => decide (x = .verifying) && lawfulWalk .ready ops
  | x, .setEnabled _ :: ops => decide (x ≠ .uninit) && lawfulWalk x ops
  | x, _ :: ops => lawfulWalk x ops

/-- The sensor invariant at every point, mid-command included (R28, R29, R31). -/
structure DriverInv (s : State) : Prop where
  /-- The micro-state is empty exactly when the block is idle (R31). -/
  busy_iff : s.busy = true ↔ s.micro ≠ []
  /-- The first step still to do is outstanding (R31). -/
  outstanding : ∀ op rest, s.micro = op :: rest → op.waits = true
  /-- The driver state and the steps still to do fit together (R28); for an idle block this is R29 (a). -/
  walk : lawfulWalk s.sstate s.micro = true
  /-- `enabled` holds only once the begin sequence is under way or done; for an idle block this is R29 (b). -/
  enabled_begun : s.enabled = true → s.sstate ≠ .uninit

/-! ### The shadow configuration (10_state.md R27) -/

/-- A step that writes the shadow configuration writes a listed code (R86). -/
def Op.codeLegal : Op → Bool
  | .setAtime c => atimeLegal c
  | .setGain c => gainLegal c
  | _ => true

/-- The shadow codes are listed ones, and stay so (R27). -/
structure ConfigInv (s : State) : Prop where
  atime_legal : atimeLegal s.atime = true
  gain_legal : gainLegal s.gain = true
  pending_legal : ∀ op ∈ s.micro, op.codeLegal = true

/-! ### The LED bank (10_state.md R32, R33; 43_led_driver.md R188, R194) -/

/-- A step of a LED command (R193). -/
def Op.isPin : Op → Bool
  | .pinOpen _ | .pinSetOutput _ | .pinWrite _ _ | .bankUp _ _ => true
  | _ => false

/-- The LED bank with the pins it drives (R32, R35). -/
structure Bank where
  lbinit : Bool
  inverted : Bool
  ledcount : Byte
  ledStates : Vector Bool Config.nledMax
  pinmap : Vector (BitVec Config.pinIdW) Config.nledMax
  pins : Pins
  deriving DecidableEq, Repr

/-- The LED bank of a state. -/
def State.bank (s : State) : Bank where
  lbinit := s.lbinit
  inverted := s.inverted
  ledcount := s.ledcount
  ledStates := s.ledStates
  pinmap := s.pinmap
  pins := s.pins

/-- `st.ledStates[i]`. -/
def Bank.led (b : Bank) (i : Nat) : Bool := (b.ledStates[i]?).getD false

/-- The identifier of the pin of LED `i`. -/
def Bank.pinOf (b : Bank) (i : Nat) : Byte := (b.pinmap[i]?).getD 0

/-- What the pin transport holds for the pin of LED `i`. -/
def Bank.pinState (b : Bank) (i : Nat) : PinState := b.pins.get (b.pinOf i).toNat

/-- The pin identifiers of the bank are distinct (R33). -/
def Bank.distinctPins (b : Bank) : Prop :=
  ∀ i j, i < b.ledcount.toNat → j < b.ledcount.toNat → b.pinOf i = b.pinOf j → i = j

/-- Each LED's pin was last written the level of its logical value (R33, R184). -/
def Bank.levelsMatch (b : Bank) : Prop :=
  ∀ i, i < b.ledcount.toNat → (b.pinState i).level = some (ledLevel (b.led i) b.inverted)

/-- A bank that was not initialized is empty, unpolarized and off (R32, D34, D49). -/
def Bank.empty (b : Bank) : Prop := b.ledcount = 0 ∧ b.inverted = false ∧ ∀ i, b.led i = false

/-- The effect of one successful step on the bank (R181, R187). -/
def Op.onBank (b : Bank) : Op → Bank
  | .pinOpen p => { b with pins := b.pins.set p.toNat { b.pins.get p.toNat with claimed := true } }
  | .pinSetOutput p => { b with pins := b.pins.set p.toNat { b.pins.get p.toNat with output := true } }
  | .pinWrite p l => { b with pins := b.pins.set p.toNat { b.pins.get p.toNat with level := some l } }
  | .bankUp n v =>
    { b with inverted := v, ledcount := n, ledStates := Vector.replicate Config.nledMax false, lbinit := true }
  | _ => b

/-- The bank once the steps still to do have all succeeded. -/
def Bank.settle : List Op → Bank → Bank
  | [], b => b
  | op :: ops, b => Bank.settle ops (op.onBank b)

/-- The success writes of `LEDINIT` are the last step of their command (R187). -/
def upLast : List Op → Bool
  | [] => true
  | .bankUp _ _ :: ops => ops.isEmpty
  | _ :: ops => upLast ops

/-- The LED invariant at every point, mid-command included. -/
structure BankInv (s : State) : Prop where
  /-- The micro-state is empty exactly when the block is idle (R31). -/
  busy_iff : s.busy = true ↔ s.micro ≠ []
  /-- The first step still to do is outstanding (R31). -/
  outstanding : ∀ op rest, s.micro = op :: rest → op.waits = true
  /-- The pin record is in canonical form (log 9). -/
  pins_wf : s.pins.wf = true
  /-- `ledcount` is at most NLED_MAX (R32). -/
  count_le : s.ledcount.toNat ≤ Config.nledMax
  /-- A bank that was not initialized is empty (R32, R188). -/
  empty_or_up : s.lbinit = false → s.bank.empty
  /-- Once the steps of the command in progress are done, an initialized bank's levels match (R33). -/
  levels : (Bank.settle s.micro s.bank).lbinit = true → (Bank.settle s.micro s.bank).distinctPins →
    (Bank.settle s.micro s.bank).levelsMatch
  /-- The command in progress is a LED command or it touches no pin (R193). -/
  one_unit : (∀ op ∈ s.micro, op.isPin = false) ∨ (∀ op ∈ s.micro, op.isPin = true ∨ op = .work)
  /-- Claims are still to do only while the bank is uninitialized (R187). -/
  claiming : ∀ p, .pinOpen p ∈ s.micro → s.lbinit = false
  /-- The success writes of `LEDINIT` are still to do only while the bank is uninitialized, with a count in range (R187). -/
  coming_up : ∀ n v, .bankUp n v ∈ s.micro → s.lbinit = false ∧ n.toNat ≤ Config.nledMax
  /-- The success writes of `LEDINIT` come last (R187). -/
  up_last : upLast s.micro = true

/-! ### Uninterrupted worlds -/

/-- Returns, one after the other. -/
def rets (rs : List Reply) : List Stimulus := rs.map .ret

/-- The block is not made to linger at this point (log 4). -/
abbrev calm (w : List Stimulus) : Prop := w.head? ≠ some .linger

/-- The answers with which the guard of a driver command succeeds: none once the begin sequence is done, else those of its
six actions, the identity byte first; the fifth ends the settling delay (41_sensor_driver.md R121, R122). -/
def guardReplies (s : State) (rs : List Reply) : Prop :=
  if s.sstate = .uninit then
    ∃ r0 r1 r2 r3 r4 r5 : Reply, rs = [r0, r1, r2, r3, r4, r5] ∧ r0.ok = true ∧ r0.b0 = 0x44#8 ∧ r1.ok = true ∧
      r2.ok = true ∧ r3.ok = true ∧ r5.ok = true
  else rs = []

/-- A state some run reaches: the block after reset with anything at all about to arrive, and every next state. -/
inductive Reachable : State → Prop where
  | start (w : List Stimulus) : Reachable { State.reset with world := w }
  | next {s t : State} : Reachable s → step s = .next t → Reachable t

/-! ### The whole course of a command -/

/-- The states a command passes through from `s`, in which it has been accepted: where its first step leaves it, and where
each step after that does while it is in progress, whatever arrives between (a host access, a return, a release, nothing);
the last is the state it ends in, if it ends. A reset abandons it (70_reset_and_hazards.md R240), so its course stops
there. -/
inductive Course (i : Instr) (s : State) : State → Prop where
  | first {t : State} : exec i s = .next t → Course i s t
  | more {t u : State} : Course i s t → t.busy = true → t.world.head? ≠ some .reset → step t = .next u → Course i s u

/-! ### The action sequences of R137 -/

/-- `BusWrite([reg | 0x80, v])` (R100). -/
def busW (reg v : Byte) : Action := .busWrite Config.devAddr [wireByte reg, v]

/-- `BusWriteRead([reg | 0x80], n)` (R102, R104). -/
def busR (reg : Byte) (n : Nat) : Action := .busWriteRead Config.devAddr [wireByte reg] n

/-- `EN` (R137). -/
def enActions : List Action := [busW 0x00 0x01, .delay 3, busW 0x00 0x03]

/-- `ID CFG EN` with the shadow values held when the begin sequence runs (R137). -/
def beginActions (s : State) : List Action := [busR 0x12 1, busW 0x01 s.atime, busW 0x0F s.gain] ++ enActions

/-- The actions of a driver command from READY, `v` being the byte `DISABLE` reads (R137). -/
def bodyActions (v : Byte) : Instr → List Action
  | .enable => enActions
  | .disable => [busR 0x00 1, busW 0x00 (v &&& 0xFC)]
  | .setatime t => [busW 0x01 t]
  | .setgain g => [busW 0x0F g]
  | .readrgb => [busR 0x14 2, busR 0x16 2, busR 0x18 2, busR 0x1A 2]
  | .bwr _ _ | .brd _ | .brd2 _ | .ledpin _ _ | .ledinit _ _ | .setled _ _ | .getled _ => []

/-- The actions of a driver command (R137). -/
def driverActions (i : Instr) (s : State) (v : Byte) : List Action :=
  (if s.sstate = .uninit then beginActions s else []) ++ bodyActions v i

/-- A bus transaction or a delay (R5 ii). -/
def Action.isBus : Action → Bool
  | .busWrite _ _ | .busWriteRead _ _ _ | .delay _ => true
  | .pinOpen _ | .pinSetOutput _ | .pinWrite _ _ => false

/-- The step moves data over the bus: a transaction of `MemWrite` or `MemRead` (R100 to R104). -/
def Op.isTransaction : Op → Bool
  | .memWrite _ _ | .memWriteMasked _ _ | .memRead _ | .memReadPair _ _ => true
  | _ => false

/-! ### Assembled lines -/

/-- Under the condition `fits`, and under no other, the assembler takes the line; the word it makes is issued and decodes to
the command `i` (30_encoding.md R89, R90). -/
def Assembles (l : AsmLine) (fits : Prop) (i : Instr) : Prop :=
  (fits → ∃ w, assemble l = some (.issue w) ∧ decode w = .ok i) ∧ (¬ fits → assemble l = none)

end Sys2Proof.Machine
end

