-- ==== Sys2Proof/Certificates/Slice0/Obligations.lean ====
section
/-! DEFINITION. The statements for the provers. Each docstring names the rule of spec/ it formalises. Full next states are
written out, so that such a statement is also the instruction's frame: every field not named keeps its value. -/

open Sys2Proof Sys2Proof.Machine

/-! ### Encoding (30_encoding.md) -/

/-- R80, R82: the word of a command decodes to that command, whatever its operands, those R86 rejects included. -/
def Obligations.DecodeOfEncode : Prop :=
  ∀ i : Instr, decode (encode i) = .ok i

/-- R81, R82: a word that decodes to a command is that command's word, so no bit of it is ignored. -/
def Obligations.EncodeOfDecode : Prop :=
  ∀ (w : Word) (i : Instr), decode w = .ok i → encode i = w

/-- R81, R87: a word decodes to a command exactly when one row of the opcode table accepts it; that row is the command's,
and no other row accepts the word. -/
def Obligations.DecodeFollowsOpcodeTable : Prop :=
  ∀ w : Word,
    (∀ i, decode w = .ok i → ∃ r ∈ opcodeTable, r.mnemonic = i.mnemonic ∧ r.accepts w = true ∧
      ∀ r' ∈ opcodeTable, r'.accepts w = true → r' = r) ∧
    ((∃ r ∈ opcodeTable, r.accepts w = true) → ∃ i, decode w = .ok i)

/-- R85: reserved opcodes, the all-zero word among them, and nonzero reserved or must-be-zero fields are illegal. -/
def Obligations.ReservedEncodingsAreIllegal : Prop :=
  (∀ w : Word, fieldOpc w = 0x0 ∨ fieldOpc w = 0xD ∨ fieldOpc w = 0xE ∨ fieldOpc w = 0xF → ∃ e, decode w = .error e) ∧
  (∃ e, decode 0x00000000#32 = .error e) ∧
  (∀ w : Word, fieldZ1 w ≠ 0 ∨ fieldZ0 w ≠ 0 → ∃ e, decode w = .error e) ∧
  (∀ r ∈ opcodeTable, ∀ w : Word, fieldOpc w = fieldOpc r.value → w &&& r.mask ≠ r.value → ∃ e, decode w = .error e)

/-- R80 to R88, vectors E1 to E28 of 95_test_vectors.md: some words and what they decode to. -/
def Obligations.SampleWordsDecode : Prop :=
  decode 0x1000F300#32 = .ok (.bwr 0x00 0xF3) ∧ decode 0x20120000#32 = .ok (.brd 0x12) ∧
  decode 0x30140000#32 = .ok (.brd2 0x14) ∧ decode 0x40000000#32 = .ok .enable ∧
  decode 0x50000000#32 = .ok .disable ∧ decode 0x6000D500#32 = .ok (.setatime 0xD5) ∧
  decode 0x70000300#32 = .ok (.setgain 0x03) ∧ decode 0x80000000#32 = .ok .readrgb ∧
  decode 0x90020700#32 = .ok (.ledpin 2 7) ∧ decode 0xA0030100#32 = .ok (.ledinit 3 true) ∧
  decode 0xB0000100#32 = .ok (.setled 0 true) ∧ decode 0xC0000000#32 = .ok (.getled 0) ∧
  decode 0x20120100#32 = .error .mustBeZero ∧ decode 0xA0040200#32 = .error .mustBeZero ∧
  decode 0x41000000#32 = .error .reservedField ∧ decode 0xD0000000#32 = .error .reservedOpcode

/-- R89, R90: line by line, the operands the assembler takes (every one fits its 8-bit field, every flag is 0 or 1; any other
line is rejected) and the command that the line's word decodes to, in the operand order of R89; LEDON, LEDOFF and RAWW are
SETLED and BWR in another spelling; a register name stands for its address (R52). POST is its word, rejected from 2^32 on:
that bound is the model's choice (log 15). -/
def Obligations.AssembledLinesDecode : Prop :=
  (∀ (reg : RegOperand) (v n m : Nat),
    Assembles (.bwr reg v) (reg.value < 256 ∧ v < 256) (.bwr (BitVec.ofNat 8 reg.value) (BitVec.ofNat 8 v)) ∧
    Assembles (.raww v reg) (reg.value < 256 ∧ v < 256) (.bwr (BitVec.ofNat 8 reg.value) (BitVec.ofNat 8 v)) ∧
    Assembles (.brd reg) (reg.value < 256) (.brd (BitVec.ofNat 8 reg.value)) ∧
    Assembles (.brd2 reg) (reg.value < 256) (.brd2 (BitVec.ofNat 8 reg.value)) ∧
    Assembles .enable True .enable ∧ Assembles .disable True .disable ∧ Assembles .readrgb True .readrgb ∧
    Assembles (.setatime n) (n < 256) (.setatime (BitVec.ofNat 8 n)) ∧
    Assembles (.setgain n) (n < 256) (.setgain (BitVec.ofNat 8 n)) ∧
    Assembles (.ledpin n m) (n < 256 ∧ m < 256) (.ledpin (BitVec.ofNat 8 n) (BitVec.ofNat 8 m)) ∧
    Assembles (.ledinit n m) (n < 256 ∧ m < 2) (.ledinit (BitVec.ofNat 8 n) (decide (m = 1))) ∧
    Assembles (.setled n m) (n < 256 ∧ m < 2) (.setled (BitVec.ofNat 8 n) (decide (m = 1))) ∧
    Assembles (.getled n) (n < 256) (.getled (BitVec.ofNat 8 n)) ∧
    Assembles (.ledon n) (n < 256) (.setled (BitVec.ofNat 8 n) true) ∧
    Assembles (.ledoff n) (n < 256) (.setled (BitVec.ofNat 8 n) false) ∧
    assemble (.post n) = if n < 2 ^ 32 then some (.post (BitVec.ofNat 32 n)) else none) ∧
  (∀ n, (RegOperand.num n).value = n) ∧
  (RegOperand.name .enable).value = 0x00 ∧ (RegOperand.name .atime).value = 0x01 ∧
  (RegOperand.name .control).value = 0x0F ∧ (RegOperand.name .id).value = 0x12 ∧
  (RegOperand.name .cdatal).value = 0x14 ∧ (RegOperand.name .rdatal).value = 0x16 ∧
  (RegOperand.name .gdatal).value = 0x18 ∧ (RegOperand.name .bdatal).value = 0x1A

/-! ### Reset and the host port (10_state.md, 20_memory.md, 70_reset_and_hazards.md) -/

/-- R36: the value of every field of the block in the reset state, and after the reset input in any state. -/
def Obligations.ResetValues : Prop :=
  ∀ t : State, (t = State.reset ∨ ∃ (s : State) (w : List Stimulus), s.world = .reset :: w ∧ step s = .next t) →
    t.busy = false ∧ t.err = .ok ∧ t.result = 0x00000000#32 ∧ t.lastcmd = 0x00000000#32 ∧ t.cv = false ∧ t.ovr = false ∧
    t.sstate = .uninit ∧ t.enabled = false ∧ t.atime = 0x00#8 ∧ t.gain = 0x02#8 ∧
    t.lbinit = false ∧ t.inverted = false ∧ t.ledcount = 0 ∧
    (∀ i, t.led i = false) ∧ (∀ i, t.pinOf i = 0x00#8) ∧ t.micro = []

/-- R240, R241: the reset input sets every field of the block to its reset value and abandons the command in progress, from
every state; it issues nothing, leaves what the outside world does next as it was, and frees the block's claims only under
PIN_RELEASE_ON_RESET. That no level is known afterwards, and that a kept claim keeps its direction, is the model's
choice (log 9). -/
def Obligations.ResetInputRestartsBlock : Prop :=
  ∀ (s : State) (w : List Stimulus), s.world = .reset :: w →
    ∃ ps, step s = .next { State.reset with
        world := w, pins := ps, actions := s.actions, hostData := s.hostData, draws := s.draws } ∧
      (s.pins.wf = true → ∀ p, ps.get p =
        if Config.pinReleaseOnReset then { claimed := false, output := false, level := none }
        else { claimed := (s.pins.get p).claimed, output := (s.pins.get p).output, level := none })

/-- R21, R81: when an idle block is written a word that decodes to a command, the step accepts it (`lastcmd`, `busy`) and is
that command's effect. -/
def Obligations.StepRunsDecodedCommand : Prop :=
  ∀ (s : State) (v : Word) (i : Instr) (w : List Stimulus),
    s.busy = false → s.world = .access (.write 0x00 4 v) :: w → decode v = .ok i →
    step s = exec i { s with world := w, lastcmd := v, busy := true }

/-- R81, R216: an idle block that is written an illegal word ends it at once with ILLEGAL_COMMAND; no action is issued and
no field but `err`, `cv`, `busy` and `lastcmd` is written. -/
def Obligations.IllegalWordEndsAtOnce : Prop :=
  ∀ (s : State) (v : Word) (e : Illegal) (w : List Stimulus),
    s.busy = false → s.micro = [] → s.locals = {} → s.world = .access (.write 0x00 4 v) :: w → decode v = .error e →
    step s = .next { s with world := w, lastcmd := v, err := .illegalCommand, cv := true, busy := false }

/-- R21, R30: a word written while the block is busy is dropped: OVR and CV are set and nothing else changes. -/
def Obligations.BusyWordIsDropped : Prop :=
  ∀ (s : State) (v : Word) (w : List Stimulus),
    s.busy = true → s.world = .access (.write 0x00 4 v) :: w →
    step s = .next { s with world := w, ovr := true, cv := true }

/-- R25: a host write to STATUS, RESULT or CONFIG has no effect, busy or not. -/
def Obligations.ReadOnlyRegistersIgnoreWrites : Prop :=
  ∀ (s : State) (off : Int) (v : Word) (w : List Stimulus),
    off = 0x04 ∨ off = 0x08 ∨ off = 0x0C → s.world = .access (.write off 4 v) :: w →
    step s = .next { s with world := w }

/-- R21, R22, R23, R24: what the four registers read while the block is idle; the read changes nothing in the block (R63). -/
def Obligations.IdleReadsReturnRegisters : Prop :=
  ∀ (s : State) (off : Int) (d : Word) (w : List Stimulus),
    s.busy = false → s.world = .access (.read off 4) :: w →
    (off = 0x00 ∧ d = s.lastcmd) ∨ (off = 0x04 ∧ d = s.statusWord) ∨ (off = 0x08 ∧ d = s.result) ∨
      (off = 0x0C ∧ d = 0#16 ++ (s.gain ++ s.atime)) →
    step s = .next { s with world := w, hostData := some d }

/-- R22: where each field of STATUS stands and that the reserved bits read 0; R211: the number of each error code in ERR;
R28: the number of each driver state in SSTATE. -/
def Obligations.StatusFields : Prop :=
  ∀ s : State,
    s.statusWord.extractLsb' 0 1 = BitVec.ofBool s.busy ∧ s.statusWord.extractLsb' 1 3 = 0 ∧
    (s.statusWord.extractLsb' 4 4).toNat = (match s.err with
      | .ok => 0 | .busError => 1 | .identityMismatch => 2 | .pinUnavailable => 3
      | .indexOutOfRange => 4 | .illegalCommand => 5 | .badOperand => 6 | .badState => 7) ∧
    (s.statusWord.extractLsb' 8 2).toNat = (match s.sstate with | .uninit => 0 | .verifying => 1 | .ready => 2) ∧
    s.statusWord.extractLsb' 10 1 = BitVec.ofBool s.enabled ∧ s.statusWord.extractLsb' 11 1 = BitVec.ofBool s.lbinit ∧
    s.statusWord.extractLsb' 12 1 = BitVec.ofBool s.inverted ∧ s.statusWord.extractLsb' 13 1 = BitVec.ofBool s.cv ∧
    s.statusWord.extractLsb' 14 1 = BitVec.ofBool s.ovr ∧ s.statusWord.extractLsb' 15 1 = 0 ∧
    s.statusWord.extractLsb' 16 8 = s.ledcount ∧ s.statusWord.extractLsb' 24 8 = 0

/-- R26: while busy, a read of STATUS returns BUSY = 1 (and, by R22, zero reserved bits), a read of CMD returns the accepted
word, and no read changes the block; what else they return is open. -/
def Obligations.BusyReadsDefineBusyAndCmd : Prop :=
  ∀ (s : State) (r : HostReg) (off : Int) (w : List Stimulus),
    s.busy = true → HostReg.atOffset off = some r → s.world = .access (.read off 4) :: w →
    ∃ (d : Word) (n : Nat), step s = .next { s with world := w, hostData := some d, draws := n } ∧
      (r = .cmd → d = s.lastcmd) ∧
      (r = .status → d.getLsbD 0 = true ∧ d &&& 0xFF00800E#32 = 0)

/-- R57: a host access that is not a 32-bit access to one of the four offsets has no step; every other one has. -/
def Obligations.UndefinedHostAccessHasNoStep : Prop :=
  ∀ (s : State) (a : HostAccess) (off : Int) (n : Nat) (v : Word) (w : List Stimulus),
    s.world = .access a :: w → a = .read off n ∨ a = .write off n v →
    ((n ≠ 4 ∨ (off ≠ 0 ∧ off ≠ 4 ∧ off ≠ 8 ∧ off ≠ 12)) → step s = .refused (.hostAccess a)) ∧
    (n = 4 ∧ (off = 0 ∨ off = 4 ∨ off = 8 ∨ off = 12) → ∃ t, step s = .next t)

/-- R30: CV and OVR are cleared by a reset and by nothing else; a dropped word sets both; OVR is set by nothing else; CV is
set by every contract-violation ending and by nothing else but these two. -/
def Obligations.StickyBits : Prop :=
  ∀ (s t : State), step s = .next t →
    (s.world.head? = some .reset → t.cv = false ∧ t.ovr = false) ∧
    (s.busy = true ∧ (∃ v, s.world.head? = some (.access (.write 0x00 4 v))) → t.cv = true ∧ t.ovr = true) ∧
    (s.world.head? ≠ some .reset →
      (s.cv = true → t.cv = true) ∧ (s.ovr = true → t.ovr = true) ∧
      (s.ovr = false → t.ovr = true → s.busy = true ∧ ∃ v, s.world.head? = some (.access (.write 0x00 4 v))) ∧
      (s.cv = false → t.cv = true → (s.busy = true ∧ ∃ v, s.world.head? = some (.access (.write 0x00 4 v))) ∨
        (t.busy = false ∧ t.err.isContract = true)) ∧
      ((s.busy = true ∨ ∃ v, s.world.head? = some (.access (.write 0x00 4 v))) → t.busy = false →
        t.err.isContract = true → t.cv = true))

/-- R69, R221, R63, R259, while a command is in progress. (1) A host access changes nothing of it: only the host's read data,
the sticky bits and the count of free values may change. (2) A command whose operation waits while a host access comes
between, and then returns, ends as the same command does whose operation returned at once: the return goes on where the
command stood, issues nothing again and raises what it would have raised. (3) With no stimulus left, an idle block stays as
it is, an outstanding operation gets what `Config.freeReply` says, nothing included, so that it may never return (log 2),
and the block's own work ends as at a return (log 4). -/
def Obligations.HostAccessLeavesRunningCommand : Prop :=
  (∀ (s t : State) (a : HostAccess) (w : List Stimulus),
    s.busy = true → s.world = .access a :: w → step s = .next t →
    t = { s with world := w, hostData := t.hostData, draws := t.draws, ovr := t.ovr, cv := t.cv }) ∧
  (∀ (i : Instr) (s t t' u : State) (rs : List Reply) (a : HostAccess) (r : Reply) (w : List Stimulus),
    s.busy = true → exec i { s with world := rets rs ++ .access a :: .ret r :: w } = .next t → t.busy = true →
    step t = .next t' → step t' = .next u →
    ∃ v, exec i { s with world := rets rs ++ .ret r :: w, draws := t'.draws } = .next v ∧
      u = { v with hostData := t'.hostData, ovr := t'.ovr, cv := t'.cv }) ∧
  ∀ s : State, s.world = [] →
    (s.micro = [] → step s = .next s) ∧
    (∀ op rest, s.micro = op :: rest → op ≠ .work →
      (Config.freeReply s.draws = none → step s = .next { s with draws := s.draws + 1 }) ∧
      ∀ r, Config.freeReply s.draws = some r → step s = step { s with world := [.ret r], draws := s.draws + 1 }) ∧
    ∀ rest r, s.micro = .work :: rest → step s = step { s with world := [.ret r] }

/-- R21, R69: dropping a word and then letting the outstanding operation return ends in the state that the return alone
ends in, with OVR and CV set. -/
def Obligations.DroppedWordDoesNotDisturb : Prop :=
  ∀ (s t u u' : State) (v : Word) (r : Reply) (w : List Stimulus),
    s.busy = true → s.world = .access (.write 0x00 4 v) :: .ret r :: w →
    step s = .next t → step t = .next u → step { s with world := .ret r :: w } = .next u' →
    u = { u' with ovr := true, cv := true }

/-! ### Raw bus commands (40_colorbus.md) -/

/-- R106, R100, R101: BWR is one write transaction; it ends OK, or BUS_ERROR when the transaction fails. -/
def Obligations.BwrIsOneWrite : Prop :=
  ∀ (reg value : Byte) (s : State) (r : Reply) (w : List Stimulus),
    s.world = rets [r] ++ w → (r.ok = true → calm w) →
    exec (.bwr reg value) s = .next { s with
      world := w, actions := s.actions ++ [.busWrite 0x29 [reg ||| 0x80, value]]
      err := if r.ok then .ok else .busError
      busy := false, micro := [], locals := {} }

/-- R103, R102, R101: BRD is one combined transaction; on success RESULT is the byte, on failure RESULT is unchanged. -/
def Obligations.BrdReadsOneByte : Prop :=
  ∀ (reg : Byte) (s : State) (r : Reply) (w : List Stimulus),
    s.world = rets [r] ++ w → (r.ok = true → calm w) →
    exec (.brd reg) s = .next { s with
      world := w, actions := s.actions ++ [.busWriteRead 0x29 [reg ||| 0x80] 1]
      result := if r.ok then BitVec.ofNat 32 r.b0.toNat else s.result
      err := if r.ok then .ok else .busError
      busy := false, micro := [], locals := {} }

/-- R105, R104, R56, R101: BRD2 is one combined transaction of two bytes, the first received being the low byte. -/
def Obligations.Brd2ReadsLittleEndianPair : Prop :=
  ∀ (regLow : Byte) (s : State) (r : Reply) (w : List Stimulus),
    s.world = rets [r] ++ w → (r.ok = true → calm w) →
    exec (.brd2 regLow) s = .next { s with
      world := w, actions := s.actions ++ [.busWriteRead 0x29 [regLow ||| 0x80] 2]
      result := if r.ok then BitVec.ofNat 32 (r.b1.toNat * 256 + r.b0.toNat) else s.result
      err := if r.ok then .ok else .busError
      busy := false, micro := [], locals := {} }

/-- R107: the raw commands leave the driver state and the LED bank fields unchanged and do not depend on them, and none
starts the begin sequence: each issues at most its one transaction. BWR leaves RESULT too (R106). Both hold through the
command's whole course, whatever the outside world does: what is written and issued, of every state of it; that nothing is
read, of its first step from every state and of every later step while it is in progress, a return among them: with other
driver and bank fields the step does the same. -/
def Obligations.RawCommandsTouchNoDriverState : Prop :=
  ∀ (s : State) (i : Instr) (a : Action),
    (∃ reg v, i = .bwr reg v ∧ a = busW reg v) ∨ (∃ reg, i = .brd reg ∧ a = busR reg 1) ∨
      (∃ reg, i = .brd2 reg ∧ a = busR reg 2) →
    (∀ t, Course i s t →
      t.sstate = s.sstate ∧ t.enabled = s.enabled ∧ t.atime = s.atime ∧ t.gain = s.gain ∧
      t.lbinit = s.lbinit ∧ t.inverted = s.inverted ∧ t.ledcount = s.ledcount ∧ t.ledStates = s.ledStates ∧
      t.pinmap = s.pinmap ∧ t.lastcmd = s.lastcmd ∧ (t.actions = s.actions ∨ t.actions = s.actions ++ [a]) ∧
      ((∃ reg v, i = .bwr reg v) → t.result = s.result)) ∧
    (∀ t, exec i s = .next t →
      t.pins = s.pins ∧ t.cv = s.cv ∧ t.ovr = s.ovr ∧
      ∀ x e c g b v n ls pm,
        exec i { s with sstate := x, enabled := e, atime := c, gain := g, lbinit := b, inverted := v, ledcount := n,
                        ledStates := ls, pinmap := pm } =
          .next { t with sstate := x, enabled := e, atime := c, gain := g, lbinit := b, inverted := v, ledcount := n,
                         ledStates := ls, pinmap := pm }) ∧
    ∀ t u, Course i s t → t.busy = true → t.world.head? ≠ some .reset → step t = .next u →
      ∀ x e c g b v n ls pm,
        step { t with sstate := x, enabled := e, atime := c, gain := g, lbinit := b, inverted := v, ledcount := n,
                      ledStates := ls, pinmap := pm } =
          .next { u with sstate := x, enabled := e, atime := c, gain := g, lbinit := b, inverted := v, ledcount := n,
                         ledStates := ls, pinmap := pm }

/-- R108: swapping two different bytes of a pair changes the value, by (y - x) * 255 as a signed quantity. -/
def Obligations.PairSwapLaw : Prop :=
  ∀ x y : Byte,
    ((pairValue x y).toNat : Int) - (pairValue y x).toNat = ((y.toNat : Int) - x.toNat) * 255 ∧
    (x ≠ y → pairValue x y ≠ pairValue y x)

/-! ### The sensor driver (41_sensor_driver.md) -/

/-- R121, R122, R124, R126: from UNINIT, when every transaction of the begin sequence succeeds and the identity is 0x44, a
driver command issues ID CFG EN with the shadow values it found, moves to READY and enabled, and then does what it does
from READY. -/
def Obligations.GuardRunsBeginThenBody : Prop :=
  ∀ (i : Instr) (s : State) (r0 r1 r2 r3 r4 r5 : Reply) (w : List Stimulus),
    i.isDriver = true → i.legal = true → s.sstate = .uninit →
    s.world = rets [r0, r1, r2, r3, r4, r5] ++ w →
    r0.ok = true → r0.b0 = 0x44#8 → r1.ok = true → r2.ok = true → r3.ok = true → r5.ok = true → calm w →
    exec i s = exec i { s with
      world := w
      actions := s.actions ++
        [.busWriteRead 0x29 [0x92] 1, .busWrite 0x29 [0x81, s.atime], .busWrite 0x29 [0x8F, s.gain],
         .busWrite 0x29 [0x80, 0x01], .delay 3, .busWrite 0x29 [0x80, 0x03]]
      sstate := .ready, enabled := true, locals := { s.locals with byte := 0x44#8 } }

/-- R122, R124, R101: from UNINIT, a failed identity read ends the driver command with BUS_ERROR, and any byte but 0x44 ends
it with IDENTITY_MISMATCH; either way the read is the only action and the driver state stays as it was. -/
def Obligations.IdentityFailureEndsCommand : Prop :=
  ∀ (i : Instr) (s : State) (r : Reply) (w : List Stimulus),
    i.isDriver = true → i.legal = true → s.sstate = .uninit → s.world = rets [r] ++ w →
    (r.ok = false → exec i s = .next { s with
      world := w, actions := s.actions ++ [.busWriteRead 0x29 [0x92] 1], err := .busError
      busy := false, micro := [], locals := {} }) ∧
    (r.ok = true → r.b0 ≠ 0x44#8 → calm w → exec i s = .next { s with
      world := w, actions := s.actions ++ [.busWriteRead 0x29 [0x92] 1], err := .identityMismatch
      busy := false, micro := [], locals := {} })

/-- R123, R137: when a later transaction of the begin sequence fails (the ATIME, CONTROL or one of the two ENABLE writes,
positions 1, 2, 3 and 5 of the sequence), the command ends with BUS_ERROR after that transaction, with the driver state
back at UNINIT and not enabled. -/
def Obligations.FailedBeginRevertsToUninit : Prop :=
  ∀ (i : Instr) (s : State) (k : Nat) (r0 r : Reply) (rs : List Reply) (w : List Stimulus),
    i.isDriver = true → i.legal = true → s.sstate = .uninit →
    k = 1 ∨ k = 2 ∨ k = 3 ∨ k = 5 → rs.length + 1 = k →
    s.world = rets (r0 :: (rs ++ [r])) ++ w →
    r0.ok = true → r0.b0 = 0x44#8 → (∀ q ∈ rs, q.ok = true) → r.ok = false →
    exec i s = .next { s with
      world := w, actions := s.actions ++ (beginActions s).take (k + 1)
      err := .busError, sstate := .uninit, enabled := false, busy := false, micro := [], locals := {} }

/-- R125, R126: ENABLE with the begin sequence already done: two whole-byte writes with the settling delay between them; a
failed write ends it there with BUS_ERROR and `enabled` unchanged. -/
def Obligations.EnableFromReady : Prop :=
  ∀ (s : State) (r1 r2 r3 : Reply) (w : List Stimulus),
    s.sstate ≠ .uninit → s.world = rets [r1, r2, r3] ++ w →
    (r1.ok = true → r3.ok = true → calm w → exec .enable s = .next { s with
      world := w
      actions := s.actions ++ [.busWrite 0x29 [0x80, 0x01], .delay 3, .busWrite 0x29 [0x80, 0x03]]
      enabled := true, err := .ok, busy := false, micro := [], locals := {} }) ∧
    (r1.ok = false → exec .enable s = .next { s with
      world := rets [r2, r3] ++ w, actions := s.actions ++ [.busWrite 0x29 [0x80, 0x01]]
      err := .busError, busy := false, micro := [], locals := {} }) ∧
    (r1.ok = true → r3.ok = false → exec .enable s = .next { s with
      world := w
      actions := s.actions ++ [.busWrite 0x29 [0x80, 0x01], .delay 3, .busWrite 0x29 [0x80, 0x03]]
      err := .busError, busy := false, micro := [], locals := {} })

/-- R127: DISABLE with the begin sequence already done: ENABLE is read and written back with bits 1 and 0 cleared and bits
[7:2] kept; a failed read writes nothing, and after any failure `enabled` is unchanged. -/
def Obligations.DisableFromReady : Prop :=
  ∀ (s : State) (r1 r2 : Reply) (w : List Stimulus),
    s.sstate ≠ .uninit → s.world = rets [r1, r2] ++ w →
    (r1.ok = true → r2.ok = true → calm w → exec .disable s = .next { s with
      world := w
      actions := s.actions ++ [.busWriteRead 0x29 [0x80] 1, .busWrite 0x29 [0x80, r1.b0 &&& 0xFC]]
      enabled := false, err := .ok, busy := false, micro := [], locals := {} }) ∧
    (r1.ok = false → exec .disable s = .next { s with
      world := rets [r2] ++ w, actions := s.actions ++ [.busWriteRead 0x29 [0x80] 1]
      err := .busError, busy := false, micro := [], locals := {} }) ∧
    (r1.ok = true → r2.ok = false → exec .disable s = .next { s with
      world := w
      actions := s.actions ++ [.busWriteRead 0x29 [0x80] 1, .busWrite 0x29 [0x80, r1.b0 &&& 0xFC]]
      err := .busError, busy := false, micro := [], locals := {} })

/-- R128, R257: SETATIME with the begin sequence already done: the shadow takes the code before the write, and keeps it when
the write fails. -/
def Obligations.SetatimeFromReady : Prop :=
  ∀ (code : Byte) (s : State) (r : Reply) (w : List Stimulus),
    code ∈ [0xFF#8, 0xF6#8, 0xEB#8, 0xD5#8, 0xC0#8, 0x00#8] → s.sstate ≠ .uninit →
    s.world = rets [r] ++ w → (r.ok = true → calm w) →
    exec (.setatime code) s = .next { s with
      world := w, actions := s.actions ++ [.busWrite 0x29 [0x81, code]], atime := code
      err := if r.ok then .ok else .busError
      busy := false, micro := [], locals := {} }

/-- R130, R257: SETGAIN with the begin sequence already done. -/
def Obligations.SetgainFromReady : Prop :=
  ∀ (code : Byte) (s : State) (r : Reply) (w : List Stimulus),
    code ∈ [0x00#8, 0x01#8, 0x02#8, 0x03#8] → s.sstate ≠ .uninit →
    s.world = rets [r] ++ w → (r.ok = true → calm w) →
    exec (.setgain code) s = .next { s with
      world := w, actions := s.actions ++ [.busWrite 0x29 [0x8F, code]], gain := code
      err := if r.ok then .ok else .busError
      busy := false, micro := [], locals := {} }

/-- R132, R134, R165: READRGB with the begin sequence already done: four pair reads, clear first, then RESULT is the three
quantized colours, each against the clear count of the same command. -/
def Obligations.ReadrgbFromReady : Prop :=
  ∀ (s : State) (rc rr rg rb : Reply) (w : List Stimulus),
    s.sstate ≠ .uninit → s.world = rets [rc, rr, rg, rb] ++ w →
    rc.ok = true → rr.ok = true → rg.ok = true → rb.ok = true → calm w →
    exec .readrgb s = .next { s with
      world := w
      actions := s.actions ++ [.busWriteRead 0x29 [0x94] 2, .busWriteRead 0x29 [0x96] 2,
        .busWriteRead 0x29 [0x98] 2, .busWriteRead 0x29 [0x9A] 2]
      result := 0#8 ++ (quantize (pairValue rr.b0 rr.b1) (pairValue rc.b0 rc.b1) ++
        (quantize (pairValue rg.b0 rg.b1) (pairValue rc.b0 rc.b1) ++
          quantize (pairValue rb.b0 rb.b1) (pairValue rc.b0 rc.b1)))
      err := .ok, busy := false, micro := [], locals := {} }

/-- R134, R135: when the k-th pair read of READRGB fails, the command ends there with BUS_ERROR and RESULT unchanged. -/
def Obligations.ReadrgbStopsAtFailedRead : Prop :=
  ∀ (s : State) (rs : List Reply) (r : Reply) (w : List Stimulus),
    s.sstate ≠ .uninit → rs.length < 4 → s.world = rets (rs ++ [r]) ++ w →
    (∀ q ∈ rs, q.ok = true) → r.ok = false →
    exec .readrgb s = .next { s with
      world := w, actions := s.actions ++ (bodyActions 0 .readrgb).take (rs.length + 1)
      err := .busError, busy := false, micro := [], locals := {} }

/-- R164: a clear count of 0 gives 0 whatever the colour count is, and a READRGB that reads it ends OK with RESULT 0, with
the begin sequence before it or without. -/
def Obligations.ZeroClearCountGivesZero : Prop :=
  (∀ raw : Half, quantize raw 0 = 0) ∧
  ∀ (s : State) (rs : List Reply) (rc rr rg rb : Reply) (w : List Stimulus),
    guardReplies s rs → s.world = rets (rs ++ [rc, rr, rg, rb]) ++ w →
    rc = ⟨true, 0, 0⟩ → rr.ok = true → rg.ok = true → rb.ok = true → calm w →
    ∃ t, exec .readrgb s = .next t ∧ t.err = .ok ∧ t.busy = false ∧ t.result = 0x00000000#32

/-- §8's disable-then-read-back (95_test_vectors.md S3), on the reference target of R55 with any registers, which answers the
actions the two commands really issue, in their order: in READY, DISABLE and then BRD of ENABLE give a RESULT with bits 1
and 0 clear and bits [7:2] those the target held before. -/
def Obligations.DisableThenReadBack : Prop :=
  ∀ (s t u : State) (target : RefTarget) (acts : List Action) (w : List Stimulus),
    s.sstate = .ready → calm w → exec .disable s = .next t → exec (.brd 0x00) t = .next u →
    u.actions = s.actions ++ acts → s.world = rets (target.answers acts) ++ w →
    t.enabled = false ∧ u.err = .ok ∧ u.world = w ∧ u.result.extractLsb' 0 2 = 0 ∧
    u.result.extractLsb' 2 6 = (target.reg 0x80).extractLsb' 2 6 ∧ u.result.extractLsb' 8 24 = 0

/-- R86, R210, R216: an operand outside the lists, or an LED count above NLED_MAX, ends the command with BAD_OPERAND and no
other effect, in every state. That it ends in the very step that accepts it, whatever the outside world does, a `linger`
first included, is the model's choice (log 4, DEDUCED). -/
def Obligations.BadOperandEndsAtOnce : Prop :=
  ∀ (i : Instr) (s : State),
    (∃ c, i = .setatime c ∧ c ∉ [0xFF#8, 0xF6#8, 0xEB#8, 0xD5#8, 0xC0#8, 0x00#8]) ∨
      (∃ c, i = .setgain c ∧ c ∉ [0x00#8, 0x01#8, 0x02#8, 0x03#8]) ∨
      (∃ n v, i = .ledinit n v ∧ 3 < n.toNat) →
    exec i s = .next { s with err := .badOperand, cv := true, busy := false, micro := [], locals := {} }

/-- R137: through the whole course of a driver command, whatever the outside world does, its actions are a beginning of its
sequence in the table, and all of it when it ends OK. -/
def Obligations.DriverActionsFollowTable : Prop :=
  ∀ (i : Instr) (s t : State), i.isDriver = true → i.legal = true → s.busy = true → Course i s t →
    ∃ (v : Byte) (n : Nat), t.actions = s.actions ++ (driverActions i s v).take n ∧
      (t.busy = false → t.err = .ok → t.actions = s.actions ++ driverActions i s v)

/-- R126, R250: among the actions a driver command issues through its whole course, every write of 0x03 to ENABLE comes right
after a settling delay of at least 3 ms, which comes right after a write of 0x01 to ENABLE. -/
def Obligations.SettlingDelayBeforeAdcEnable : Prop :=
  ∀ (i : Instr) (s t : State) (as : List Action) (k : Nat), i.isDriver = true → Course i s t →
    t.actions = s.actions ++ as → as[k]? = some (.busWrite 0x29 [0x80, 0x03]) →
    ∃ j, k = j + 2 ∧ as[j]? = some (.busWrite 0x29 [0x80, 0x01]) ∧ as[j + 1]? = some (.delay 3)

/-- R136: whenever, through its whole course, a driver command has a bus transaction outstanding, other than the identity
read of the begin sequence, the driver state is VERIFYING or READY. -/
def Obligations.TransactionsOutsideUninit : Prop :=
  ∀ (i : Instr) (s t : State) (op : Op) (rest : List Op), i.isDriver = true → Course i s t →
    t.micro = op :: rest → op.isTransaction = true → op ≠ .memRead 0x12 → t.sstate ≠ .uninit

/-- R166, R21 (the model's stimulus `linger`, log 4): the time the block takes for its own work, at whatever point of
whatever command it falls, only delays it: the block is busy and nothing else arrives at the command until a return ends
the work, and then the command does what it would have done at once. In particular a READRGB that lingers after its fourth
pair read is busy, with all its reads issued and RESULT not yet written. -/
def Obligations.LingeringOnlyDelays : Prop :=
  (∀ (i : Instr) (s t : State) (rs : List Reply) (r : Reply) (w : List Stimulus),
    s.busy = true → exec i { s with world := rets rs ++ .linger :: .ret r :: w } = .next t → t.busy = true →
    t.world = .ret r :: w ∧ ∃ u, step t = .next u ∧ exec i { s with world := rets rs ++ w } = .next u) ∧
  ∀ (s : State) (rc rr rg rb : Reply) (w : List Stimulus),
    s.busy = true → s.sstate ≠ .uninit → s.world = rets [rc, rr, rg, rb] ++ .linger :: w →
    rc.ok = true → rr.ok = true → rg.ok = true → rb.ok = true →
    ∃ t, exec .readrgb s = .next t ∧ t.busy = true ∧ t.world = w ∧ t.result = s.result ∧
      t.actions = s.actions ++ [.busWriteRead 0x29 [0x94] 2, .busWriteRead 0x29 [0x96] 2,
        .busWriteRead 0x29 [0x98] 2, .busWriteRead 0x29 [0x9A] 2]

/-- R28, R256: no step but a reset takes the driver state from READY to any other, from any state that meets the driver
invariant. -/
def Obligations.ReadyIsLeftOnlyByReset : Prop :=
  ∀ s t : State, DriverInv s → s.sstate = .ready → s.world.head? ≠ some .reset → step s = .next t → t.sstate = .ready

/-! ### The quantizer (42_quantizer.md) -/

/-- R160: the quantizer's function, on all inputs. -/
def Obligations.QuantizerFunction : Prop :=
  ∀ raw clear : Half, (quantize raw clear).toNat =
    if clear.toNat = 0 then 0 else min 255 (raw.toNat * 255 / clear.toNat)

/-- R163: the laws of the quantizer for a clear count above 0. -/
def Obligations.QuantizerLaws : Prop :=
  ∀ raw clear : Half, 0 < clear.toNat →
    ((quantize raw clear).toNat = 255 ↔ clear.toNat ≤ raw.toNat) ∧
    (raw.toNat < clear.toNat →
      (quantize raw clear).toNat = 255 * raw.toNat / clear.toNat ∧ (quantize raw clear).toNat ≤ 254) ∧
    quantize 0 clear = 0 ∧
    (∀ raw' : Half, raw.toNat ≤ raw'.toNat → (quantize raw clear).toNat ≤ (quantize raw' clear).toNat) ∧
    (∀ clear' : Half, clear.toNat ≤ clear'.toNat → (quantize raw clear').toNat ≤ (quantize raw clear).toNat) ∧
    quantize 50 100 = 127

/-! ### The LED driver (43_led_driver.md) -/

/-- R186: LEDPIN records a pin before the bank is initialized, and touches nothing else. -/
def Obligations.LedpinRecordsPin : Prop :=
  ∀ (index pin : Byte) (s : State), index.toNat < 3 → s.lbinit = false → calm s.world →
    ∃ pm, exec (.ledpin index pin) s = .next { s with
        pinmap := pm, err := .ok, busy := false, micro := [], locals := {} } ∧
      (∀ i, i < 3 → ((pm[i]?).getD 0 : Byte) = if i = index.toNat then pin else s.pinOf i)

/-- R186, R187, R189, R191, R213: the error endings of the LED commands that depend on nothing outside the block: an index
out of range, checked first, and a bank already initialized. Nothing but `err`, `cv` and `busy` is written. That these
commands end in the very step that accepts them, whatever the outside world does, is the model's choice (log 4,
DEDUCED). -/
def Obligations.LedCommandErrors : Prop :=
  ∀ (i : Instr) (index pin count : Byte) (v : Bool) (s : State),
    (i = .ledpin index pin ∧ 3 ≤ index.toNat ∨
      i = .setled index v ∧ s.ledcount.toNat ≤ index.toNat ∨ i = .getled index ∧ s.ledcount.toNat ≤ index.toNat →
      exec i s = .next { s with err := .indexOutOfRange, cv := true, busy := false, micro := [], locals := {} }) ∧
    (s.lbinit = true → i = .ledpin index pin ∧ index.toNat < 3 ∨ i = .ledinit count v ∧ count.toNat ≤ 3 →
      exec i s = .next { s with err := .badState, cv := true, busy := false, micro := [], locals := {} })

/-- R187, R194: LEDINIT with every claim granted: each pin in index order is opened, set to output and driven to the level
`inverted`, and the success writes are made; no other pin is touched. -/
def Obligations.LedinitBringsBankUp : Prop :=
  ∀ (count : Byte) (inverted : Bool) (s : State) (rs : List Reply) (w : List Stimulus),
    count.toNat ≤ 3 → s.lbinit = false → rs.length = 3 * count.toNat →
    (∀ j, j < count.toNat → ∃ r, rs[3 * j]? = some r ∧ r.ok = true) → s.world = rets rs ++ w → calm w →
    ∃ ps, exec (.ledinit count inverted) s = .next { s with
        world := w
        actions := s.actions ++ (s.bankPins count.toNat).flatMap fun p =>
          [.pinOpen p, .pinSetOutput p, .pinWrite p inverted]
        pins := ps, inverted := inverted, ledcount := count, ledStates := Vector.replicate 3 false, lbinit := true
        err := .ok, busy := false, micro := [], locals := {} } ∧
      (s.pins.wf = true → ∀ p : Byte, ps.get p.toNat =
        if p ∈ s.bankPins count.toNat then { claimed := true, output := true, level := some inverted }
        else s.pins.get p.toNat)

/-- R187, R188: when the claim of pin k is refused, LEDINIT ends there with PIN_UNAVAILABLE; the bank's fields are unchanged
and the pins before k keep their claims, directions and levels. -/
def Obligations.RefusedClaimLeavesNoBank : Prop :=
  ∀ (count : Byte) (inverted : Bool) (s : State) (k : Nat) (q : Byte) (rs : List Reply) (r : Reply)
    (w : List Stimulus),
    count.toNat ≤ 3 → s.lbinit = false → k < count.toNat → (s.bankPins count.toNat)[k]? = some q →
    rs.length = 3 * k → (∀ j, j < k → ∃ r', rs[3 * j]? = some r' ∧ r'.ok = true) → r.ok = false →
    s.world = rets (rs ++ [r]) ++ w →
    ∃ ps, exec (.ledinit count inverted) s = .next { s with
        world := w
        actions := s.actions ++ ((s.bankPins k).flatMap fun p =>
          [.pinOpen p, .pinSetOutput p, .pinWrite p inverted]) ++ [.pinOpen q]
        pins := ps, err := .pinUnavailable, busy := false, micro := [], locals := {} } ∧
      (s.pins.wf = true → ∀ p : Byte, ps.get p.toNat =
        if p ∈ s.bankPins k then { claimed := true, output := true, level := some inverted }
        else s.pins.get p.toNat)

/-- R189, R184: SETLED stores the logical value and writes the level `value ^ inverted` to the LED's pin, touching no other
LED and no other pin. -/
def Obligations.SetledStoresAndDrives : Prop :=
  ∀ (index : Byte) (value : Bool) (s : State) (r : Reply) (w : List Stimulus),
    index.toNat < s.ledcount.toNat → s.ledcount.toNat ≤ 3 → s.world = rets [r] ++ w → calm w →
    ∃ ls ps, exec (.setled index value) s = .next { s with
        world := w, actions := s.actions ++ [.pinWrite (s.pinOf index.toNat) (value ^^ s.inverted)]
        ledStates := ls, pins := ps, err := .ok, busy := false, micro := [], locals := {} } ∧
      (∀ i, i < 3 → (ls[i]?).getD false = if i = index.toNat then value else s.led i) ∧
      (s.pins.wf = true → ∀ p : Byte, ps.get p.toNat =
        if p = s.pinOf index.toNat then { s.pins.get p.toNat with level := some (value ^^ s.inverted) }
        else s.pins.get p.toNat)

/-- R191: GETLED returns the logical value of its LED and issues nothing. -/
def Obligations.GetledReturnsLogicalValue : Prop :=
  ∀ (index : Byte) (s : State), index.toNat < s.ledcount.toNat → calm s.world →
    exec (.getled index) s = .next { s with
      result := if s.led index.toNat then 1 else 0, err := .ok, busy := false, micro := [], locals := {} }

/-- R192: GETLED i after SETLED i, v, with any SETLEDs of other indices between, gives RESULT = v, for either polarity and
whatever the outside world does. -/
def Obligations.SetThenGetRoundTrip : Prop :=
  ∀ (i : Byte) (v : Bool) (between : List (Byte × Bool)) (s t : State),
    i.toNat < s.ledcount.toNat → s.ledcount.toNat ≤ 3 → (∀ x ∈ between, x.1 ≠ i) →
    exec (.getled i) (((i, v) :: between).foldl
      (fun u x => match exec (.setled x.1 x.2) u with | .next u' => u' | _ => u) s) = .next t →
    t.result = if v then 1 else 0

/-- R193: a LED command reads and writes none of the driver's fields and issues no bus action; a bus or driver command reads
and writes no LED bank field and issues no pin operation. What is issued and written is said of the command's whole course,
whatever the outside world does; that nothing is read, of its first step from every state. -/
def Obligations.UnitsAreIndependent : Prop :=
  ∀ (i : Instr) (s : State),
    (∀ t, Course i s t →
      (i.isLed = true →
        (∃ as, t.actions = s.actions ++ as ∧ ∀ a ∈ as, a.isBus = false) ∧
        t.sstate = s.sstate ∧ t.enabled = s.enabled ∧ t.atime = s.atime ∧ t.gain = s.gain) ∧
      (i.isLed = false →
        (∃ as, t.actions = s.actions ++ as ∧ ∀ a ∈ as, a.isBus = true) ∧
        t.lbinit = s.lbinit ∧ t.inverted = s.inverted ∧ t.ledcount = s.ledcount ∧ t.ledStates = s.ledStates ∧
        t.pinmap = s.pinmap)) ∧
    ∀ t, exec i s = .next t →
      (i.isLed = true → ∀ x e a g, exec i { s with sstate := x, enabled := e, atime := a, gain := g } =
        .next { t with sstate := x, enabled := e, atime := a, gain := g }) ∧
      (i.isLed = false → ∀ b v n ls pm ps,
        exec i { s with lbinit := b, inverted := v, ledcount := n, ledStates := ls, pinmap := pm, pins := ps } =
          .next { t with lbinit := b, inverted := v, ledcount := n, ledStates := ls, pinmap := pm, pins := ps })

/-! ### Whole-machine rules -/

/-- R259: through its whole course no command issues more than ten bus actions, or more pin operations than three for each
LED, and no command waits for anything but its own calls: one whose calls all return ends, from its acceptance and from any
point on; and the block's own work ends by itself, with no stimulus left (log 4). That a call may never return is
`HostAccessLeavesRunningCommand`. -/
def Obligations.CommandsAreFinite : Prop :=
  (∀ (i : Instr) (s t : State), Course i s t →
    ∃ as, t.actions = s.actions ++ as ∧
      (as.filter Action.isBus).length ≤ 10 ∧ (as.filter fun a => !a.isBus).length ≤ 9) ∧
  (∀ (i : Instr) (s t : State) (rs : List Reply),
    s.world = rets rs → 10 ≤ rs.length → exec i s = .next t → t.busy = false ∧ t.micro = []) ∧
  (∀ (s t : State) (rs : List Reply),
    s.micro ≠ [] → s.world = rets rs → s.micro.length ≤ rs.length → step s = .next t → t.busy = false ∧ t.micro = []) ∧
  ∀ (s : State) (rest : List Op),
    s.micro = .work :: rest → (∀ op ∈ rest, op.waits = false) → s.world = [] →
    ∃ t, step s = .next t ∧ t.busy = false ∧ t.micro = []

/-- R90, R251: a host that issues each word only after it has read BUSY = 0 never has a word dropped, however long the
operations of its commands take. -/
def Obligations.IssuedWordsAreNeverDropped : Prop :=
  ∀ (n : Nat) (h h' : HostRun) (s s' : State),
    (∀ l ∈ h.lines, ∃ w, l = .issue w) → (h.waiting = false → s.busy = false) →
    (∀ x ∈ s.world, ∃ r, x = .ret r) → hostTurns n h s = .next (h', s') → s'.ovr = s.ovr

/-- R23: a command that ends, at once or after any course whatever the outside world did in it, leaves RESULT unchanged unless
it ends OK and is BRD, BRD2, READRGB or GETLED. -/
def Obligations.ResultKeptByOtherEndings : Prop :=
  ∀ (i : Instr) (s t : State), s.busy = true → Course i s t → t.busy = false →
    (t.err ≠ .ok ∨ ¬((∃ r, i = .brd r) ∨ (∃ r, i = .brd2 r) ∨ i = .readrgb ∨ ∃ n, i = .getled n)) →
    t.result = s.result

/-- R28, R29, R31: every step keeps the driver invariant. -/
def Obligations.DriverInvariantKept : Prop :=
  ∀ s t : State, DriverInv s → step s = .next t → DriverInv t

/-- R27: every step keeps the shadow codes among the listed ones. -/
def Obligations.ConfigInvariantKept : Prop :=
  ∀ s t : State, ConfigInv s → step s = .next t → ConfigInv t

/-- R32, R33, R187, R188, R194: every step keeps the LED invariant, the canonical form of the pin record included. -/
def Obligations.BankInvariantKept : Prop :=
  ∀ s t : State, BankInv s → step s = .next t → BankInv t

/-- R27 to R33: the invariants hold after reset, whatever is about to arrive. -/
def Obligations.InvariantsHoldAtReset : Prop :=
  ∀ w : List Stimulus, DriverInv { State.reset with world := w } ∧ ConfigInv { State.reset with world := w } ∧
    BankInv { State.reset with world := w } ∧ State.reset.pins.wf = true

/-- R29, R31, R27, R132: in every reachable state, whatever the outside world did: the micro-state is empty exactly when the
block is idle; an idle block is UNINIT or READY, is enabled only when READY, and keeps no value read (that the field
`locals` is all zero then is the model's choice, log 12); the shadow codes are listed ones. -/
def Obligations.ReachableDriverState : Prop :=
  ∀ s : State, Reachable s →
    (s.busy = false ↔ s.micro = []) ∧
    (s.busy = false → (s.sstate = .uninit ∨ s.sstate = .ready) ∧ (s.enabled = true → s.sstate = .ready) ∧
      s.locals = {}) ∧
    s.atime ∈ [0xFF#8, 0xF6#8, 0xEB#8, 0xD5#8, 0xC0#8, 0x00#8] ∧ s.gain ∈ [0x00#8, 0x01#8, 0x02#8, 0x03#8]

/-- R33, R194: in every reachable idle state with an initialized bank of distinct pins, the level last written to the pin of
each LED is its logical value, inverted under inverted polarity. -/
def Obligations.ReachablePinLevels : Prop :=
  ∀ s : State, Reachable s → s.busy = false → s.lbinit = true →
    (∀ i j, i < s.ledcount.toNat → j < s.ledcount.toNat → s.pinOf i = s.pinOf j → i = j) →
    ∀ i, i < s.ledcount.toNat → (s.pins.get (s.pinOf i).toNat).level = some (s.led i ^^ s.inverted)
end

