-- ==== Sys2Proof/Laws/Pins.lean ====
section
/-! SUPPORT. The laws of the pin record: read after write, other pins untouched, the canonical form kept (log 9). -/

namespace Sys2Proof.Machine.Pins

/-- An identifier is above a lower bound, if there is one. -/
def above : Option Nat → Nat → Prop
  | none, _ => True
  | some l, k => l < k

theorem wfFrom_cons (lo : Option Nat) (k : Nat) (x : PinState) (ps : Pins) :
    wfFrom lo ((k, x) :: ps) = true ↔ above lo k ∧ x ≠ {} ∧ wfFrom (some k) ps = true := by
  cases lo <;> simp [wfFrom, above, and_assoc]

theorem above_trans {lo : Option Nat} {k p : Nat} (h : above lo k) (hk : k < p) : above lo p := by
  cases lo with
  | none => trivial
  | some l => exact Nat.lt_trans h hk

theorem wfFrom_mono {lo lo' : Option Nat} {ps : Pins} (hle : ∀ k, above lo k → above lo' k)
    (h : wfFrom lo ps = true) : wfFrom lo' ps = true := by
  cases ps with
  | nil => rfl
  | cons e ps =>
    obtain ⟨k, x⟩ := e
    rw [wfFrom_cons] at h ⊢
    exact ⟨hle k h.1, h.2⟩

/-- A pin below every listed one is in the default state. -/
theorem get_below {l p : Nat} {ps : Pins} (h : wfFrom (some l) ps = true) (hp : p ≤ l) : get ps p = {} := by
  induction ps generalizing l with
  | nil => rfl
  | cons e ps ih =>
    obtain ⟨k, x⟩ := e
    obtain ⟨hk, -, hps⟩ := (wfFrom_cons ..).1 h
    have hlk : l < k := hk
    have hne : k ≠ p := by omega
    simpa [get, hne] using ih hps (by omega)

theorem entry_append_wf {lo : Option Nat} {p : Nat} {x : PinState} {ps : Pins} (hp : above lo p)
    (h : wfFrom (some p) ps = true) : wfFrom lo (entry p x ++ ps) = true := by
  unfold entry
  split
  · exact wfFrom_mono (lo := some p) (fun k (hk : p < k) => above_trans hp hk) h
  · exact (wfFrom_cons ..).2 ⟨hp, ‹_›, h⟩

theorem set_wfFrom {lo : Option Nat} {p : Nat} {ps : Pins} (x : PinState) (hp : above lo p)
    (h : wfFrom lo ps = true) : wfFrom lo (set ps p x) = true := by
  induction ps generalizing lo with
  | nil => simpa [set] using entry_append_wf (x := x) hp (ps := []) rfl
  | cons e ps ih =>
    obtain ⟨k, y⟩ := e
    obtain ⟨hk, hy, hps⟩ := (wfFrom_cons ..).1 h
    simp only [set]
    split
    · exact (wfFrom_cons ..).2 ⟨hk, hy, ih (show above (some k) p by assumption) hps⟩
    · split
      · subst k
        exact entry_append_wf hp hps
      · exact entry_append_wf hp ((wfFrom_cons ..).2 ⟨(by show p < k; omega), hy, hps⟩)

/-- A write keeps the canonical form. -/
theorem set_wf {ps : Pins} (p : Nat) (x : PinState) (h : ps.wf = true) : (ps.set p x).wf = true :=
  set_wfFrom x trivial h

theorem get_entry_append (p q : Nat) (x : PinState) (ps : Pins) :
    get (entry p x ++ ps) q = if q = p then (if x = {} then get ps p else x) else get ps q := by
  unfold entry
  by_cases hx : x = {}
  · by_cases hq : q = p <;> simp [hx, hq]
  · by_cases hq : q = p
    · simp [hx, get, hq]
    · have : p ≠ q := fun h => hq h.symm
      simp [hx, get, hq, this]

theorem get_set_from {lo : Option Nat} {p : Nat} {ps : Pins} (x : PinState) (q : Nat)
    (h : wfFrom lo ps = true) : get (set ps p x) q = if q = p then x else get ps q := by
  induction ps generalizing lo with
  | nil =>
    have := get_entry_append p q x []
    simp only [List.append_nil] at this
    rw [set, this]
    by_cases hx : x = {} <;> simp [hx, get]
  | cons e ps ih =>
    obtain ⟨k, y⟩ := e
    obtain ⟨hk, hy, hps⟩ := (wfFrom_cons ..).1 h
    simp only [set]
    split
    · rename_i hlt
      by_cases hkq : k = q
      · have : q ≠ p := by omega
        simp [get, hkq, this]
      · simp [get, hkq, ih hps]
    · split
      · subst k
        rw [get_entry_append, get_below hps (Nat.le_refl p)]
        by_cases hx : x = {}
        · by_cases hq : q = p <;> simp [hx, hq, get]
          intro h; exact absurd h.symm hq
        · by_cases hq : q = p <;> simp [hx, hq, get]
          intro h; exact absurd h.symm hq
      · have hbelow : get ((k, y) :: ps) p = {} :=
          get_below (l := p) ((wfFrom_cons ..).2 ⟨(by show p < k; omega), hy, hps⟩) (Nat.le_refl p)
        rw [get_entry_append, hbelow]
        by_cases hx : x = {} <;> simp [hx]

/-- Read after write: the written pin, and every other pin as before. -/
theorem get_set {ps : Pins} (p : Nat) (x : PinState) (q : Nat) (h : ps.wf = true) :
    (ps.set p x).get q = if q = p then x else ps.get q :=
  get_set_from x q h

/-- The record after a reset that frees nothing, entry by entry. -/
def unlevel (ps : Pins) : Pins := ps.flatMap fun e => entry e.1 { e.2 with level := none }

theorem unlevel_wfFrom {lo : Option Nat} {ps : Pins} (h : wfFrom lo ps = true) : wfFrom lo (unlevel ps) = true := by
  induction ps generalizing lo with
  | nil => rfl
  | cons e ps ih =>
    obtain ⟨k, y⟩ := e
    obtain ⟨hk, -, hps⟩ := (wfFrom_cons ..).1 h
    exact entry_append_wf hk (ih hps)

theorem get_unlevel {lo : Option Nat} {ps : Pins} (q : Nat) (h : wfFrom lo ps = true) :
    get (unlevel ps) q = { get ps q with level := none } := by
  induction ps generalizing lo with
  | nil => rfl
  | cons e ps ih =>
    obtain ⟨k, y⟩ := e
    obtain ⟨-, -, hps⟩ := (wfFrom_cons ..).1 h
    show get (entry k { y with level := none } ++ unlevel ps) q = _
    rw [get_entry_append, ih hps]
    by_cases hq : q = k
    · subst q
      have hk : get (unlevel ps) k = {} := by rw [ih hps, get_below hps (Nat.le_refl k)]
      by_cases hy : ({ y with level := none } : PinState) = {} <;> simp [hy, get, hk]
    · have : k ≠ q := fun h => hq h.symm
      simp [get, hq, this]

/-- A reset keeps the canonical form. -/
theorem afterReset_wf {ps : Pins} (h : ps.wf = true) : ps.afterReset.wf = true := by
  unfold afterReset
  split
  · rfl
  · exact unlevel_wfFrom h

/-- What a reset leaves of a pin. -/
theorem get_afterReset {ps : Pins} (q : Nat) (h : ps.wf = true) :
    ps.afterReset.get q = if Config.pinReleaseOnReset then {} else { ps.get q with level := none } := by
  unfold afterReset
  split
  · rfl
  · exact get_unlevel q h

end Sys2Proof.Machine.Pins
end

