-- ==== Sys2Proof/Laws/State.lean ====
section
/-! SUPPORT. What each update of the state leaves in each field, true by definition; no later proof unfolds an update. -/

namespace Sys2Proof.Machine.State

@[simp] theorem accept_busy (w : Word) (s : State) : (s.accept w).busy = true := rfl
@[simp] theorem accept_err (w : Word) (s : State) : (s.accept w).err = s.err := rfl
@[simp] theorem accept_result (w : Word) (s : State) : (s.accept w).result = s.result := rfl
@[simp] theorem accept_lastcmd (w : Word) (s : State) : (s.accept w).lastcmd = w := rfl
@[simp] theorem accept_cv (w : Word) (s : State) : (s.accept w).cv = s.cv := rfl
@[simp] theorem accept_ovr (w : Word) (s : State) : (s.accept w).ovr = s.ovr := rfl
@[simp] theorem accept_sstate (w : Word) (s : State) : (s.accept w).sstate = s.sstate := rfl
@[simp] theorem accept_enabled (w : Word) (s : State) : (s.accept w).enabled = s.enabled := rfl
@[simp] theorem accept_atime (w : Word) (s : State) : (s.accept w).atime = s.atime := rfl
@[simp] theorem accept_gain (w : Word) (s : State) : (s.accept w).gain = s.gain := rfl
@[simp] theorem accept_lbinit (w : Word) (s : State) : (s.accept w).lbinit = s.lbinit := rfl
@[simp] theorem accept_inverted (w : Word) (s : State) : (s.accept w).inverted = s.inverted := rfl
@[simp] theorem accept_ledcount (w : Word) (s : State) : (s.accept w).ledcount = s.ledcount := rfl
@[simp] theorem accept_ledStates (w : Word) (s : State) : (s.accept w).ledStates = s.ledStates := rfl
@[simp] theorem accept_pinmap (w : Word) (s : State) : (s.accept w).pinmap = s.pinmap := rfl
@[simp] theorem accept_micro (w : Word) (s : State) : (s.accept w).micro = s.micro := rfl
@[simp] theorem accept_locals (w : Word) (s : State) : (s.accept w).locals = s.locals := rfl
@[simp] theorem accept_pins (w : Word) (s : State) : (s.accept w).pins = s.pins := rfl
@[simp] theorem accept_actions (w : Word) (s : State) : (s.accept w).actions = s.actions := rfl
@[simp] theorem accept_hostData (w : Word) (s : State) : (s.accept w).hostData = s.hostData := rfl
@[simp] theorem accept_world (w : Word) (s : State) : (s.accept w).world = s.world := rfl
@[simp] theorem accept_draws (w : Word) (s : State) : (s.accept w).draws = s.draws := rfl

@[simp] theorem dropWord_busy (s : State) : (s.dropWord).busy = s.busy := rfl
@[simp] theorem dropWord_err (s : State) : (s.dropWord).err = s.err := rfl
@[simp] theorem dropWord_result (s : State) : (s.dropWord).result = s.result := rfl
@[simp] theorem dropWord_lastcmd (s : State) : (s.dropWord).lastcmd = s.lastcmd := rfl
@[simp] theorem dropWord_cv (s : State) : (s.dropWord).cv = true := rfl
@[simp] theorem dropWord_ovr (s : State) : (s.dropWord).ovr = true := rfl
@[simp] theorem dropWord_sstate (s : State) : (s.dropWord).sstate = s.sstate := rfl
@[simp] theorem dropWord_enabled (s : State) : (s.dropWord).enabled = s.enabled := rfl
@[simp] theorem dropWord_atime (s : State) : (s.dropWord).atime = s.atime := rfl
@[simp] theorem dropWord_gain (s : State) : (s.dropWord).gain = s.gain := rfl
@[simp] theorem dropWord_lbinit (s : State) : (s.dropWord).lbinit = s.lbinit := rfl
@[simp] theorem dropWord_inverted (s : State) : (s.dropWord).inverted = s.inverted := rfl
@[simp] theorem dropWord_ledcount (s : State) : (s.dropWord).ledcount = s.ledcount := rfl
@[simp] theorem dropWord_ledStates (s : State) : (s.dropWord).ledStates = s.ledStates := rfl
@[simp] theorem dropWord_pinmap (s : State) : (s.dropWord).pinmap = s.pinmap := rfl
@[simp] theorem dropWord_micro (s : State) : (s.dropWord).micro = s.micro := rfl
@[simp] theorem dropWord_locals (s : State) : (s.dropWord).locals = s.locals := rfl
@[simp] theorem dropWord_pins (s : State) : (s.dropWord).pins = s.pins := rfl
@[simp] theorem dropWord_actions (s : State) : (s.dropWord).actions = s.actions := rfl
@[simp] theorem dropWord_hostData (s : State) : (s.dropWord).hostData = s.hostData := rfl
@[simp] theorem dropWord_world (s : State) : (s.dropWord).world = s.world := rfl
@[simp] theorem dropWord_draws (s : State) : (s.dropWord).draws = s.draws := rfl

@[simp] theorem endOk_busy (s : State) : (s.endOk).busy = false := rfl
@[simp] theorem endOk_err (s : State) : (s.endOk).err = .ok := rfl
@[simp] theorem endOk_result (s : State) : (s.endOk).result = s.result := rfl
@[simp] theorem endOk_lastcmd (s : State) : (s.endOk).lastcmd = s.lastcmd := rfl
@[simp] theorem endOk_cv (s : State) : (s.endOk).cv = s.cv := rfl
@[simp] theorem endOk_ovr (s : State) : (s.endOk).ovr = s.ovr := rfl
@[simp] theorem endOk_sstate (s : State) : (s.endOk).sstate = s.sstate := rfl
@[simp] theorem endOk_enabled (s : State) : (s.endOk).enabled = s.enabled := rfl
@[simp] theorem endOk_atime (s : State) : (s.endOk).atime = s.atime := rfl
@[simp] theorem endOk_gain (s : State) : (s.endOk).gain = s.gain := rfl
@[simp] theorem endOk_lbinit (s : State) : (s.endOk).lbinit = s.lbinit := rfl
@[simp] theorem endOk_inverted (s : State) : (s.endOk).inverted = s.inverted := rfl
@[simp] theorem endOk_ledcount (s : State) : (s.endOk).ledcount = s.ledcount := rfl
@[simp] theorem endOk_ledStates (s : State) : (s.endOk).ledStates = s.ledStates := rfl
@[simp] theorem endOk_pinmap (s : State) : (s.endOk).pinmap = s.pinmap := rfl
@[simp] theorem endOk_micro (s : State) : (s.endOk).micro = [] := rfl
@[simp] theorem endOk_locals (s : State) : (s.endOk).locals = {} := rfl
@[simp] theorem endOk_pins (s : State) : (s.endOk).pins = s.pins := rfl
@[simp] theorem endOk_actions (s : State) : (s.endOk).actions = s.actions := rfl
@[simp] theorem endOk_hostData (s : State) : (s.endOk).hostData = s.hostData := rfl
@[simp] theorem endOk_world (s : State) : (s.endOk).world = s.world := rfl
@[simp] theorem endOk_draws (s : State) : (s.endOk).draws = s.draws := rfl

@[simp] theorem raise_busy (e : ErrCode) (s : State) : (s.raise e).busy = false := rfl
@[simp] theorem raise_err (e : ErrCode) (s : State) : (s.raise e).err = e := rfl
@[simp] theorem raise_result (e : ErrCode) (s : State) : (s.raise e).result = s.result := rfl
@[simp] theorem raise_lastcmd (e : ErrCode) (s : State) : (s.raise e).lastcmd = s.lastcmd := rfl
@[simp] theorem raise_cv (e : ErrCode) (s : State) : (s.raise e).cv = (s.cv || e.isContract) := rfl
@[simp] theorem raise_ovr (e : ErrCode) (s : State) : (s.raise e).ovr = s.ovr := rfl
@[simp] theorem raise_sstate (e : ErrCode) (s : State) : (s.raise e).sstate = s.sstate := rfl
@[simp] theorem raise_enabled (e : ErrCode) (s : State) : (s.raise e).enabled = s.enabled := rfl
@[simp] theorem raise_atime (e : ErrCode) (s : State) : (s.raise e).atime = s.atime := rfl
@[simp] theorem raise_gain (e : ErrCode) (s : State) : (s.raise e).gain = s.gain := rfl
@[simp] theorem raise_lbinit (e : ErrCode) (s : State) : (s.raise e).lbinit = s.lbinit := rfl
@[simp] theorem raise_inverted (e : ErrCode) (s : State) : (s.raise e).inverted = s.inverted := rfl
@[simp] theorem raise_ledcount (e : ErrCode) (s : State) : (s.raise e).ledcount = s.ledcount := rfl
@[simp] theorem raise_ledStates (e : ErrCode) (s : State) : (s.raise e).ledStates = s.ledStates := rfl
@[simp] theorem raise_pinmap (e : ErrCode) (s : State) : (s.raise e).pinmap = s.pinmap := rfl
@[simp] theorem raise_micro (e : ErrCode) (s : State) : (s.raise e).micro = [] := rfl
@[simp] theorem raise_locals (e : ErrCode) (s : State) : (s.raise e).locals = {} := rfl
@[simp] theorem raise_pins (e : ErrCode) (s : State) : (s.raise e).pins = s.pins := rfl
@[simp] theorem raise_actions (e : ErrCode) (s : State) : (s.raise e).actions = s.actions := rfl
@[simp] theorem raise_hostData (e : ErrCode) (s : State) : (s.raise e).hostData = s.hostData := rfl
@[simp] theorem raise_world (e : ErrCode) (s : State) : (s.raise e).world = s.world := rfl
@[simp] theorem raise_draws (e : ErrCode) (s : State) : (s.raise e).draws = s.draws := rfl

@[simp] theorem revertBegin_busy (s : State) : (s.revertBegin).busy = s.busy := rfl
@[simp] theorem revertBegin_err (s : State) : (s.revertBegin).err = s.err := rfl
@[simp] theorem revertBegin_result (s : State) : (s.revertBegin).result = s.result := rfl
@[simp] theorem revertBegin_lastcmd (s : State) : (s.revertBegin).lastcmd = s.lastcmd := rfl
@[simp] theorem revertBegin_cv (s : State) : (s.revertBegin).cv = s.cv := rfl
@[simp] theorem revertBegin_ovr (s : State) : (s.revertBegin).ovr = s.ovr := rfl
@[simp] theorem revertBegin_sstate (s : State) : (s.revertBegin).sstate = .uninit := rfl
@[simp] theorem revertBegin_enabled (s : State) : (s.revertBegin).enabled = false := rfl
@[simp] theorem revertBegin_atime (s : State) : (s.revertBegin).atime = s.atime := rfl
@[simp] theorem revertBegin_gain (s : State) : (s.revertBegin).gain = s.gain := rfl
@[simp] theorem revertBegin_lbinit (s : State) : (s.revertBegin).lbinit = s.lbinit := rfl
@[simp] theorem revertBegin_inverted (s : State) : (s.revertBegin).inverted = s.inverted := rfl
@[simp] theorem revertBegin_ledcount (s : State) : (s.revertBegin).ledcount = s.ledcount := rfl
@[simp] theorem revertBegin_ledStates (s : State) : (s.revertBegin).ledStates = s.ledStates := rfl
@[simp] theorem revertBegin_pinmap (s : State) : (s.revertBegin).pinmap = s.pinmap := rfl
@[simp] theorem revertBegin_micro (s : State) : (s.revertBegin).micro = s.micro := rfl
@[simp] theorem revertBegin_locals (s : State) : (s.revertBegin).locals = s.locals := rfl
@[simp] theorem revertBegin_pins (s : State) : (s.revertBegin).pins = s.pins := rfl
@[simp] theorem revertBegin_actions (s : State) : (s.revertBegin).actions = s.actions := rfl
@[simp] theorem revertBegin_hostData (s : State) : (s.revertBegin).hostData = s.hostData := rfl
@[simp] theorem revertBegin_world (s : State) : (s.revertBegin).world = s.world := rfl
@[simp] theorem revertBegin_draws (s : State) : (s.revertBegin).draws = s.draws := rfl

@[simp] theorem emit_busy (a : Action) (s : State) : (s.emit a).busy = s.busy := rfl
@[simp] theorem emit_err (a : Action) (s : State) : (s.emit a).err = s.err := rfl
@[simp] theorem emit_result (a : Action) (s : State) : (s.emit a).result = s.result := rfl
@[simp] theorem emit_lastcmd (a : Action) (s : State) : (s.emit a).lastcmd = s.lastcmd := rfl
@[simp] theorem emit_cv (a : Action) (s : State) : (s.emit a).cv = s.cv := rfl
@[simp] theorem emit_ovr (a : Action) (s : State) : (s.emit a).ovr = s.ovr := rfl
@[simp] theorem emit_sstate (a : Action) (s : State) : (s.emit a).sstate = s.sstate := rfl
@[simp] theorem emit_enabled (a : Action) (s : State) : (s.emit a).enabled = s.enabled := rfl
@[simp] theorem emit_atime (a : Action) (s : State) : (s.emit a).atime = s.atime := rfl
@[simp] theorem emit_gain (a : Action) (s : State) : (s.emit a).gain = s.gain := rfl
@[simp] theorem emit_lbinit (a : Action) (s : State) : (s.emit a).lbinit = s.lbinit := rfl
@[simp] theorem emit_inverted (a : Action) (s : State) : (s.emit a).inverted = s.inverted := rfl
@[simp] theorem emit_ledcount (a : Action) (s : State) : (s.emit a).ledcount = s.ledcount := rfl
@[simp] theorem emit_ledStates (a : Action) (s : State) : (s.emit a).ledStates = s.ledStates := rfl
@[simp] theorem emit_pinmap (a : Action) (s : State) : (s.emit a).pinmap = s.pinmap := rfl
@[simp] theorem emit_micro (a : Action) (s : State) : (s.emit a).micro = s.micro := rfl
@[simp] theorem emit_locals (a : Action) (s : State) : (s.emit a).locals = s.locals := rfl
@[simp] theorem emit_pins (a : Action) (s : State) : (s.emit a).pins = s.pins := rfl
@[simp] theorem emit_actions (a : Action) (s : State) : (s.emit a).actions = s.actions ++ [a] := rfl
@[simp] theorem emit_hostData (a : Action) (s : State) : (s.emit a).hostData = s.hostData := rfl
@[simp] theorem emit_world (a : Action) (s : State) : (s.emit a).world = s.world := rfl
@[simp] theorem emit_draws (a : Action) (s : State) : (s.emit a).draws = s.draws := rfl

@[simp] theorem withWorld_busy (w : List Stimulus) (s : State) : (s.withWorld w).busy = s.busy := rfl
@[simp] theorem withWorld_err (w : List Stimulus) (s : State) : (s.withWorld w).err = s.err := rfl
@[simp] theorem withWorld_result (w : List Stimulus) (s : State) : (s.withWorld w).result = s.result := rfl
@[simp] theorem withWorld_lastcmd (w : List Stimulus) (s : State) : (s.withWorld w).lastcmd = s.lastcmd := rfl
@[simp] theorem withWorld_cv (w : List Stimulus) (s : State) : (s.withWorld w).cv = s.cv := rfl
@[simp] theorem withWorld_ovr (w : List Stimulus) (s : State) : (s.withWorld w).ovr = s.ovr := rfl
@[simp] theorem withWorld_sstate (w : List Stimulus) (s : State) : (s.withWorld w).sstate = s.sstate := rfl
@[simp] theorem withWorld_enabled (w : List Stimulus) (s : State) : (s.withWorld w).enabled = s.enabled := rfl
@[simp] theorem withWorld_atime (w : List Stimulus) (s : State) : (s.withWorld w).atime = s.atime := rfl
@[simp] theorem withWorld_gain (w : List Stimulus) (s : State) : (s.withWorld w).gain = s.gain := rfl
@[simp] theorem withWorld_lbinit (w : List Stimulus) (s : State) : (s.withWorld w).lbinit = s.lbinit := rfl
@[simp] theorem withWorld_inverted (w : List Stimulus) (s : State) : (s.withWorld w).inverted = s.inverted := rfl
@[simp] theorem withWorld_ledcount (w : List Stimulus) (s : State) : (s.withWorld w).ledcount = s.ledcount := rfl
@[simp] theorem withWorld_ledStates (w : List Stimulus) (s : State) : (s.withWorld w).ledStates = s.ledStates := rfl
@[simp] theorem withWorld_pinmap (w : List Stimulus) (s : State) : (s.withWorld w).pinmap = s.pinmap := rfl
@[simp] theorem withWorld_micro (w : List Stimulus) (s : State) : (s.withWorld w).micro = s.micro := rfl
@[simp] theorem withWorld_locals (w : List Stimulus) (s : State) : (s.withWorld w).locals = s.locals := rfl
@[simp] theorem withWorld_pins (w : List Stimulus) (s : State) : (s.withWorld w).pins = s.pins := rfl
@[simp] theorem withWorld_actions (w : List Stimulus) (s : State) : (s.withWorld w).actions = s.actions := rfl
@[simp] theorem withWorld_hostData (w : List Stimulus) (s : State) : (s.withWorld w).hostData = s.hostData := rfl
@[simp] theorem withWorld_world (w : List Stimulus) (s : State) : (s.withWorld w).world = w := rfl
@[simp] theorem withWorld_draws (w : List Stimulus) (s : State) : (s.withWorld w).draws = s.draws := rfl

@[simp] theorem draw_busy (s : State) : (s.draw).busy = s.busy := rfl
@[simp] theorem draw_err (s : State) : (s.draw).err = s.err := rfl
@[simp] theorem draw_result (s : State) : (s.draw).result = s.result := rfl
@[simp] theorem draw_lastcmd (s : State) : (s.draw).lastcmd = s.lastcmd := rfl
@[simp] theorem draw_cv (s : State) : (s.draw).cv = s.cv := rfl
@[simp] theorem draw_ovr (s : State) : (s.draw).ovr = s.ovr := rfl
@[simp] theorem draw_sstate (s : State) : (s.draw).sstate = s.sstate := rfl
@[simp] theorem draw_enabled (s : State) : (s.draw).enabled = s.enabled := rfl
@[simp] theorem draw_atime (s : State) : (s.draw).atime = s.atime := rfl
@[simp] theorem draw_gain (s : State) : (s.draw).gain = s.gain := rfl
@[simp] theorem draw_lbinit (s : State) : (s.draw).lbinit = s.lbinit := rfl
@[simp] theorem draw_inverted (s : State) : (s.draw).inverted = s.inverted := rfl
@[simp] theorem draw_ledcount (s : State) : (s.draw).ledcount = s.ledcount := rfl
@[simp] theorem draw_ledStates (s : State) : (s.draw).ledStates = s.ledStates := rfl
@[simp] theorem draw_pinmap (s : State) : (s.draw).pinmap = s.pinmap := rfl
@[simp] theorem draw_micro (s : State) : (s.draw).micro = s.micro := rfl
@[simp] theorem draw_locals (s : State) : (s.draw).locals = s.locals := rfl
@[simp] theorem draw_pins (s : State) : (s.draw).pins = s.pins := rfl
@[simp] theorem draw_actions (s : State) : (s.draw).actions = s.actions := rfl
@[simp] theorem draw_hostData (s : State) : (s.draw).hostData = s.hostData := rfl
@[simp] theorem draw_world (s : State) : (s.draw).world = s.world := rfl
@[simp] theorem draw_draws (s : State) : (s.draw).draws = s.draws + 1 := rfl

@[simp] theorem suspend_busy (ops : List Op) (s : State) : (s.suspend ops).busy = s.busy := rfl
@[simp] theorem suspend_err (ops : List Op) (s : State) : (s.suspend ops).err = s.err := rfl
@[simp] theorem suspend_result (ops : List Op) (s : State) : (s.suspend ops).result = s.result := rfl
@[simp] theorem suspend_lastcmd (ops : List Op) (s : State) : (s.suspend ops).lastcmd = s.lastcmd := rfl
@[simp] theorem suspend_cv (ops : List Op) (s : State) : (s.suspend ops).cv = s.cv := rfl
@[simp] theorem suspend_ovr (ops : List Op) (s : State) : (s.suspend ops).ovr = s.ovr := rfl
@[simp] theorem suspend_sstate (ops : List Op) (s : State) : (s.suspend ops).sstate = s.sstate := rfl
@[simp] theorem suspend_enabled (ops : List Op) (s : State) : (s.suspend ops).enabled = s.enabled := rfl
@[simp] theorem suspend_atime (ops : List Op) (s : State) : (s.suspend ops).atime = s.atime := rfl
@[simp] theorem suspend_gain (ops : List Op) (s : State) : (s.suspend ops).gain = s.gain := rfl
@[simp] theorem suspend_lbinit (ops : List Op) (s : State) : (s.suspend ops).lbinit = s.lbinit := rfl
@[simp] theorem suspend_inverted (ops : List Op) (s : State) : (s.suspend ops).inverted = s.inverted := rfl
@[simp] theorem suspend_ledcount (ops : List Op) (s : State) : (s.suspend ops).ledcount = s.ledcount := rfl
@[simp] theorem suspend_ledStates (ops : List Op) (s : State) : (s.suspend ops).ledStates = s.ledStates := rfl
@[simp] theorem suspend_pinmap (ops : List Op) (s : State) : (s.suspend ops).pinmap = s.pinmap := rfl
@[simp] theorem suspend_micro (ops : List Op) (s : State) : (s.suspend ops).micro = ops := rfl
@[simp] theorem suspend_locals (ops : List Op) (s : State) : (s.suspend ops).locals = s.locals := rfl
@[simp] theorem suspend_pins (ops : List Op) (s : State) : (s.suspend ops).pins = s.pins := rfl
@[simp] theorem suspend_actions (ops : List Op) (s : State) : (s.suspend ops).actions = s.actions := rfl
@[simp] theorem suspend_hostData (ops : List Op) (s : State) : (s.suspend ops).hostData = s.hostData := rfl
@[simp] theorem suspend_world (ops : List Op) (s : State) : (s.suspend ops).world = s.world := rfl
@[simp] theorem suspend_draws (ops : List Op) (s : State) : (s.suspend ops).draws = s.draws := rfl

@[simp] theorem setByte_busy (v : Byte) (s : State) : (s.setByte v).busy = s.busy := rfl
@[simp] theorem setByte_err (v : Byte) (s : State) : (s.setByte v).err = s.err := rfl
@[simp] theorem setByte_result (v : Byte) (s : State) : (s.setByte v).result = s.result := rfl
@[simp] theorem setByte_lastcmd (v : Byte) (s : State) : (s.setByte v).lastcmd = s.lastcmd := rfl
@[simp] theorem setByte_cv (v : Byte) (s : State) : (s.setByte v).cv = s.cv := rfl
@[simp] theorem setByte_ovr (v : Byte) (s : State) : (s.setByte v).ovr = s.ovr := rfl
@[simp] theorem setByte_sstate (v : Byte) (s : State) : (s.setByte v).sstate = s.sstate := rfl
@[simp] theorem setByte_enabled (v : Byte) (s : State) : (s.setByte v).enabled = s.enabled := rfl
@[simp] theorem setByte_atime (v : Byte) (s : State) : (s.setByte v).atime = s.atime := rfl
@[simp] theorem setByte_gain (v : Byte) (s : State) : (s.setByte v).gain = s.gain := rfl
@[simp] theorem setByte_lbinit (v : Byte) (s : State) : (s.setByte v).lbinit = s.lbinit := rfl
@[simp] theorem setByte_inverted (v : Byte) (s : State) : (s.setByte v).inverted = s.inverted := rfl
@[simp] theorem setByte_ledcount (v : Byte) (s : State) : (s.setByte v).ledcount = s.ledcount := rfl
@[simp] theorem setByte_ledStates (v : Byte) (s : State) : (s.setByte v).ledStates = s.ledStates := rfl
@[simp] theorem setByte_pinmap (v : Byte) (s : State) : (s.setByte v).pinmap = s.pinmap := rfl
@[simp] theorem setByte_micro (v : Byte) (s : State) : (s.setByte v).micro = s.micro := rfl
@[simp] theorem setByte_locals (v : Byte) (s : State) : (s.setByte v).locals = { s.locals with byte := v } := rfl
@[simp] theorem setByte_pins (v : Byte) (s : State) : (s.setByte v).pins = s.pins := rfl
@[simp] theorem setByte_actions (v : Byte) (s : State) : (s.setByte v).actions = s.actions := rfl
@[simp] theorem setByte_hostData (v : Byte) (s : State) : (s.setByte v).hostData = s.hostData := rfl
@[simp] theorem setByte_world (v : Byte) (s : State) : (s.setByte v).world = s.world := rfl
@[simp] theorem setByte_draws (v : Byte) (s : State) : (s.setByte v).draws = s.draws := rfl

@[simp] theorem setPair_busy (x : PairVar) (v : Half) (s : State) : (s.setPair x v).busy = s.busy := by cases x <;> rfl
@[simp] theorem setPair_err (x : PairVar) (v : Half) (s : State) : (s.setPair x v).err = s.err := by cases x <;> rfl
@[simp] theorem setPair_result (x : PairVar) (v : Half) (s : State) : (s.setPair x v).result = s.result := by cases x <;> rfl
@[simp] theorem setPair_lastcmd (x : PairVar) (v : Half) (s : State) : (s.setPair x v).lastcmd = s.lastcmd := by cases x <;> rfl
@[simp] theorem setPair_cv (x : PairVar) (v : Half) (s : State) : (s.setPair x v).cv = s.cv := by cases x <;> rfl
@[simp] theorem setPair_ovr (x : PairVar) (v : Half) (s : State) : (s.setPair x v).ovr = s.ovr := by cases x <;> rfl
@[simp] theorem setPair_sstate (x : PairVar) (v : Half) (s : State) : (s.setPair x v).sstate = s.sstate := by cases x <;> rfl
@[simp] theorem setPair_enabled (x : PairVar) (v : Half) (s : State) : (s.setPair x v).enabled = s.enabled := by cases x <;> rfl
@[simp] theorem setPair_atime (x : PairVar) (v : Half) (s : State) : (s.setPair x v).atime = s.atime := by cases x <;> rfl
@[simp] theorem setPair_gain (x : PairVar) (v : Half) (s : State) : (s.setPair x v).gain = s.gain := by cases x <;> rfl
@[simp] theorem setPair_lbinit (x : PairVar) (v : Half) (s : State) : (s.setPair x v).lbinit = s.lbinit := by cases x <;> rfl
@[simp] theorem setPair_inverted (x : PairVar) (v : Half) (s : State) : (s.setPair x v).inverted = s.inverted := by cases x <;> rfl
@[simp] theorem setPair_ledcount (x : PairVar) (v : Half) (s : State) : (s.setPair x v).ledcount = s.ledcount := by cases x <;> rfl
@[simp] theorem setPair_ledStates (x : PairVar) (v : Half) (s : State) : (s.setPair x v).ledStates = s.ledStates := by cases x <;> rfl
@[simp] theorem setPair_pinmap (x : PairVar) (v : Half) (s : State) : (s.setPair x v).pinmap = s.pinmap := by cases x <;> rfl
@[simp] theorem setPair_micro (x : PairVar) (v : Half) (s : State) : (s.setPair x v).micro = s.micro := by cases x <;> rfl
@[simp] theorem setPair_pins (x : PairVar) (v : Half) (s : State) : (s.setPair x v).pins = s.pins := by cases x <;> rfl
@[simp] theorem setPair_actions (x : PairVar) (v : Half) (s : State) : (s.setPair x v).actions = s.actions := by cases x <;> rfl
@[simp] theorem setPair_hostData (x : PairVar) (v : Half) (s : State) : (s.setPair x v).hostData = s.hostData := by cases x <;> rfl
@[simp] theorem setPair_world (x : PairVar) (v : Half) (s : State) : (s.setPair x v).world = s.world := by cases x <;> rfl
@[simp] theorem setPair_draws (x : PairVar) (v : Half) (s : State) : (s.setPair x v).draws = s.draws := by cases x <;> rfl

@[simp] theorem setSstate_busy (x : SState) (s : State) : (s.setSstate x).busy = s.busy := rfl
@[simp] theorem setSstate_err (x : SState) (s : State) : (s.setSstate x).err = s.err := rfl
@[simp] theorem setSstate_result (x : SState) (s : State) : (s.setSstate x).result = s.result := rfl
@[simp] theorem setSstate_lastcmd (x : SState) (s : State) : (s.setSstate x).lastcmd = s.lastcmd := rfl
@[simp] theorem setSstate_cv (x : SState) (s : State) : (s.setSstate x).cv = s.cv := rfl
@[simp] theorem setSstate_ovr (x : SState) (s : State) : (s.setSstate x).ovr = s.ovr := rfl
@[simp] theorem setSstate_sstate (x : SState) (s : State) : (s.setSstate x).sstate = x := rfl
@[simp] theorem setSstate_enabled (x : SState) (s : State) : (s.setSstate x).enabled = s.enabled := rfl
@[simp] theorem setSstate_atime (x : SState) (s : State) : (s.setSstate x).atime = s.atime := rfl
@[simp] theorem setSstate_gain (x : SState) (s : State) : (s.setSstate x).gain = s.gain := rfl
@[simp] theorem setSstate_lbinit (x : SState) (s : State) : (s.setSstate x).lbinit = s.lbinit := rfl
@[simp] theorem setSstate_inverted (x : SState) (s : State) : (s.setSstate x).inverted = s.inverted := rfl
@[simp] theorem setSstate_ledcount (x : SState) (s : State) : (s.setSstate x).ledcount = s.ledcount := rfl
@[simp] theorem setSstate_ledStates (x : SState) (s : State) : (s.setSstate x).ledStates = s.ledStates := rfl
@[simp] theorem setSstate_pinmap (x : SState) (s : State) : (s.setSstate x).pinmap = s.pinmap := rfl
@[simp] theorem setSstate_micro (x : SState) (s : State) : (s.setSstate x).micro = s.micro := rfl
@[simp] theorem setSstate_locals (x : SState) (s : State) : (s.setSstate x).locals = s.locals := rfl
@[simp] theorem setSstate_pins (x : SState) (s : State) : (s.setSstate x).pins = s.pins := rfl
@[simp] theorem setSstate_actions (x : SState) (s : State) : (s.setSstate x).actions = s.actions := rfl
@[simp] theorem setSstate_hostData (x : SState) (s : State) : (s.setSstate x).hostData = s.hostData := rfl
@[simp] theorem setSstate_world (x : SState) (s : State) : (s.setSstate x).world = s.world := rfl
@[simp] theorem setSstate_draws (x : SState) (s : State) : (s.setSstate x).draws = s.draws := rfl

@[simp] theorem setEnabled_busy (e : Bool) (s : State) : (s.setEnabled e).busy = s.busy := rfl
@[simp] theorem setEnabled_err (e : Bool) (s : State) : (s.setEnabled e).err = s.err := rfl
@[simp] theorem setEnabled_result (e : Bool) (s : State) : (s.setEnabled e).result = s.result := rfl
@[simp] theorem setEnabled_lastcmd (e : Bool) (s : State) : (s.setEnabled e).lastcmd = s.lastcmd := rfl
@[simp] theorem setEnabled_cv (e : Bool) (s : State) : (s.setEnabled e).cv = s.cv := rfl
@[simp] theorem setEnabled_ovr (e : Bool) (s : State) : (s.setEnabled e).ovr = s.ovr := rfl
@[simp] theorem setEnabled_sstate (e : Bool) (s : State) : (s.setEnabled e).sstate = s.sstate := rfl
@[simp] theorem setEnabled_enabled (e : Bool) (s : State) : (s.setEnabled e).enabled = e := rfl
@[simp] theorem setEnabled_atime (e : Bool) (s : State) : (s.setEnabled e).atime = s.atime := rfl
@[simp] theorem setEnabled_gain (e : Bool) (s : State) : (s.setEnabled e).gain = s.gain := rfl
@[simp] theorem setEnabled_lbinit (e : Bool) (s : State) : (s.setEnabled e).lbinit = s.lbinit := rfl
@[simp] theorem setEnabled_inverted (e : Bool) (s : State) : (s.setEnabled e).inverted = s.inverted := rfl
@[simp] theorem setEnabled_ledcount (e : Bool) (s : State) : (s.setEnabled e).ledcount = s.ledcount := rfl
@[simp] theorem setEnabled_ledStates (e : Bool) (s : State) : (s.setEnabled e).ledStates = s.ledStates := rfl
@[simp] theorem setEnabled_pinmap (e : Bool) (s : State) : (s.setEnabled e).pinmap = s.pinmap := rfl
@[simp] theorem setEnabled_micro (e : Bool) (s : State) : (s.setEnabled e).micro = s.micro := rfl
@[simp] theorem setEnabled_locals (e : Bool) (s : State) : (s.setEnabled e).locals = s.locals := rfl
@[simp] theorem setEnabled_pins (e : Bool) (s : State) : (s.setEnabled e).pins = s.pins := rfl
@[simp] theorem setEnabled_actions (e : Bool) (s : State) : (s.setEnabled e).actions = s.actions := rfl
@[simp] theorem setEnabled_hostData (e : Bool) (s : State) : (s.setEnabled e).hostData = s.hostData := rfl
@[simp] theorem setEnabled_world (e : Bool) (s : State) : (s.setEnabled e).world = s.world := rfl
@[simp] theorem setEnabled_draws (e : Bool) (s : State) : (s.setEnabled e).draws = s.draws := rfl

@[simp] theorem setAtime_busy (c : Byte) (s : State) : (s.setAtime c).busy = s.busy := rfl
@[simp] theorem setAtime_err (c : Byte) (s : State) : (s.setAtime c).err = s.err := rfl
@[simp] theorem setAtime_result (c : Byte) (s : State) : (s.setAtime c).result = s.result := rfl
@[simp] theorem setAtime_lastcmd (c : Byte) (s : State) : (s.setAtime c).lastcmd = s.lastcmd := rfl
@[simp] theorem setAtime_cv (c : Byte) (s : State) : (s.setAtime c).cv = s.cv := rfl
@[simp] theorem setAtime_ovr (c : Byte) (s : State) : (s.setAtime c).ovr = s.ovr := rfl
@[simp] theorem setAtime_sstate (c : Byte) (s : State) : (s.setAtime c).sstate = s.sstate := rfl
@[simp] theorem setAtime_enabled (c : Byte) (s : State) : (s.setAtime c).enabled = s.enabled := rfl
@[simp] theorem setAtime_atime (c : Byte) (s : State) : (s.setAtime c).atime = c := rfl
@[simp] theorem setAtime_gain (c : Byte) (s : State) : (s.setAtime c).gain = s.gain := rfl
@[simp] theorem setAtime_lbinit (c : Byte) (s : State) : (s.setAtime c).lbinit = s.lbinit := rfl
@[simp] theorem setAtime_inverted (c : Byte) (s : State) : (s.setAtime c).inverted = s.inverted := rfl
@[simp] theorem setAtime_ledcount (c : Byte) (s : State) : (s.setAtime c).ledcount = s.ledcount := rfl
@[simp] theorem setAtime_ledStates (c : Byte) (s : State) : (s.setAtime c).ledStates = s.ledStates := rfl
@[simp] theorem setAtime_pinmap (c : Byte) (s : State) : (s.setAtime c).pinmap = s.pinmap := rfl
@[simp] theorem setAtime_micro (c : Byte) (s : State) : (s.setAtime c).micro = s.micro := rfl
@[simp] theorem setAtime_locals (c : Byte) (s : State) : (s.setAtime c).locals = s.locals := rfl
@[simp] theorem setAtime_pins (c : Byte) (s : State) : (s.setAtime c).pins = s.pins := rfl
@[simp] theorem setAtime_actions (c : Byte) (s : State) : (s.setAtime c).actions = s.actions := rfl
@[simp] theorem setAtime_hostData (c : Byte) (s : State) : (s.setAtime c).hostData = s.hostData := rfl
@[simp] theorem setAtime_world (c : Byte) (s : State) : (s.setAtime c).world = s.world := rfl
@[simp] theorem setAtime_draws (c : Byte) (s : State) : (s.setAtime c).draws = s.draws := rfl

@[simp] theorem setGain_busy (c : Byte) (s : State) : (s.setGain c).busy = s.busy := rfl
@[simp] theorem setGain_err (c : Byte) (s : State) : (s.setGain c).err = s.err := rfl
@[simp] theorem setGain_result (c : Byte) (s : State) : (s.setGain c).result = s.result := rfl
@[simp] theorem setGain_lastcmd (c : Byte) (s : State) : (s.setGain c).lastcmd = s.lastcmd := rfl
@[simp] theorem setGain_cv (c : Byte) (s : State) : (s.setGain c).cv = s.cv := rfl
@[simp] theorem setGain_ovr (c : Byte) (s : State) : (s.setGain c).ovr = s.ovr := rfl
@[simp] theorem setGain_sstate (c : Byte) (s : State) : (s.setGain c).sstate = s.sstate := rfl
@[simp] theorem setGain_enabled (c : Byte) (s : State) : (s.setGain c).enabled = s.enabled := rfl
@[simp] theorem setGain_atime (c : Byte) (s : State) : (s.setGain c).atime = s.atime := rfl
@[simp] theorem setGain_gain (c : Byte) (s : State) : (s.setGain c).gain = c := rfl
@[simp] theorem setGain_lbinit (c : Byte) (s : State) : (s.setGain c).lbinit = s.lbinit := rfl
@[simp] theorem setGain_inverted (c : Byte) (s : State) : (s.setGain c).inverted = s.inverted := rfl
@[simp] theorem setGain_ledcount (c : Byte) (s : State) : (s.setGain c).ledcount = s.ledcount := rfl
@[simp] theorem setGain_ledStates (c : Byte) (s : State) : (s.setGain c).ledStates = s.ledStates := rfl
@[simp] theorem setGain_pinmap (c : Byte) (s : State) : (s.setGain c).pinmap = s.pinmap := rfl
@[simp] theorem setGain_micro (c : Byte) (s : State) : (s.setGain c).micro = s.micro := rfl
@[simp] theorem setGain_locals (c : Byte) (s : State) : (s.setGain c).locals = s.locals := rfl
@[simp] theorem setGain_pins (c : Byte) (s : State) : (s.setGain c).pins = s.pins := rfl
@[simp] theorem setGain_actions (c : Byte) (s : State) : (s.setGain c).actions = s.actions := rfl
@[simp] theorem setGain_hostData (c : Byte) (s : State) : (s.setGain c).hostData = s.hostData := rfl
@[simp] theorem setGain_world (c : Byte) (s : State) : (s.setGain c).world = s.world := rfl
@[simp] theorem setGain_draws (c : Byte) (s : State) : (s.setGain c).draws = s.draws := rfl

@[simp] theorem setResult_busy (r : Word) (s : State) : (s.setResult r).busy = s.busy := rfl
@[simp] theorem setResult_err (r : Word) (s : State) : (s.setResult r).err = s.err := rfl
@[simp] theorem setResult_result (r : Word) (s : State) : (s.setResult r).result = r := rfl
@[simp] theorem setResult_lastcmd (r : Word) (s : State) : (s.setResult r).lastcmd = s.lastcmd := rfl
@[simp] theorem setResult_cv (r : Word) (s : State) : (s.setResult r).cv = s.cv := rfl
@[simp] theorem setResult_ovr (r : Word) (s : State) : (s.setResult r).ovr = s.ovr := rfl
@[simp] theorem setResult_sstate (r : Word) (s : State) : (s.setResult r).sstate = s.sstate := rfl
@[simp] theorem setResult_enabled (r : Word) (s : State) : (s.setResult r).enabled = s.enabled := rfl
@[simp] theorem setResult_atime (r : Word) (s : State) : (s.setResult r).atime = s.atime := rfl
@[simp] theorem setResult_gain (r : Word) (s : State) : (s.setResult r).gain = s.gain := rfl
@[simp] theorem setResult_lbinit (r : Word) (s : State) : (s.setResult r).lbinit = s.lbinit := rfl
@[simp] theorem setResult_inverted (r : Word) (s : State) : (s.setResult r).inverted = s.inverted := rfl
@[simp] theorem setResult_ledcount (r : Word) (s : State) : (s.setResult r).ledcount = s.ledcount := rfl
@[simp] theorem setResult_ledStates (r : Word) (s : State) : (s.setResult r).ledStates = s.ledStates := rfl
@[simp] theorem setResult_pinmap (r : Word) (s : State) : (s.setResult r).pinmap = s.pinmap := rfl
@[simp] theorem setResult_micro (r : Word) (s : State) : (s.setResult r).micro = s.micro := rfl
@[simp] theorem setResult_locals (r : Word) (s : State) : (s.setResult r).locals = s.locals := rfl
@[simp] theorem setResult_pins (r : Word) (s : State) : (s.setResult r).pins = s.pins := rfl
@[simp] theorem setResult_actions (r : Word) (s : State) : (s.setResult r).actions = s.actions := rfl
@[simp] theorem setResult_hostData (r : Word) (s : State) : (s.setResult r).hostData = s.hostData := rfl
@[simp] theorem setResult_world (r : Word) (s : State) : (s.setResult r).world = s.world := rfl
@[simp] theorem setResult_draws (r : Word) (s : State) : (s.setResult r).draws = s.draws := rfl

@[simp] theorem setLed_busy (i : Nat) (v : Bool) (s : State) : (s.setLed i v).busy = s.busy := rfl
@[simp] theorem setLed_err (i : Nat) (v : Bool) (s : State) : (s.setLed i v).err = s.err := rfl
@[simp] theorem setLed_result (i : Nat) (v : Bool) (s : State) : (s.setLed i v).result = s.result := rfl
@[simp] theorem setLed_lastcmd (i : Nat) (v : Bool) (s : State) : (s.setLed i v).lastcmd = s.lastcmd := rfl
@[simp] theorem setLed_cv (i : Nat) (v : Bool) (s : State) : (s.setLed i v).cv = s.cv := rfl
@[simp] theorem setLed_ovr (i : Nat) (v : Bool) (s : State) : (s.setLed i v).ovr = s.ovr := rfl
@[simp] theorem setLed_sstate (i : Nat) (v : Bool) (s : State) : (s.setLed i v).sstate = s.sstate := rfl
@[simp] theorem setLed_enabled (i : Nat) (v : Bool) (s : State) : (s.setLed i v).enabled = s.enabled := rfl
@[simp] theorem setLed_atime (i : Nat) (v : Bool) (s : State) : (s.setLed i v).atime = s.atime := rfl
@[simp] theorem setLed_gain (i : Nat) (v : Bool) (s : State) : (s.setLed i v).gain = s.gain := rfl
@[simp] theorem setLed_lbinit (i : Nat) (v : Bool) (s : State) : (s.setLed i v).lbinit = s.lbinit := rfl
@[simp] theorem setLed_inverted (i : Nat) (v : Bool) (s : State) : (s.setLed i v).inverted = s.inverted := rfl
@[simp] theorem setLed_ledcount (i : Nat) (v : Bool) (s : State) : (s.setLed i v).ledcount = s.ledcount := rfl
@[simp] theorem setLed_ledStates (i : Nat) (v : Bool) (s : State) : (s.setLed i v).ledStates = s.ledStates.setIfInBounds i v := rfl
@[simp] theorem setLed_pinmap (i : Nat) (v : Bool) (s : State) : (s.setLed i v).pinmap = s.pinmap := rfl
@[simp] theorem setLed_micro (i : Nat) (v : Bool) (s : State) : (s.setLed i v).micro = s.micro := rfl
@[simp] theorem setLed_locals (i : Nat) (v : Bool) (s : State) : (s.setLed i v).locals = s.locals := rfl
@[simp] theorem setLed_pins (i : Nat) (v : Bool) (s : State) : (s.setLed i v).pins = s.pins := rfl
@[simp] theorem setLed_actions (i : Nat) (v : Bool) (s : State) : (s.setLed i v).actions = s.actions := rfl
@[simp] theorem setLed_hostData (i : Nat) (v : Bool) (s : State) : (s.setLed i v).hostData = s.hostData := rfl
@[simp] theorem setLed_world (i : Nat) (v : Bool) (s : State) : (s.setLed i v).world = s.world := rfl
@[simp] theorem setLed_draws (i : Nat) (v : Bool) (s : State) : (s.setLed i v).draws = s.draws := rfl

@[simp] theorem setPinmap_busy (i : Nat) (p : Byte) (s : State) : (s.setPinmap i p).busy = s.busy := rfl
@[simp] theorem setPinmap_err (i : Nat) (p : Byte) (s : State) : (s.setPinmap i p).err = s.err := rfl
@[simp] theorem setPinmap_result (i : Nat) (p : Byte) (s : State) : (s.setPinmap i p).result = s.result := rfl
@[simp] theorem setPinmap_lastcmd (i : Nat) (p : Byte) (s : State) : (s.setPinmap i p).lastcmd = s.lastcmd := rfl
@[simp] theorem setPinmap_cv (i : Nat) (p : Byte) (s : State) : (s.setPinmap i p).cv = s.cv := rfl
@[simp] theorem setPinmap_ovr (i : Nat) (p : Byte) (s : State) : (s.setPinmap i p).ovr = s.ovr := rfl
@[simp] theorem setPinmap_sstate (i : Nat) (p : Byte) (s : State) : (s.setPinmap i p).sstate = s.sstate := rfl
@[simp] theorem setPinmap_enabled (i : Nat) (p : Byte) (s : State) : (s.setPinmap i p).enabled = s.enabled := rfl
@[simp] theorem setPinmap_atime (i : Nat) (p : Byte) (s : State) : (s.setPinmap i p).atime = s.atime := rfl
@[simp] theorem setPinmap_gain (i : Nat) (p : Byte) (s : State) : (s.setPinmap i p).gain = s.gain := rfl
@[simp] theorem setPinmap_lbinit (i : Nat) (p : Byte) (s : State) : (s.setPinmap i p).lbinit = s.lbinit := rfl
@[simp] theorem setPinmap_inverted (i : Nat) (p : Byte) (s : State) : (s.setPinmap i p).inverted = s.inverted := rfl
@[simp] theorem setPinmap_ledcount (i : Nat) (p : Byte) (s : State) : (s.setPinmap i p).ledcount = s.ledcount := rfl
@[simp] theorem setPinmap_ledStates (i : Nat) (p : Byte) (s : State) : (s.setPinmap i p).ledStates = s.ledStates := rfl
@[simp] theorem setPinmap_pinmap (i : Nat) (p : Byte) (s : State) : (s.setPinmap i p).pinmap = s.pinmap.setIfInBounds i p := rfl
@[simp] theorem setPinmap_micro (i : Nat) (p : Byte) (s : State) : (s.setPinmap i p).micro = s.micro := rfl
@[simp] theorem setPinmap_locals (i : Nat) (p : Byte) (s : State) : (s.setPinmap i p).locals = s.locals := rfl
@[simp] theorem setPinmap_pins (i : Nat) (p : Byte) (s : State) : (s.setPinmap i p).pins = s.pins := rfl
@[simp] theorem setPinmap_actions (i : Nat) (p : Byte) (s : State) : (s.setPinmap i p).actions = s.actions := rfl
@[simp] theorem setPinmap_hostData (i : Nat) (p : Byte) (s : State) : (s.setPinmap i p).hostData = s.hostData := rfl
@[simp] theorem setPinmap_world (i : Nat) (p : Byte) (s : State) : (s.setPinmap i p).world = s.world := rfl
@[simp] theorem setPinmap_draws (i : Nat) (p : Byte) (s : State) : (s.setPinmap i p).draws = s.draws := rfl

@[simp] theorem bankUp_busy (n : Byte) (v : Bool) (s : State) : (s.bankUp n v).busy = s.busy := rfl
@[simp] theorem bankUp_err (n : Byte) (v : Bool) (s : State) : (s.bankUp n v).err = s.err := rfl
@[simp] theorem bankUp_result (n : Byte) (v : Bool) (s : State) : (s.bankUp n v).result = s.result := rfl
@[simp] theorem bankUp_lastcmd (n : Byte) (v : Bool) (s : State) : (s.bankUp n v).lastcmd = s.lastcmd := rfl
@[simp] theorem bankUp_cv (n : Byte) (v : Bool) (s : State) : (s.bankUp n v).cv = s.cv := rfl
@[simp] theorem bankUp_ovr (n : Byte) (v : Bool) (s : State) : (s.bankUp n v).ovr = s.ovr := rfl
@[simp] theorem bankUp_sstate (n : Byte) (v : Bool) (s : State) : (s.bankUp n v).sstate = s.sstate := rfl
@[simp] theorem bankUp_enabled (n : Byte) (v : Bool) (s : State) : (s.bankUp n v).enabled = s.enabled := rfl
@[simp] theorem bankUp_atime (n : Byte) (v : Bool) (s : State) : (s.bankUp n v).atime = s.atime := rfl
@[simp] theorem bankUp_gain (n : Byte) (v : Bool) (s : State) : (s.bankUp n v).gain = s.gain := rfl
@[simp] theorem bankUp_lbinit (n : Byte) (v : Bool) (s : State) : (s.bankUp n v).lbinit = true := rfl
@[simp] theorem bankUp_inverted (n : Byte) (v : Bool) (s : State) : (s.bankUp n v).inverted = v := rfl
@[simp] theorem bankUp_ledcount (n : Byte) (v : Bool) (s : State) : (s.bankUp n v).ledcount = n := rfl
@[simp] theorem bankUp_ledStates (n : Byte) (v : Bool) (s : State) : (s.bankUp n v).ledStates = Vector.replicate Config.nledMax false := rfl
@[simp] theorem bankUp_pinmap (n : Byte) (v : Bool) (s : State) : (s.bankUp n v).pinmap = s.pinmap := rfl
@[simp] theorem bankUp_micro (n : Byte) (v : Bool) (s : State) : (s.bankUp n v).micro = s.micro := rfl
@[simp] theorem bankUp_locals (n : Byte) (v : Bool) (s : State) : (s.bankUp n v).locals = s.locals := rfl
@[simp] theorem bankUp_pins (n : Byte) (v : Bool) (s : State) : (s.bankUp n v).pins = s.pins := rfl
@[simp] theorem bankUp_actions (n : Byte) (v : Bool) (s : State) : (s.bankUp n v).actions = s.actions := rfl
@[simp] theorem bankUp_hostData (n : Byte) (v : Bool) (s : State) : (s.bankUp n v).hostData = s.hostData := rfl
@[simp] theorem bankUp_world (n : Byte) (v : Bool) (s : State) : (s.bankUp n v).world = s.world := rfl
@[simp] theorem bankUp_draws (n : Byte) (v : Bool) (s : State) : (s.bankUp n v).draws = s.draws := rfl

@[simp] theorem updPin_busy (p : Byte) (f : PinState → PinState) (s : State) : (s.updPin p f).busy = s.busy := rfl
@[simp] theorem updPin_err (p : Byte) (f : PinState → PinState) (s : State) : (s.updPin p f).err = s.err := rfl
@[simp] theorem updPin_result (p : Byte) (f : PinState → PinState) (s : State) : (s.updPin p f).result = s.result := rfl
@[simp] theorem updPin_lastcmd (p : Byte) (f : PinState → PinState) (s : State) : (s.updPin p f).lastcmd = s.lastcmd := rfl
@[simp] theorem updPin_cv (p : Byte) (f : PinState → PinState) (s : State) : (s.updPin p f).cv = s.cv := rfl
@[simp] theorem updPin_ovr (p : Byte) (f : PinState → PinState) (s : State) : (s.updPin p f).ovr = s.ovr := rfl
@[simp] theorem updPin_sstate (p : Byte) (f : PinState → PinState) (s : State) : (s.updPin p f).sstate = s.sstate := rfl
@[simp] theorem updPin_enabled (p : Byte) (f : PinState → PinState) (s : State) : (s.updPin p f).enabled = s.enabled := rfl
@[simp] theorem updPin_atime (p : Byte) (f : PinState → PinState) (s : State) : (s.updPin p f).atime = s.atime := rfl
@[simp] theorem updPin_gain (p : Byte) (f : PinState → PinState) (s : State) : (s.updPin p f).gain = s.gain := rfl
@[simp] theorem updPin_lbinit (p : Byte) (f : PinState → PinState) (s : State) : (s.updPin p f).lbinit = s.lbinit := rfl
@[simp] theorem updPin_inverted (p : Byte) (f : PinState → PinState) (s : State) : (s.updPin p f).inverted = s.inverted := rfl
@[simp] theorem updPin_ledcount (p : Byte) (f : PinState → PinState) (s : State) : (s.updPin p f).ledcount = s.ledcount := rfl
@[simp] theorem updPin_ledStates (p : Byte) (f : PinState → PinState) (s : State) : (s.updPin p f).ledStates = s.ledStates := rfl
@[simp] theorem updPin_pinmap (p : Byte) (f : PinState → PinState) (s : State) : (s.updPin p f).pinmap = s.pinmap := rfl
@[simp] theorem updPin_micro (p : Byte) (f : PinState → PinState) (s : State) : (s.updPin p f).micro = s.micro := rfl
@[simp] theorem updPin_locals (p : Byte) (f : PinState → PinState) (s : State) : (s.updPin p f).locals = s.locals := rfl
@[simp] theorem updPin_pins (p : Byte) (f : PinState → PinState) (s : State) : (s.updPin p f).pins = s.pins.set p.toNat (f (s.pins.get p.toNat)) := rfl
@[simp] theorem updPin_actions (p : Byte) (f : PinState → PinState) (s : State) : (s.updPin p f).actions = s.actions := rfl
@[simp] theorem updPin_hostData (p : Byte) (f : PinState → PinState) (s : State) : (s.updPin p f).hostData = s.hostData := rfl
@[simp] theorem updPin_world (p : Byte) (f : PinState → PinState) (s : State) : (s.updPin p f).world = s.world := rfl
@[simp] theorem updPin_draws (p : Byte) (f : PinState → PinState) (s : State) : (s.updPin p f).draws = s.draws := rfl

@[simp] theorem setHostData_busy (w : Word) (s : State) : (s.setHostData w).busy = s.busy := rfl
@[simp] theorem setHostData_err (w : Word) (s : State) : (s.setHostData w).err = s.err := rfl
@[simp] theorem setHostData_result (w : Word) (s : State) : (s.setHostData w).result = s.result := rfl
@[simp] theorem setHostData_lastcmd (w : Word) (s : State) : (s.setHostData w).lastcmd = s.lastcmd := rfl
@[simp] theorem setHostData_cv (w : Word) (s : State) : (s.setHostData w).cv = s.cv := rfl
@[simp] theorem setHostData_ovr (w : Word) (s : State) : (s.setHostData w).ovr = s.ovr := rfl
@[simp] theorem setHostData_sstate (w : Word) (s : State) : (s.setHostData w).sstate = s.sstate := rfl
@[simp] theorem setHostData_enabled (w : Word) (s : State) : (s.setHostData w).enabled = s.enabled := rfl
@[simp] theorem setHostData_atime (w : Word) (s : State) : (s.setHostData w).atime = s.atime := rfl
@[simp] theorem setHostData_gain (w : Word) (s : State) : (s.setHostData w).gain = s.gain := rfl
@[simp] theorem setHostData_lbinit (w : Word) (s : State) : (s.setHostData w).lbinit = s.lbinit := rfl
@[simp] theorem setHostData_inverted (w : Word) (s : State) : (s.setHostData w).inverted = s.inverted := rfl
@[simp] theorem setHostData_ledcount (w : Word) (s : State) : (s.setHostData w).ledcount = s.ledcount := rfl
@[simp] theorem setHostData_ledStates (w : Word) (s : State) : (s.setHostData w).ledStates = s.ledStates := rfl
@[simp] theorem setHostData_pinmap (w : Word) (s : State) : (s.setHostData w).pinmap = s.pinmap := rfl
@[simp] theorem setHostData_micro (w : Word) (s : State) : (s.setHostData w).micro = s.micro := rfl
@[simp] theorem setHostData_locals (w : Word) (s : State) : (s.setHostData w).locals = s.locals := rfl
@[simp] theorem setHostData_pins (w : Word) (s : State) : (s.setHostData w).pins = s.pins := rfl
@[simp] theorem setHostData_actions (w : Word) (s : State) : (s.setHostData w).actions = s.actions := rfl
@[simp] theorem setHostData_hostData (w : Word) (s : State) : (s.setHostData w).hostData = some w := rfl
@[simp] theorem setHostData_world (w : Word) (s : State) : (s.setHostData w).world = s.world := rfl
@[simp] theorem setHostData_draws (w : Word) (s : State) : (s.setHostData w).draws = s.draws := rfl

@[simp] theorem resetBlock_busy (s : State) : (s.resetBlock).busy = State.reset.busy := rfl
@[simp] theorem resetBlock_err (s : State) : (s.resetBlock).err = State.reset.err := rfl
@[simp] theorem resetBlock_result (s : State) : (s.resetBlock).result = State.reset.result := rfl
@[simp] theorem resetBlock_lastcmd (s : State) : (s.resetBlock).lastcmd = State.reset.lastcmd := rfl
@[simp] theorem resetBlock_cv (s : State) : (s.resetBlock).cv = State.reset.cv := rfl
@[simp] theorem resetBlock_ovr (s : State) : (s.resetBlock).ovr = State.reset.ovr := rfl
@[simp] theorem resetBlock_sstate (s : State) : (s.resetBlock).sstate = State.reset.sstate := rfl
@[simp] theorem resetBlock_enabled (s : State) : (s.resetBlock).enabled = State.reset.enabled := rfl
@[simp] theorem resetBlock_atime (s : State) : (s.resetBlock).atime = State.reset.atime := rfl
@[simp] theorem resetBlock_gain (s : State) : (s.resetBlock).gain = State.reset.gain := rfl
@[simp] theorem resetBlock_lbinit (s : State) : (s.resetBlock).lbinit = State.reset.lbinit := rfl
@[simp] theorem resetBlock_inverted (s : State) : (s.resetBlock).inverted = State.reset.inverted := rfl
@[simp] theorem resetBlock_ledcount (s : State) : (s.resetBlock).ledcount = State.reset.ledcount := rfl
@[simp] theorem resetBlock_ledStates (s : State) : (s.resetBlock).ledStates = State.reset.ledStates := rfl
@[simp] theorem resetBlock_pinmap (s : State) : (s.resetBlock).pinmap = State.reset.pinmap := rfl
@[simp] theorem resetBlock_micro (s : State) : (s.resetBlock).micro = State.reset.micro := rfl
@[simp] theorem resetBlock_locals (s : State) : (s.resetBlock).locals = State.reset.locals := rfl
@[simp] theorem resetBlock_pins (s : State) : (s.resetBlock).pins = s.pins.afterReset := rfl
@[simp] theorem resetBlock_actions (s : State) : (s.resetBlock).actions = s.actions := rfl
@[simp] theorem resetBlock_hostData (s : State) : (s.resetBlock).hostData = s.hostData := rfl
@[simp] theorem resetBlock_world (s : State) : (s.resetBlock).world = s.world := rfl
@[simp] theorem resetBlock_draws (s : State) : (s.resetBlock).draws = s.draws := rfl

end Sys2Proof.Machine.State
end

