-- ==== Sys2Proof/Laws/Run.lean ====
section
/-! SUPPORT. What the run of a command's steps can do, said once: the equations of `run` in an uninterrupted world, the
cases of one step, and the induction every invariant of a run goes through. -/

namespace Sys2Proof.Machine

/-! ### Replies and lingering -/

theorem lingering_eq_none {s : State} : s.lingering = none ↔ calm s.world := by
  unfold State.lingering calm
  rcases s.world with _ | ⟨x, w⟩
  · simp
  · cases x <;> simp

theorem lingering_eq_some {s s' : State} : s.lingering = some s' ↔
    ∃ w, s.world = .linger :: w ∧ s' = s.withWorld w := by
  unfold State.lingering
  split <;> simp_all [eq_comm]

/-- The reply an operation finds, in all cases: the next stimulus, a free value, or none yet; nothing of the state but the
stimuli and the count of free values changes. -/
theorem nextReply_cases (s : State) :
    (∃ r w, s.world = .ret r :: w ∧ s.nextReply = (some r, s.withWorld w)) ∨
    (s.world = [] ∧ s.nextReply = (Config.freeReply s.draws, s.draw)) ∨ s.nextReply = (none, s) := by
  unfold State.nextReply
  split <;> simp_all

/-- Two states agree on everything but what is to arrive, the count of free values and the actions issued. -/
def sameBlock (s t : State) : Prop :=
  t = { s with world := t.world, draws := t.draws, actions := t.actions }

theorem sameBlock.of_withWorld (s : State) (w : List Stimulus) : sameBlock s (s.withWorld w) := rfl


theorem sameBlock.busy {s t : State} (h : sameBlock s t) : t.busy = s.busy := by rw [h]
theorem sameBlock.err {s t : State} (h : sameBlock s t) : t.err = s.err := by rw [h]
theorem sameBlock.result {s t : State} (h : sameBlock s t) : t.result = s.result := by rw [h]
theorem sameBlock.lastcmd {s t : State} (h : sameBlock s t) : t.lastcmd = s.lastcmd := by rw [h]
theorem sameBlock.cv {s t : State} (h : sameBlock s t) : t.cv = s.cv := by rw [h]
theorem sameBlock.ovr {s t : State} (h : sameBlock s t) : t.ovr = s.ovr := by rw [h]
theorem sameBlock.sstate {s t : State} (h : sameBlock s t) : t.sstate = s.sstate := by rw [h]
theorem sameBlock.enabled {s t : State} (h : sameBlock s t) : t.enabled = s.enabled := by rw [h]
theorem sameBlock.atime {s t : State} (h : sameBlock s t) : t.atime = s.atime := by rw [h]
theorem sameBlock.gain {s t : State} (h : sameBlock s t) : t.gain = s.gain := by rw [h]
theorem sameBlock.lbinit {s t : State} (h : sameBlock s t) : t.lbinit = s.lbinit := by rw [h]
theorem sameBlock.inverted {s t : State} (h : sameBlock s t) : t.inverted = s.inverted := by rw [h]
theorem sameBlock.ledcount {s t : State} (h : sameBlock s t) : t.ledcount = s.ledcount := by rw [h]
theorem sameBlock.ledStates {s t : State} (h : sameBlock s t) : t.ledStates = s.ledStates := by rw [h]
theorem sameBlock.pinmap {s t : State} (h : sameBlock s t) : t.pinmap = s.pinmap := by rw [h]
theorem sameBlock.micro {s t : State} (h : sameBlock s t) : t.micro = s.micro := by rw [h]
theorem sameBlock.locals {s t : State} (h : sameBlock s t) : t.locals = s.locals := by rw [h]
theorem sameBlock.pins {s t : State} (h : sameBlock s t) : t.pins = s.pins := by rw [h]
theorem sameBlock.hostData {s t : State} (h : sameBlock s t) : t.hostData = s.hostData := by rw [h]

theorem nextReply_same (s : State) : sameBlock s s.nextReply.2 := by
  obtain ⟨r, w, -, h⟩ | ⟨-, h⟩ | h := nextReply_cases s <;> rw [h] <;> rfl

theorem nextReply_actions (s : State) : s.nextReply.2.actions = s.actions := by
  obtain ⟨r, w, -, h⟩ | ⟨-, h⟩ | h := nextReply_cases s <;> rw [h] <;> rfl

/-! ### One step -/

theorem start_internal {op : Op} {s : State} (h : op.action s = none) :
    op.start s = .ofExcept s (op.internal s) := by
  simp [Op.start, h]

/-- What one step of a command can do: a step inside the block, or an issued operation that returns at once or waits. -/
theorem start_cases (op : Op) (s : State) :
    (op.action s = none ∧ op.start s = .ofExcept s (op.internal s)) ∨
    ∃ a u, op.action s = some a ∧ u.actions = s.actions ++ [a] ∧ sameBlock s u ∧
      ((∃ r, op.start s = .ofExcept u (op.finish r u)) ∨ op.start s = .waiting u) := by
  cases h : op.action s with
  | none => exact .inl ⟨rfl, start_internal h⟩
  | some a =>
    refine .inr ⟨a, (s.emit a).nextReply.2, rfl, nextReply_actions _, ?_, ?_⟩
    · have := nextReply_same (s.emit a)
      rw [sameBlock] at this
      rw [sameBlock, this]
      rfl
    · simp only [Op.start, h]
      split
      · rename_i r s' hr
        exact .inl ⟨r, by rw [hr]⟩
      · rename_i s' hr
        exact .inr (by rw [hr])

theorem ofExcept_passed {s s' : State} {x : Except ErrCode State} (h : OpOutcome.ofExcept s x = .passed s') :
    x = .ok s' := by
  cases x <;> simp_all [OpOutcome.ofExcept]

theorem ofExcept_raised {s s' : State} {x : Except ErrCode State} {e : ErrCode}
    (h : OpOutcome.ofExcept s x = .raised e s') : x = .error e ∧ s' = s := by
  cases x <;> simp_all [OpOutcome.ofExcept]

theorem ofExcept_not_waiting {s s' : State} {x : Except ErrCode State} (h : OpOutcome.ofExcept s x = .waiting s') :
    False := by
  cases x <;> simp [OpOutcome.ofExcept] at h

/-- A step that passes: a step inside the block, or an operation issued and returned. -/
theorem start_passed {op : Op} {s s' : State} (h : op.start s = .passed s') :
    (op.action s = none ∧ op.internal s = .ok s') ∨
    ∃ a u r, op.action s = some a ∧ u.actions = s.actions ++ [a] ∧ sameBlock s u ∧ op.finish r u = .ok s' := by
  obtain ⟨ha, hs⟩ | ⟨a, u, ha, hu, hsame, ⟨r, hs⟩ | hs⟩ := start_cases op s
  · rw [hs] at h; exact .inl ⟨ha, ofExcept_passed h⟩
  · rw [hs] at h; exact .inr ⟨a, u, r, ha, hu, hsame, ofExcept_passed h⟩
  · rw [hs] at h; cases h

/-- A step that raises, and the state it raises in. -/
theorem start_raised {op : Op} {s s' : State} {e : ErrCode} (h : op.start s = .raised e s') :
    (op.action s = none ∧ op.internal s = .error e ∧ s' = s) ∨
    ∃ a r, op.action s = some a ∧ s'.actions = s.actions ++ [a] ∧ sameBlock s s' ∧ op.finish r s' = .error e := by
  obtain ⟨ha, hs⟩ | ⟨a, u, ha, hu, hsame, ⟨r, hs⟩ | hs⟩ := start_cases op s
  · rw [hs] at h; exact .inl ⟨ha, (ofExcept_raised h).1, (ofExcept_raised h).2⟩
  · rw [hs] at h
    obtain ⟨h1, rfl⟩ := ofExcept_raised h
    exact .inr ⟨a, r, ha, hu, hsame, h1⟩
  · rw [hs] at h; cases h

/-- A step that waits: an operation issued and not returned. -/
theorem start_waiting {op : Op} {s s' : State} (h : op.start s = .waiting s') :
    ∃ a, op.action s = some a ∧ s'.actions = s.actions ++ [a] ∧ sameBlock s s' := by
  obtain ⟨ha, hs⟩ | ⟨a, u, ha, hu, hsame, ⟨r, hs⟩ | hs⟩ := start_cases op s
  · rw [hs] at h; exact (ofExcept_not_waiting h).elim
  · rw [hs] at h; exact (ofExcept_not_waiting h).elim
  · rw [hs] at h; cases h; exact ⟨a, ha, hu, hsame⟩

/-- An issued operation whose return is the next stimulus. -/
theorem start_ret {op : Op} {s : State} {a : Action} {r : Reply} {w : List Stimulus} (ha : op.action s = some a)
    (hw : s.world = .ret r :: w) :
    op.start s = .ofExcept ((s.emit a).withWorld w) (op.finish r ((s.emit a).withWorld w)) := by
  simp [Op.start, ha, State.nextReply, hw]

/-! ### Runs in an uninterrupted world -/

theorem run_nil {s : State} (h : calm s.world) : run [] s = s.endOk := by
  simp [run, lingering_eq_none.2 h]

/-- A step inside the block that takes effect. -/
theorem run_internal {op : Op} {rest : List Op} {s s' : State} (hc : calm s.world) (ha : op.action s = none)
    (hi : op.internal s = .ok s') : run (op :: rest) s = run rest s' := by
  simp [run, lingering_eq_none.2 hc, start_internal ha, hi, OpOutcome.ofExcept]

/-- A step inside the block that raises. -/
theorem run_internal_raise {op : Op} {rest : List Op} {s : State} {e : ErrCode} (hc : calm s.world)
    (ha : op.action s = none) (hi : op.internal s = .error e) : run (op :: rest) s = raiseAt rest e s := by
  simp [run, lingering_eq_none.2 hc, start_internal ha, hi, OpOutcome.ofExcept]

theorem calm_ret (r : Reply) (w : List Stimulus) : calm (.ret r :: w) := by simp [calm]

theorem calm_nil : calm [] := by simp [calm]

/-- An operation that returns at once and takes effect. -/
theorem run_ret {op : Op} {rest : List Op} {s s' : State} {a : Action} {r : Reply} {w : List Stimulus}
    (hw : s.world = .ret r :: w) (ha : op.action s = some a)
    (hf : op.finish r ((s.emit a).withWorld w) = .ok s') : run (op :: rest) s = run rest s' := by
  have hc : calm s.world := by rw [hw]; exact calm_ret r w
  simp [run, lingering_eq_none.2 hc, start_ret ha hw, hf, OpOutcome.ofExcept]

/-- An operation that returns at once and raises. -/
theorem run_ret_raise {op : Op} {rest : List Op} {s : State} {a : Action} {r : Reply} {w : List Stimulus} {e : ErrCode}
    (hw : s.world = .ret r :: w) (ha : op.action s = some a)
    (hf : op.finish r ((s.emit a).withWorld w) = .error e) :
    run (op :: rest) s = raiseAt rest e ((s.emit a).withWorld w) := by
  have hc : calm s.world := by rw [hw]; exact calm_ret r w
  simp [run, lingering_eq_none.2 hc, start_ret ha hw, hf, OpOutcome.ofExcept]

/-! ### The induction of a run -/

/-- What `run` comes to, case by case: the work goes on when a stimulus says so, the command ends, raises, waits, or passes
one step. A property of results that each ending has, for the steps then to do, holds of every run. -/
theorem run_induction {P : List Op → State → Prop} {Q : State → Prop}
    (linger : ∀ ops s w, P ops s → s.world = .linger :: w → Q ((s.withWorld w).suspend (.work :: ops)))
    (finish : ∀ s, P [] s → calm s.world → Q s.endOk)
    (passed : ∀ op rest s s', P (op :: rest) s → op.start s = .passed s' → P rest s')
    (raised : ∀ op rest s e s', P (op :: rest) s → op.start s = .raised e s' → Q (raiseAt rest e s'))
    (waiting : ∀ op rest s s', P (op :: rest) s → op.start s = .waiting s' → Q (s'.suspend (op :: rest)))
    (ops : List Op) (s : State) (h : P ops s) : Q (run ops s) := by
  induction ops generalizing s with
  | nil =>
    unfold run
    split
    · rename_i s' hl
      obtain ⟨w, hw, rfl⟩ := lingering_eq_some.1 hl
      exact linger [] s w h hw
    · rename_i hl
      exact finish s h (lingering_eq_none.1 hl)
  | cons op rest ih =>
    unfold run
    split
    · rename_i s' hl
      obtain ⟨w, hw, rfl⟩ := lingering_eq_some.1 hl
      exact linger (op :: rest) s w h hw
    · split
      · exact ih _ (passed op rest s _ h ‹_›)
      · exact raised op rest s _ _ h ‹_›
      · exact waiting op rest s _ h ‹_›

/-! ### What an effect can be -/

/-- The effect of an outstanding operation's return, in all cases. -/
theorem finish_ok_cases {op : Op} {r : Reply} {s t : State} (h : op.finish r s = .ok t) :
    t = s ∨ (∃ v, t = s.setByte v) ∨ (∃ x v, t = s.setPair x v) ∨
    (∃ p, op = .pinOpen p ∧ t = s.updPin p fun x => { x with claimed := true }) ∨
    (∃ p, op = .pinSetOutput p ∧ t = s.updPin p fun x => { x with output := true }) ∨
    (∃ p l, op = .pinWrite p l ∧ t = s.updPin p fun x => { x with level := some l }) := by
  cases op <;> simp only [Op.finish] at h <;> (try split at h) <;> cases h
  all_goals first
    | exact .inl rfl
    | exact .inr (.inl ⟨_, rfl⟩)
    | exact .inr (.inr (.inl ⟨_, _, rfl⟩))
    | exact .inr (.inr (.inr (.inl ⟨_, rfl, rfl⟩)))
    | exact .inr (.inr (.inr (.inr (.inl ⟨_, rfl, rfl⟩))))
    | exact .inr (.inr (.inr (.inr (.inr ⟨_, _, rfl, rfl⟩))))

/-- Only a bus transaction or a claim can fail when it returns, each with its own code. -/
theorem finish_error_cases {op : Op} {r : Reply} {s : State} {e : ErrCode} (h : op.finish r s = .error e) :
    (op.isTransaction = true ∧ e = .busError) ∨ ((∃ p, op = .pinOpen p) ∧ e = .pinUnavailable) := by
  cases op <;> simp only [Op.finish] at h <;> (try split at h) <;> cases h <;> simp [Op.isTransaction]

/-- Only the identity check raises inside the block. -/
theorem internal_error_cases {op : Op} {s : State} {e : ErrCode} (h : op.internal s = .error e) :
    op = .checkId ∧ e = .identityMismatch := by
  cases op <;> simp only [Op.internal] at h <;> (try split at h) <;> cases h
  simp

end Sys2Proof.Machine
end

