-- ==== Sys2Proof/Laws/Step.lean ====
section
/-! SUPPORT. What a step can do, said once: the cases of one step, of a command's start and of a return, which every proof
about steps cites instead of unfolding the step. -/

namespace Sys2Proof.Machine

/-! ### A command's start -/

/-- What a command comes to: it is rejected at once with a contract violation, or its steps run, after the one write a LED
command makes before its first step. -/
inductive Started (s : State) : Instr → State → Prop where
  | rejected (i : Instr) (e : ErrCode) : e.isContract = true → Started s i (s.raise e)
  | bwr (reg v : Byte) : Started s (.bwr reg v) (run [.memWrite reg v] s)
  | brd (reg : Byte) : Started s (.brd reg) (run [.memRead reg, .resultByte] s)
  | brd2 (reg : Byte) : Started s (.brd2 reg) (run [.memReadPair reg .v, .resultPair] s)
  | enable : Started s .enable (run (guardOps s ++ enableBody) s)
  | disable : Started s .disable (run (guardOps s ++ [.memRead Target.regEnable,
      .memWriteMasked Target.regEnable (~~~(Target.pon ||| Target.aen)), .setEnabled false]) s)
  | setatime (c : Byte) : atimeLegal c = true →
      Started s (.setatime c) (run (guardOps s ++ [.setAtime c, .memWrite Target.regAtime c]) s)
  | setgain (c : Byte) : gainLegal c = true →
      Started s (.setgain c) (run (guardOps s ++ [.setGain c, .memWrite Target.regControl c]) s)
  | readrgb : Started s .readrgb (run (guardOps s ++ [.memReadPair Target.regCdatal .c,
      .memReadPair Target.regRdatal .r, .memReadPair Target.regGdatal .g, .memReadPair Target.regBdatal .b,
      .resultRgb]) s)
  | ledpin (index pin : Byte) : index.toNat < Config.nledMax → s.lbinit = false →
      Started s (.ledpin index pin) (run [] (s.setPinmap index.toNat pin))
  | ledinit (count : Byte) (inv : Bool) : countLegal count = true → s.lbinit = false →
      Started s (.ledinit count inv) (run (claimOps inv (s.bankPins count.toNat) ++ [.bankUp count inv]) s)
  | setled (index : Byte) (v : Bool) : index.toNat < s.ledcount.toNat →
      Started s (.setled index v)
        (run [.pinWrite (s.pinOf index.toNat) (ledLevel v s.inverted)] (s.setLed index.toNat v))
  | getled (index : Byte) : index.toNat < s.ledcount.toNat →
      Started s (.getled index) (run [] (s.setResult ((bit (s.led index.toNat)).zeroExtend 32)))

/-- Every command answers a next state, and it is one of these (no command faults or is refused). -/
theorem exec_started {i : Instr} {s t : State} (h : exec i s = .next t) : Started s i t := by
  cases i with
  | bwr reg v => cases h; exact .bwr reg v
  | brd reg => cases h; exact .brd reg
  | brd2 reg => cases h; exact .brd2 reg
  | enable => cases h; exact .enable
  | disable => cases h; exact .disable
  | setatime c =>
    simp only [exec, execSetatime, Host.Outcome.next.injEq] at h
    split at h <;> subst h
    · exact .setatime c ‹_›
    · exact .rejected _ _ rfl
  | setgain c =>
    simp only [exec, execSetgain, Host.Outcome.next.injEq] at h
    split at h <;> subst h
    · exact .setgain c ‹_›
    · exact .rejected _ _ rfl
  | readrgb => cases h; exact .readrgb
  | ledpin index pin =>
    simp only [exec, execLedpin, Host.Outcome.next.injEq] at h
    split at h
    · subst h; exact .rejected _ _ rfl
    · split at h <;> subst h
      · exact .rejected _ _ rfl
      · exact .ledpin index pin (by omega) (by simp_all)
  | ledinit count inv =>
    simp only [exec, execLedinit, Host.Outcome.next.injEq] at h
    split at h
    · split at h <;> subst h
      · exact .rejected _ _ rfl
      · exact .ledinit count inv ‹_› (by simp_all)
    · subst h; exact .rejected _ _ rfl
  | setled index v =>
    simp only [exec, execSetled, Host.Outcome.next.injEq] at h
    split at h <;> subst h
    · exact .rejected _ _ rfl
    · exact .setled index v (by omega)
  | getled index =>
    simp only [exec, execGetled, Host.Outcome.next.injEq] at h
    split at h <;> subst h
    · exact .rejected _ _ rfl
    · exact .getled index (by omega)

/-- Every command answers a next state. -/
theorem exec_next (i : Instr) (s : State) : ∃ t, exec i s = .next t := by
  cases i <;> exact ⟨_, rfl⟩

/-! ### A return -/

/-- What a return does: nothing with nothing outstanding; else the operation takes effect and the rest runs, or it raises. -/
theorem resume_cases (r : Reply) (s : State) :
    (s.micro = [] ∧ resume r s = s) ∨
    (∃ op rest s', s.micro = op :: rest ∧ op.finish r s = .ok s' ∧ resume r s = run rest s') ∨
    ∃ op rest e, s.micro = op :: rest ∧ op.finish r s = .error e ∧ resume r s = raiseAt rest e s := by
  unfold resume
  split
  · exact .inl ⟨‹_›, rfl⟩
  · rename_i op rest hm
    cases hf : op.finish r s with
    | ok s' => exact .inr (.inl ⟨op, rest, s', hm, hf, by simp⟩)
    | error e => exact .inr (.inr ⟨op, rest, e, hm, hf, by simp⟩)

/-- The return that ends the block's own work, whatever it brings. -/
theorem resume_work {s : State} {rest : List Op} (r : Reply) (h : s.micro = .work :: rest) : resume r s = run rest s := by
  simp [resume, h, Op.finish]

/-- An outstanding operation, no stimulus being left, returns as the free value says, or does not. -/
theorem unprompted_outstanding {s : State} {op : Op} {rest : List Op} (h : s.micro = op :: rest) (ho : op ≠ .work) :
    unprompted s = match Config.freeReply s.draws with
      | some r => resume r s.draw
      | none => s.draw := by
  unfold unprompted
  split
  · simp_all
  · simp_all
  · rfl

/-- What happens with no stimulus left: nothing, one more free value, a return drawn as one, or the end of the block's own
work, which is a return too. -/
theorem unprompted_cases (s : State) :
    unprompted s = s ∨ unprompted s = s.draw ∨ (∃ r, unprompted s = resume r s.draw) ∨
      ∃ rest, s.micro = .work :: rest ∧ unprompted s = resume default s := by
  unfold unprompted
  split
  · exact .inl rfl
  · rename_i rest hm
    exact .inr (.inr (.inr ⟨rest, hm, (resume_work _ hm).symm⟩))
  · split
    · exact .inr (.inr (.inl ⟨_, rfl⟩))
    · exact .inr (.inl rfl)

/-! ### A step -/

/-- What a step can do, by what arrives. -/
inductive Stepped (s : State) : State → Prop where
  | quiet : s.world = [] → Stepped s (unprompted s)
  | returned (r : Reply) (w : List Stimulus) : s.world = .ret r :: w → Stepped s (resume r (s.withWorld w))
  | lingered (w : List Stimulus) : s.world = .linger :: w → Stepped s (s.withWorld w)
  | wasReset (w : List Stimulus) : s.world = .reset :: w → Stepped s (s.withWorld w).resetBlock
  | released (p : Byte) (w : List Stimulus) : s.world = .pinReleased p :: w →
      Stepped s ((s.withWorld w).updPin p fun x => { x with claimed := false })
  | read (off : Int) (n : Nat) (reg : HostReg) (w : List Stimulus) : s.world = .access (.read off n) :: w →
      Stepped s (hostRead reg (s.withWorld w))
  | ignored (off : Int) (n : Nat) (v : Word) (w : List Stimulus) : s.world = .access (.write off n v) :: w →
      Stepped s (s.withWorld w)
  | dropped (v : Word) (w : List Stimulus) : s.world = .access (.write 0x00 4 v) :: w → s.busy = true →
      Stepped s (s.withWorld w).dropWord
  | illegal (v : Word) (e : Illegal) (w : List Stimulus) : s.world = .access (.write 0x00 4 v) :: w →
      s.busy = false → decode v = .error e → Stepped s (((s.withWorld w).accept v).raise .illegalCommand)
  | command (v : Word) (i : Instr) (w : List Stimulus) (t : State) : s.world = .access (.write 0x00 4 v) :: w →
      s.busy = false → decode v = .ok i → Started ((s.withWorld w).accept v) i t → Stepped s t

theorem hostWrite_busy {s : State} (v : Word) (h : s.busy = true) : hostWrite .cmd v s = .next s.dropWord := by
  simp [hostWrite, h]

theorem hostWrite_idle {s : State} (v : Word) (h : s.busy = false) : hostWrite .cmd v s = runWord v s := by
  simp [hostWrite, h]

/-- A read while idle returns the register. -/
theorem hostRead_idle {s : State} (r : HostReg) (h : s.busy = false) : hostRead r s = s.setHostData (s.regWord r) := by
  simp [hostRead, h]

/-- What a read can do: the read data changes, and perhaps the count of free values. -/
theorem hostRead_cases (r : HostReg) (s : State) :
    ∃ d, hostRead r s = s.setHostData d ∨ hostRead r s = (s.setHostData d).draw := by
  cases hb : s.busy with
  | false => exact ⟨_, .inl (hostRead_idle r hb)⟩
  | true =>
    cases r <;> simp only [hostRead, hb, if_true]
    · exact ⟨_, .inl rfl⟩
    all_goals exact ⟨_, .inr rfl⟩

theorem atOffset_cmd {off : Int} (h : HostReg.atOffset off = some .cmd) : off = 0 := by
  unfold HostReg.atOffset at h
  repeat' split at h
  all_goals first | assumption | cases h

theorem step_stepped {s t : State} (h : step s = .next t) : Stepped s t := by
  unfold step stepWorld at h
  split at h
  · cases h; exact .quiet ‹_›
  · rename_i x w hw
    cases x with
    | ret r => cases h; exact .returned r w hw
    | linger => cases h; exact .lingered w hw
    | reset => cases h; exact .wasReset w hw
    | pinReleased p => cases h; exact .released p w hw
    | access a =>
      simp only [react, hostAccess] at h
      split at h
      · cases h
      · rename_i reg hreg
        cases a with
        | read off n => cases h; exact .read off n reg w hw
        | write off n v =>
          cases reg with
          | status => cases h; exact .ignored off n v w hw
          | result => cases h; exact .ignored off n v w hw
          | config => cases h; exact .ignored off n v w hw
          | cmd =>
            simp only [HostAccess.reg] at hreg
            split at hreg
            · rename_i hn
              have hoff := atOffset_cmd hreg
              subst hn hoff
              change hostWrite .cmd v (s.withWorld w) = .next t at h
              cases hb : s.busy with
              | true =>
                rw [hostWrite_busy (s := s.withWorld w) v hb] at h
                cases h; exact .dropped v w hw hb
              | false =>
                rw [hostWrite_idle (s := s.withWorld w) v hb, runWord] at h
                split at h
                · exact .command v _ w t hw hb ‹_› (exec_started h)
                · cases h; exact .illegal v _ w hw hb ‹_›
            · cases hreg

end Sys2Proof.Machine
end

