-- ==== Sys2Proof/Laws/Driver.lean ====
section
/-! SUPPORT. The laws of the driver's steps: which steps can be outstanding, what a return leaves of the driver state, how
the lawful walk goes on, and the whole begin sequence in an uninterrupted world (41_sensor_driver.md R121, R122, R126). -/

namespace Sys2Proof.Machine

/-- A step that issues an action can be outstanding. -/
theorem waits_of_action {op : Op} {s : State} {a : Action} (ha : op.action s = some a) : op.waits = true := by
  cases op <;> simp [Op.action] at ha <;> rfl

/-- A step that can be outstanding does not move the driver state. -/
theorem walk_waits {op : Op} (h : op.waits = true) (x : SState) (ops : List Op) :
    lawfulWalk x (op :: ops) = lawfulWalk x ops := by
  cases op <;> simp [Op.waits] at h <;> rfl

/-- A walk that starts outside UNINIT does not enter the begin sequence again. -/
theorem walk_no_begin {ops : List Op} {x : SState} (hx : x ≠ .uninit) (h : lawfulWalk x ops = true) :
    Op.setVerifying ∉ ops := by
  induction ops generalizing x with
  | nil => simp
  | cons op ops ih =>
    cases op <;> simp [lawfulWalk, hx] at h <;> first
      | exact fun hm => ih hx h (by simpa using hm)
      | exact fun hm => ih (by simp) h.2 (by simpa using hm)

/-- A walk that starts in VERIFYING is inside the `try` block of `Begin` (R122). -/
theorem walk_verifying {ops : List Op} (h : lawfulWalk .verifying ops = true) : inTry ops = true := by
  have hmem : Op.setReady ∈ ops := by
    induction ops with
    | nil => simp [lawfulWalk] at h
    | cons op ops ih =>
      cases op <;> simp [lawfulWalk] at h <;> simp <;> exact ih h
  simp [inTry, hmem, walk_no_begin (by simp) h]

/-- A return leaves the driver's fields and BUSY. -/
theorem finish_driver {op : Op} {r : Reply} {s t : State} (h : op.finish r s = .ok t) :
    t.busy = s.busy ∧ t.sstate = s.sstate ∧ t.enabled = s.enabled ∧ t.atime = s.atime ∧ t.gain = s.gain := by
  obtain rfl | ⟨v, rfl⟩ | ⟨x, v, rfl⟩ | ⟨p, -, rfl⟩ | ⟨p, -, rfl⟩ | ⟨p, l, -, rfl⟩ := finish_ok_cases h
  all_goals simp

/-- The guard has nothing to do once the begin sequence is done (R121). -/
theorem guardOps_of_begun {s : State} (h : s.sstate ≠ .uninit) : guardOps s = [] := by simp [guardOps, h]

/-- The begin sequence, every transaction of it succeeding, and then the body (R122, R126). -/
theorem run_begin {s : State} {r0 r1 r2 r3 r4 r5 : Reply} {w : List Stimulus} (ops : List Op)
    (hu : s.sstate = .uninit) (hw : s.world = rets [r0, r1, r2, r3, r4, r5] ++ w) (h0 : r0.ok = true)
    (hi : r0.b0 = 0x44#8) (h1 : r1.ok = true) (h2 : r2.ok = true) (h3 : r3.ok = true) (h5 : r5.ok = true)
    (hc : calm w) :
    run (guardOps s ++ ops) s = run ops { s with
      world := w
      actions := s.actions ++
        [.busWriteRead 0x29 [0x92] 1, .busWrite 0x29 [0x81, s.atime], .busWrite 0x29 [0x8F, s.gain],
         .busWrite 0x29 [0x80, 0x01], .delay 3, .busWrite 0x29 [0x80, 0x03]]
      sstate := .ready, enabled := true, locals := { s.locals with byte := 0x44#8 } } := by
  simp only [guardOps, hu, if_true, beginOps, enableBody, List.cons_append, List.nil_append, rets, List.map_cons,
    List.map_nil] at hw ⊢
  rw [run_ret hw rfl (by simp [Op.finish, h0]; rfl)]
  rw [run_internal (calm_ret _ _) rfl (by simp [Op.internal, hi, Config.idExpected]; rfl)]
  rw [run_internal (calm_ret _ _) rfl rfl]
  rw [run_ret rfl rfl (by simp [Op.finish, h1]; rfl)]
  rw [run_ret rfl rfl (by simp [Op.finish, h2]; rfl)]
  rw [run_ret rfl rfl (by simp [Op.finish, h3]; rfl)]
  rw [run_ret rfl rfl (by simp [Op.finish]; rfl)]
  rw [run_ret rfl rfl (by simp [Op.finish, h5]; rfl)]
  rw [run_internal hc rfl rfl]
  rw [run_internal hc rfl rfl]
  simp only [State.setSstate, State.setEnabled, State.emit, State.withWorld, State.setByte, List.append_assoc,
    List.cons_append, List.nil_append, Config.devAddr, wireByte, Config.cmdBit, Target.regId, Target.regAtime,
    Target.regControl, Target.regEnable, Target.pon, Target.aen, Config.tSettleMs]
  rfl

end Sys2Proof.Machine
end

