-- ==== Sys2Proof/Laws/Bank.lean ====
section
/-! SUPPORT. The laws of the LED bank: what each step does to the bank and the pins it drives, and what the claims of
LEDINIT come to (43_led_driver.md R181, R187, R193). The pin record stays canonical through every step of the machine
(log 9). -/

namespace Sys2Proof.Machine

/-! ### The pin record stays canonical -/

theorem finish_pins_wf {op : Op} {r : Reply} {s t : State} (h : op.finish r s = .ok t) (hw : s.pins.wf = true) :
    t.pins.wf = true := by
  obtain rfl | ⟨v, rfl⟩ | ⟨x, v, rfl⟩ | ⟨p, -, rfl⟩ | ⟨p, -, rfl⟩ | ⟨p, l, -, rfl⟩ := finish_ok_cases h
  all_goals simp [hw, Pins.set_wf]

theorem internal_pins {op : Op} {s t : State} (h : op.internal s = .ok t) : t.pins = s.pins := by
  cases op <;> simp only [Op.internal] at h <;> (try split at h) <;> cases h <;> simp

theorem raiseAt_pins (rest : List Op) (e : ErrCode) (s : State) : (raiseAt rest e s).pins = s.pins := by
  unfold raiseAt; split <;> simp

theorem run_pins_wf (ops : List Op) (s : State) (h : s.pins.wf = true) : (run ops s).pins.wf = true := by
  apply run_induction (P := fun _ s => s.pins.wf = true) (Q := fun s => s.pins.wf = true) ?_ ?_ ?_ ?_ ?_ ops s h
  · intro ops s w h _; simpa
  · intro s h _; simpa
  · intro op rest s s' h hs
    obtain ⟨_, hi⟩ | ⟨a, u, r, _, _, hu, hf⟩ := start_passed hs
    · rw [internal_pins hi]; exact h
    · exact finish_pins_wf hf (by rw [hu.pins]; exact h)
  · intro op rest s e s' h hs
    rw [raiseAt_pins]
    obtain ⟨_, _, rfl⟩ | ⟨a, r, _, _, hu, hf⟩ := start_raised hs
    · exact h
    · rw [hu.pins]; exact h
  · intro op rest s s' h hs
    obtain ⟨a, _, _, hu⟩ := start_waiting hs
    simp [hu.pins, h]

theorem resume_pins_wf (r : Reply) (s : State) (h : s.pins.wf = true) : (resume r s).pins.wf = true := by
  obtain ⟨_, hr⟩ | ⟨op, rest, s', _, hf, hr⟩ | ⟨op, rest, e, _, hf, hr⟩ := resume_cases r s <;> rw [hr]
  · exact h
  · exact run_pins_wf _ _ (finish_pins_wf hf h)
  · rw [raiseAt_pins]; exact h

theorem started_pins_wf {i : Instr} {s t : State} (h : Started s i t) (hw : s.pins.wf = true) : t.pins.wf = true := by
  cases h with
  | rejected e => simpa
  | _ => exact run_pins_wf _ _ (by simpa)

/-- Every step keeps the canonical form of the pin record. -/
theorem step_pins_wf {s t : State} (hw : s.pins.wf = true) (h : step s = .next t) : t.pins.wf = true := by
  cases step_stepped h with
  | quiet hworld =>
    obtain h | h | ⟨r, h⟩ | ⟨rest, -, h⟩ := unprompted_cases s <;> rw [h]
    · exact hw
    · simpa
    · exact resume_pins_wf _ _ (by simpa)
    · exact resume_pins_wf _ _ hw
  | returned r w _ => exact resume_pins_wf _ _ (by simpa)
  | wasReset w _ => simpa using Pins.afterReset_wf hw
  | released p w _ => simp [Pins.set_wf, hw]
  | read off n reg w _ =>
    obtain ⟨d, h | h⟩ := hostRead_cases reg (s.withWorld w) <;> simp [h, hw]
  | command v i w _ _ _ _ hs => exact started_pins_wf hs (by simpa)
  | _ => simpa

/-- The pin record of the reset state is canonical. -/
theorem reset_pins_wf : State.reset.pins.wf = true := rfl

/-! ### One step's effect on the bank -/

theorem onBank_wf {b : Bank} (op : Op) (h : b.pins.wf = true) : (op.onBank b).pins.wf = true := by
  cases op <;> simp [Op.onBank, h, Pins.set_wf]

/-- A return has the step's effect on the bank. -/
theorem finish_bank {op : Op} {r : Reply} {s t : State} (h : op.finish r s = .ok t) (hw : op.waits = true) :
    t.busy = s.busy ∧ t.bank = op.onBank s.bank := by
  cases op <;> simp only [Op.finish] at h <;> (try split at h) <;> cases h <;> (try cases hw) <;>
    refine ⟨by simp, ?_⟩ <;> (try rename_i x _; cases x) <;> rfl

/-- A step inside the block has its effect on the bank. -/
theorem internal_bank {op : Op} {s t : State} (h : op.internal s = .ok t) (ha : op.action s = none) :
    t.busy = s.busy ∧ t.bank = op.onBank s.bank := by
  cases op <;> simp only [Op.internal] at h <;> (try split at h) <;> cases h <;> (try cases ha) <;> exact ⟨rfl, rfl⟩

theorem sameBlock.bank {s u : State} (h : sameBlock s u) : u.bank = s.bank := by rw [h]; rfl

/-- An error ending leaves the bank. -/
theorem raiseAt_bank (rest : List Op) (e : ErrCode) (s : State) :
    (raiseAt rest e s).busy = false ∧ (raiseAt rest e s).micro = [] ∧ (raiseAt rest e s).bank = s.bank := by
  unfold raiseAt; split <;> exact ⟨rfl, rfl, rfl⟩

/-! ### Several steps' effect on the bank -/

theorem settle_append (a b : List Op) (k : Bank) : Bank.settle (a ++ b) k = Bank.settle b (Bank.settle a k) := by
  induction a generalizing k with
  | nil => rfl
  | cons op a ih => simp [Bank.settle, ih]

/-- Steps of bus and driver commands leave the bank (R193). -/
theorem settle_of_not_pin {ops : List Op} (h : ∀ op ∈ ops, op.isPin = false) (b : Bank) : Bank.settle ops b = b := by
  induction ops generalizing b with
  | nil => rfl
  | cons op ops ih =>
    have h1 := h op (by simp)
    have : op.onBank b = b := by cases op <;> simp [Op.isPin] at h1 <;> rfl
    rw [Bank.settle, this]
    exact ih (fun o ho => h o (by simp [ho])) b

/-- The claims of LEDINIT, all granted: each claimed pin is an output at the off level, no other pin is touched (R187). -/
theorem claims_settle (inv : Bool) (ps : List Byte) (k : Bank) (hw : k.pins.wf = true) :
    (Bank.settle (claimOps inv ps) k).lbinit = k.lbinit ∧ (Bank.settle (claimOps inv ps) k).pinmap = k.pinmap ∧
    (Bank.settle (claimOps inv ps) k).pins.wf = true ∧
    ∀ p : Byte, (Bank.settle (claimOps inv ps) k).pins.get p.toNat =
      if p ∈ ps then ⟨true, true, some inv⟩ else k.pins.get p.toNat := by
  induction ps generalizing k with
  | nil => exact ⟨rfl, rfl, hw, by intro p; rfl⟩
  | cons q ps ih =>
    have hh : Bank.settle (claimOps inv (q :: ps)) k = Bank.settle (claimOps inv ps)
        (Op.onBank (Op.onBank (Op.onBank k (.pinOpen q)) (.pinSetOutput q)) (.pinWrite q (ledLevel false inv))) := by
      simp [claimOps, Bank.settle]
    rw [hh]
    obtain ⟨h1, h2, h3, h4⟩ := ih _ (onBank_wf (.pinWrite q (ledLevel false inv))
      (onBank_wf (.pinSetOutput q) (onBank_wf (.pinOpen q) hw)))
    refine ⟨h1, h2, h3, ?_⟩
    intro p
    rw [h4]
    by_cases hp : p ∈ ps
    · simp [hp]
    · have hne : (p.toNat = q.toNat) = (p = q) := by simp [BitVec.toNat_inj]
      simp only [hp, if_false, List.mem_cons, or_false, Op.onBank]
      have w1 := Pins.set_wf q.toNat { k.pins.get q.toNat with claimed := true } hw
      have g1 := Pins.get_set q.toNat { k.pins.get q.toNat with claimed := true } (h := hw)
      generalize k.pins.set q.toNat { k.pins.get q.toNat with claimed := true } = k1 at *
      have w2 := Pins.set_wf q.toNat { k1.get q.toNat with output := true } w1
      have g2 := Pins.get_set q.toNat { k1.get q.toNat with output := true } (h := w1)
      generalize k1.set q.toNat { k1.get q.toNat with output := true } = k2 at *
      rw [Pins.get_set _ _ _ w2, g2 q.toNat, g2 p.toNat, g1 q.toNat, g1 p.toNat]
      simp only [hne]
      by_cases hpq : p = q <;> simp [hpq, ledLevel]

/-- The levels a bank settles to do not depend on claims and directions. -/
theorem settle_levels (ops : List Op) (b c : Bank) (h1 : b.lbinit = c.lbinit) (h2 : b.inverted = c.inverted)
    (h3 : b.ledcount = c.ledcount) (h4 : b.ledStates = c.ledStates) (h5 : b.pinmap = c.pinmap)
    (hb : b.pins.wf = true) (hc : c.pins.wf = true) (hl : ∀ q, (b.pins.get q).level = (c.pins.get q).level) :
    (Bank.settle ops b).lbinit = (Bank.settle ops c).lbinit ∧
    (Bank.settle ops b).inverted = (Bank.settle ops c).inverted ∧
    (Bank.settle ops b).ledcount = (Bank.settle ops c).ledcount ∧
    (Bank.settle ops b).ledStates = (Bank.settle ops c).ledStates ∧
    (Bank.settle ops b).pinmap = (Bank.settle ops c).pinmap ∧
    ∀ q, ((Bank.settle ops b).pins.get q).level = ((Bank.settle ops c).pins.get q).level := by
  induction ops generalizing b c with
  | nil => exact ⟨h1, h2, h3, h4, h5, hl⟩
  | cons op ops ih =>
    refine ih _ _ ?_ ?_ ?_ ?_ ?_ (onBank_wf op hb) (onBank_wf op hc) ?_
    · cases op <;> first | exact h1 | rfl
    · cases op <;> first | exact h2 | rfl
    · cases op <;> first | exact h3 | rfl
    · cases op <;> first | exact h4 | rfl
    · cases op <;> exact h5
    · intro q
      cases op <;> first | exact hl q | skip
      all_goals
        simp only [Op.onBank]
        rw [Pins.get_set _ _ _ hb, Pins.get_set _ _ _ hc]
        split
        · simp [hl]
        · exact hl q

/-- Read after write of one LED's logical value. -/
theorem led_set (v : Vector Bool Config.nledMax) (i j : Nat) (x : Bool) (hi : i < Config.nledMax) :
    ((v.setIfInBounds i x)[j]?).getD false = if j = i then x else (v[j]?).getD false := by
  rw [Vector.getElem?_setIfInBounds]
  by_cases h : i = j
  · subst h; simp [hi]
  · have : ¬ j = i := fun h' => h h'.symm
    simp [h, this]

end Sys2Proof.Machine
end

