-- ==== Sys2Proof/Laws/Course.lean ====
section
/-! SUPPORT. The laws of a command's whole course: what a step can do while a command is in progress, and that a run which
waits goes on, when its operation returns, as the run that did not wait (10_state.md R31, 20_memory.md R63). -/

namespace Sys2Proof.Machine

/-! ### A step while a command is in progress -/

/-- Only what lies outside the command in progress differs: the stimuli, the count of free values, the last read data, the
sticky bits and the pin record. -/
def outsideOnly (s t : State) : Prop :=
  t = { s with world := t.world, draws := t.draws, hostData := t.hostData, cv := t.cv, ovr := t.ovr, pins := t.pins }

/-- A step that is no reset, while a command is in progress: something outside the command changes, or an operation of the
command (or its own work) returns. -/
theorem step_in_progress {s t : State} (hb : s.busy = true) (hr : s.world.head? ≠ some .reset) (h : step s = .next t) :
    ∃ u, outsideOnly s u ∧ (t = u ∨ ∃ r, t = resume r u) := by
  cases step_stepped h with
  | quiet hworld =>
    obtain h | h | ⟨r, h⟩ | ⟨rest, -, h⟩ := unprompted_cases s <;> rw [h]
    exacts [⟨s, by rfl, .inl rfl⟩, ⟨s.draw, by rfl, .inl rfl⟩, ⟨s.draw, by rfl, .inr ⟨r, rfl⟩⟩,
      ⟨s, by rfl, .inr ⟨default, rfl⟩⟩]
  | returned r w _ => exact ⟨s.withWorld w, by rfl, .inr ⟨r, rfl⟩⟩
  | lingered w _ => exact ⟨_, by rfl, .inl rfl⟩
  | wasReset w hw => simp [hw] at hr
  | released p w _ => exact ⟨_, by rfl, .inl rfl⟩
  | read off n reg w _ =>
    obtain ⟨d, h | h⟩ := hostRead_cases reg (s.withWorld w) <;> rw [h] <;> exact ⟨_, by rfl, .inl rfl⟩
  | ignored off n v w _ => exact ⟨_, by rfl, .inl rfl⟩
  | dropped v w _ _ => exact ⟨_, by rfl, .inl rfl⟩
  | illegal v e w _ hi _ => simp [hb] at hi
  | command v i w t _ hi _ _ => simp [hb] at hi

/-- The induction of a course: what the first step leaves, what outside changes keep and what every return keeps holds
throughout. -/
theorem course_induction {i : Instr} {s t : State} {P : State → Prop} (first : ∀ u, exec i s = .next u → P u)
    (outside : ∀ u v, P u → outsideOnly u v → P v)
    (returned : ∀ u r, u.busy = true → P u → P (resume r u)) (h : Course i s t) : P t := by
  induction h with
  | first h => exact first _ h
  | @more u v _ hb hr hs ih =>
    obtain ⟨x, hx, rfl | ⟨r, rfl⟩⟩ := step_in_progress hb hr hs
    · exact outside _ _ ih hx
    · exact returned x r (by rw [hx]; exact hb) (outside _ _ ih hx)

/-! ### Fields a running command does not read -/

/-- `s` with the fields of `x` that no step of a running command reads: what is to arrive, the count of free values, the last
read data, the sticky bits, and the steps it was suspended with. -/
def State.outer (x s : State) : State :=
  { s with world := x.world, draws := x.draws, hostData := x.hostData, cv := x.cv, ovr := x.ovr, micro := x.micro }

theorem action_outer (op : Op) (x s : State) : op.action (x.outer s) = op.action s := by cases op <;> rfl

theorem finish_outer (op : Op) (r : Reply) (x s : State) :
    op.finish r (x.outer s) = (op.finish r s).map x.outer := by
  cases op <;> simp only [Op.finish] <;> (try split) <;> (try rfl)
  all_goals (rename_i y _; cases y <;> rfl)

theorem internal_outer (op : Op) (x s : State) : op.internal (x.outer s) = (op.internal s).map x.outer := by
  cases op <;> first
    | rfl
    | (change (if s.locals.byte = _ then _ else _) = Except.map _ (if s.locals.byte = _ then _ else _); split <;> rfl)

theorem nextReply_outer (x s : State) : (x.outer s).nextReply = (x.nextReply.1, x.nextReply.2.outer s) := by
  unfold State.nextReply
  split
  all_goals
    rename_i h
    rw [show x.world = _ from h]
    first | rfl | (split <;> simp_all)

/-- The start of an operation: it is issued, and the reply it finds depends on the fields outside alone. -/
theorem start_outer {op : Op} {x s : State} {a : Action} (ha : op.action s = some a) :
    op.start (x.outer s) = match x.nextReply.1 with
      | some r => .ofExcept (x.nextReply.2.outer (s.emit a)) ((op.finish r (s.emit a)).map x.nextReply.2.outer)
      | none => .waiting (x.nextReply.2.outer (s.emit a)) := by
  have hn : ((x.outer s).emit a).nextReply = _ := nextReply_outer x (s.emit a)
  simp only [Op.start, action_outer, ha, hn]
  split <;> rename_i h <;> obtain ⟨h1, rfl⟩ := Prod.mk.inj h <;> simp only [h1, finish_outer]

/-- States that agree on what is to arrive and on the count of free values find the same reply. -/
theorem nextReply_agrees {x y : State} (hw : x.world = y.world) (hd : x.draws = y.draws) :
    y.nextReply.1 = x.nextReply.1 ∧ x.nextReply.2.world = y.nextReply.2.world ∧
    x.nextReply.2.draws = y.nextReply.2.draws ∧
    y.nextReply.2.hostData = y.hostData ∧ y.nextReply.2.cv = y.cv ∧ y.nextReply.2.ovr = y.ovr := by
  unfold State.nextReply
  rw [hw, hd]
  split <;> simp [State.withWorld, State.draw, hw, hd]

/-- The last read data and the sticky bits replaced. -/
def State.withHost (x s : State) : State := { s with hostData := x.hostData, cv := x.cv, ovr := x.ovr }

/-- An error a run can raise is no contract violation. -/
theorem raiseAt_withHost {e : ErrCode} (he : e.isContract = false) (rest : List Op) (x s : State) (y : State)
    (hw : x.world = y.world) (hd : x.draws = y.draws) :
    raiseAt rest e (y.outer s) = y.withHost (raiseAt rest e (x.outer s)) := by
  unfold raiseAt
  split <;> simp [State.raise, State.revertBegin, State.outer, State.withHost, he, hw, hd]

theorem finish_not_contract {op : Op} {r : Reply} {s : State} {e : ErrCode} (h : op.finish r s = .error e) :
    e.isContract = false := by
  obtain ⟨-, rfl⟩ | ⟨-, rfl⟩ := finish_error_cases h <;> rfl

/-- What a run reads of the fields outside: what is to arrive and the count of free values; the last read data and the
sticky bits it hands on as they are. -/
theorem run_withHost (ops : List Op) (s x y : State) (hw : x.world = y.world) (hd : x.draws = y.draws) :
    run ops (y.outer s) = y.withHost (run ops (x.outer s)) := by
  induction ops generalizing s x y with
  | nil =>
    unfold run State.lingering
    rw [show (x.outer s).world = y.world from hw, show (y.outer s).world = y.world from rfl]
    split <;> rename_i h <;> split at h <;> cases h <;>
      simp [State.withWorld, State.suspend, State.outer, State.withHost, State.endOk, hw, hd]
  | cons op ops ih =>
    by_cases hc : calm y.world
    · have hcx : calm x.world := by rw [hw]; exact hc
      rw [run, run, (lingering_eq_none (s := y.outer s)).2 hc, (lingering_eq_none (s := x.outer s)).2 hcx]
      cases ha : op.action s with
      | none =>
        simp only [start_internal (s := y.outer s) (by rw [action_outer, ha]),
          start_internal (s := x.outer s) (by rw [action_outer, ha]), internal_outer]
        cases hi : op.internal s with
        | ok t => exact ih t x y hw hd
        | error e =>
          obtain ⟨-, rfl⟩ := internal_error_cases hi
          exact raiseAt_withHost rfl ops x s y hw hd
      | some a =>
        obtain ⟨h1, h2, h3, h4, h5, h6⟩ := nextReply_agrees hw hd
        rw [start_outer (x := y) ha, start_outer (x := x) ha, h1]
        cases x.nextReply.1 with
        | none => simp [State.suspend, State.outer, State.withHost, h2, h3, h4, h5, h6]
        | some r =>
          cases hf : op.finish r (s.emit a) with
          | ok t => simpa [OpOutcome.ofExcept, hf, Except.map, State.withHost, h4, h5, h6] using ih t _ _ h2 h3
          | error e =>
            simpa [OpOutcome.ofExcept, hf, Except.map, State.withHost, h4, h5, h6] using
              raiseAt_withHost (finish_not_contract hf) ops _ (s.emit a) _ h2 h3
    · have hy : ∃ w, y.world = .linger :: w := by
        rcases h : y.world with _ | ⟨z, w⟩ <;> simp [calm, h] at hc
        exact ⟨w, by rw [hc]⟩
      obtain ⟨w, hy⟩ := hy
      rw [run, run, (lingering_eq_some (s := y.outer s)).2 ⟨w, hy, rfl⟩,
        (lingering_eq_some (s := x.outer s)).2 ⟨w, hw.trans hy, rfl⟩]
      simp [State.withWorld, State.suspend, State.outer, State.withHost, hd]

/-- A run does not read the steps the command was suspended with. -/
theorem run_suspend (ops m : List Op) (s : State) : run ops (s.suspend m) = run ops s :=
  (run_withHost ops s s (s.suspend m) rfl rfl).trans (run_withHost ops s s s rfl rfl).symm

/-- A return hands on the last read data and the sticky bits, whatever was read or dropped while it was awaited. -/
theorem resume_withHost (r : Reply) (s x : State) : resume r (x.withHost s) = x.withHost (resume r s) := by
  unfold resume
  rw [show (x.withHost s).micro = s.micro from rfl]
  split
  · rfl
  · rename_i op rest h
    rw [show op.finish r s = op.finish r (s.outer s) from rfl,
      show op.finish r (x.withHost s) = op.finish r ((x.withHost s).outer s) from rfl, finish_outer, finish_outer]
    cases hf : op.finish r s with
    | ok t => exact run_withHost rest t s (x.withHost s) rfl rfl
    | error e => exact raiseAt_withHost (finish_not_contract hf) rest s s (x.withHost s) rfl rfl

theorem outer_withWorld {x : State} {z : List Stimulus} (h : x.world = z) (s : State) :
    x.outer s = (x.withWorld z).outer s := by subst h; rfl

theorem outer_calm {x : State} {q : Reply} {rs : List Reply} {z : List Stimulus} (h : x.world = rets (q :: rs) ++ z)
    (s : State) : calm (x.outer s).world := by
  rw [show (x.outer s).world = _ from h]; exact calm_ret _ _

/-- A run, whatever answers stand first: the command has ended when they run out, or what is left of it runs from there on,
and both without regard to what comes after them or to the fields no step reads. -/
theorem run_rets (ops : List Op) (s : State) (rs : List Reply) :
    (∀ (x : State) (z : List Stimulus), x.world = rets rs ++ z → (run ops (x.outer s)).busy = false ∧ (run ops (x.outer s)).micro = []) ∨
    ∃ rest u, u.busy = s.busy ∧ ∀ (x : State) (z : List Stimulus), x.world = rets rs ++ z →
      run ops (x.outer s) = run rest ((x.withWorld (z)).outer u) := by
  induction ops generalizing s rs with
  | nil =>
    cases rs with
    | nil => exact .inr ⟨[], s, rfl, fun x z h => by rw [outer_withWorld (by simpa [rets] using h)]⟩
    | cons q rs =>
      refine .inl fun x z h => ?_
      rw [run_nil (outer_calm h s)]
      exact ⟨rfl, rfl⟩
  | cons op ops ih =>
    cases rs with
    | nil => exact .inr ⟨op :: ops, s, rfl, fun x z h => by rw [outer_withWorld (by simpa [rets] using h)]⟩
    | cons q rs =>
      cases ha : op.action s with
      | none =>
        cases hi : op.internal s with
        | ok t =>
          have hstep : ∀ (x : State) (z : List Stimulus), x.world = rets (q :: rs) ++ z → run (op :: ops) (x.outer s) = run ops (x.outer t) := by
            intro x z h
            exact run_internal (outer_calm h s)
              (by rw [action_outer, ha]) (by rw [internal_outer, hi]; rfl)
          obtain h | ⟨rest, u, hu, h⟩ := ih t (q :: rs)
          · exact .inl fun x z hx => by rw [hstep x z hx]; exact h x z hx
          · exact .inr ⟨rest, u, by rw [hu]; exact (internal_bank hi ha).1, fun x z hx => by rw [hstep x z hx]; exact h x z hx⟩
        | error e =>
          refine .inl fun x z h => ?_
          rw [run_internal_raise (e := e) (outer_calm h s)
              (by rw [action_outer, ha]) (by rw [internal_outer, hi]; rfl)]
          exact ⟨(raiseAt_bank _ _ _).1, (raiseAt_bank _ _ _).2.1⟩
      | some a =>
        cases hf : op.finish q (s.emit a) with
        | ok t =>
          have hstep : ∀ (x : State) (z : List Stimulus), x.world = rets (q :: rs) ++ z →
              run (op :: ops) (x.outer s) = run ops ((x.withWorld (rets rs ++ z)).outer t) := by
            intro x z h
            exact run_ret (r := q) (w := rets rs ++ z) h (by rw [action_outer, ha])
              ((finish_outer op q (x.withWorld (rets rs ++ z)) (s.emit a)).trans (by rw [hf]; rfl))
          obtain h | ⟨rest, u, hu, h⟩ := ih t rs
          · exact .inl fun x z hx => by rw [hstep x z hx]; exact h _ z rfl
          · exact .inr ⟨rest, u, by rw [hu, (finish_driver hf).1]; rfl, fun x z hx => by rw [hstep x z hx]; exact h _ z rfl⟩
        | error e =>
          refine .inl fun x z h => ?_
          rw [run_ret_raise (s := x.outer s) (r := q) (e := e) (w := rets rs ++ z) h (by rw [action_outer, ha])
            ((finish_outer op q (x.withWorld (rets rs ++ z)) (s.emit a)).trans (by rw [hf]; rfl))]
          exact ⟨(raiseAt_bank _ _ _).1, (raiseAt_bank _ _ _).2.1⟩

/-- A run in a world where something other than a return or a lingering comes first: the command ends before it waits, or an
operation waits, and in a world where its return comes first instead the run goes on as from that return. -/
theorem run_waits (ops : List Op) (s : State) :
    (∀ (x : State) (y : Stimulus) (w : List Stimulus), x.world = y :: w → (∀ r, y ≠ .ret r) → y ≠ .linger →
      (run ops (x.outer s)).busy = false) ∨
    ∃ op rest u, u.busy = s.busy ∧
      (∀ (x : State) (y : Stimulus) (w : List Stimulus), x.world = y :: w → (∀ r, y ≠ .ret r) → y ≠ .linger →
        run ops (x.outer s) = (x.outer u).suspend (op :: rest)) ∧
      ∀ (x : State) (r : Reply) (w : List Stimulus), x.world = .ret r :: w →
        run ops (x.outer s) = resume r (((x.withWorld w).outer u).suspend (op :: rest)) := by
  have hcalm : ∀ (x : State) (y : Stimulus) (w : List Stimulus) (u : State), x.world = y :: w → y ≠ .linger →
      calm (x.outer u).world := by
    intro x y w u h hl
    rw [show (x.outer u).world = _ from h]; simpa [calm] using hl
  induction ops generalizing s with
  | nil =>
    refine .inl fun x y w h hr hl => ?_
    rw [run_nil (hcalm x y w s h hl)]; rfl
  | cons op ops ih =>
    cases ha : op.action s with
    | none =>
      cases hi : op.internal s with
      | ok t =>
        have hstep : ∀ (x : State) (y : Stimulus) (w : List Stimulus), x.world = y :: w → y ≠ .linger →
            run (op :: ops) (x.outer s) = run ops (x.outer t) := fun x y w h hl =>
          run_internal (hcalm x y w s h hl) (by rw [action_outer, ha]) (by rw [internal_outer, hi]; rfl)
        obtain h | ⟨op', rest, u, hu, h1, h2⟩ := ih t
        · exact .inl fun x y w hx hr hl => by rw [hstep x y w hx hl]; exact h x y w hx hr hl
        · exact .inr ⟨op', rest, u, by rw [hu]; exact (internal_bank hi ha).1,
            fun x y w hx hr hl => by rw [hstep x y w hx hl]; exact h1 x y w hx hr hl,
            fun x r w hx => by rw [hstep x _ w hx nofun]; exact h2 x r w hx⟩
      | error e =>
        refine .inl fun x y w h hr hl => ?_
        rw [run_internal_raise (e := e) (hcalm x y w s h hl) (by rw [action_outer, ha])
          (by rw [internal_outer, hi]; rfl)]
        exact (raiseAt_bank _ _ _).1
    | some a =>
      refine .inr ⟨op, ops, s.emit a, rfl, fun x y w h hr hl => ?_, fun x r w h => ?_⟩
      · have hn : ((x.outer s).emit a).nextReply = (none, (x.outer s).emit a) := by
          unfold State.nextReply
          have hw : ((x.outer s).emit a).world = y :: w := h
          split <;> simp_all
        rw [run, lingering_eq_none.2 (hcalm x y w s h hl)]
        simp only [Op.start, action_outer, ha, hn]
        rfl
      · let y := (x.withWorld w).suspend (op :: ops)
        have hy : ((x.withWorld w).outer (s.emit a)).suspend (op :: ops) = y.outer (s.emit a) := rfl
        rw [hy]
        simp only [resume, show (y.outer (s.emit a)).micro = op :: ops from rfl, finish_outer]
        cases hf : op.finish r (s.emit a) with
        | ok t =>
          rw [run_ret (s := x.outer s) h (by rw [action_outer, ha])
            ((finish_outer op r (x.withWorld w) (s.emit a)).trans (by rw [hf]; rfl))]
          exact (run_suspend ops (op :: ops) ((x.withWorld w).outer t)).symm
        | error e =>
          rw [run_ret_raise (s := x.outer s) h (by rw [action_outer, ha])
            ((finish_outer op r (x.withWorld w) (s.emit a)).trans (by rw [hf]; rfl))]
          unfold raiseAt
          split <;> rfl

/-! ### A command -/

/-- A command is rejected at once, or its steps run; which of the two, and which steps, does not depend on the fields
outside. -/
theorem exec_outer (i : Instr) (s : State) :
    (∃ e, ∀ x : State, exec i (x.outer s) = .next ((x.outer s).raise e)) ∨
    ∃ ops u, u.busy = s.busy ∧ ∀ x : State, exec i (x.outer s) = .next (run ops (x.outer u)) := by
  cases i with
  | setatime c =>
    by_cases h : atimeLegal c = true
    · exact .inr ⟨guardOps s ++ [.setAtime c, .memWrite Target.regAtime c], s, rfl, fun x => by
        simp only [exec, execSetatime, h, if_true]; rfl⟩
    · exact .inl ⟨.badOperand, fun x => by simp only [exec, execSetatime, h]; rfl⟩
  | setgain c =>
    by_cases h : gainLegal c = true
    · exact .inr ⟨guardOps s ++ [.setGain c, .memWrite Target.regControl c], s, rfl, fun x => by
        simp only [exec, execSetgain, h, if_true]; rfl⟩
    · exact .inl ⟨.badOperand, fun x => by simp only [exec, execSetgain, h]; rfl⟩
  | ledpin index pin =>
    by_cases h : index.toNat ≥ Config.nledMax
    · exact .inl ⟨.indexOutOfRange, fun x => by simp only [exec, execLedpin, h, if_true]⟩
    · by_cases hb : s.lbinit = true
      · exact .inl ⟨.badState, fun x => by
          simp only [exec, execLedpin, h, if_false, show (x.outer s).lbinit = true from hb, if_true]⟩
      · exact .inr ⟨[], s.setPinmap index.toNat pin, rfl, fun x => by
          simp only [exec, execLedpin, h, if_false, show ¬ (x.outer s).lbinit = true from hb]; rfl⟩
  | ledinit count inv =>
    by_cases h : countLegal count = true
    · by_cases hb : s.lbinit = true
      · exact .inl ⟨.badState, fun x => by
          simp only [exec, execLedinit, h, if_true, show (x.outer s).lbinit = true from hb]⟩
      · exact .inr ⟨claimOps inv (s.bankPins count.toNat) ++ [.bankUp count inv], s, rfl, fun x => by
          simp only [exec, execLedinit, h, if_true, show ¬ (x.outer s).lbinit = true from hb]; rfl⟩
    · exact .inl ⟨.badOperand, fun x => by simp only [exec, execLedinit, h]; rfl⟩
  | setled index v =>
    by_cases h : index.toNat ≥ s.ledcount.toNat
    · exact .inl ⟨.indexOutOfRange, fun x => by
        simp only [exec, execSetled, show index.toNat ≥ (x.outer s).ledcount.toNat from h, if_true]⟩
    · exact .inr ⟨[.pinWrite (s.pinOf index.toNat) (ledLevel v s.inverted)], s.setLed index.toNat v, rfl, fun x => by
        simp only [exec, execSetled, show ¬ index.toNat ≥ (x.outer s).ledcount.toNat from h, if_false]; rfl⟩
  | getled index =>
    by_cases h : index.toNat ≥ s.ledcount.toNat
    · exact .inl ⟨.indexOutOfRange, fun x => by
        simp only [exec, execGetled, show index.toNat ≥ (x.outer s).ledcount.toNat from h, if_true]⟩
    · exact .inr ⟨[], s.setResult ((bit (s.led index.toNat)).zeroExtend 32), rfl, fun x => by
        simp only [exec, execGetled, show ¬ index.toNat ≥ (x.outer s).ledcount.toNat from h, if_false]; rfl⟩
  | enable => exact .inr ⟨guardOps s ++ enableBody, s, rfl, fun x => rfl⟩
  | disable => exact .inr ⟨guardOps s ++ [.memRead Target.regEnable,
      .memWriteMasked Target.regEnable (~~~(Target.pon ||| Target.aen)), .setEnabled false], s, rfl, fun x => rfl⟩
  | readrgb => exact .inr ⟨guardOps s ++ [.memReadPair Target.regCdatal .c, .memReadPair Target.regRdatal .r,
      .memReadPair Target.regGdatal .g, .memReadPair Target.regBdatal .b, .resultRgb], s, rfl, fun x => rfl⟩
  | bwr | brd | brd2 => exact .inr ⟨_, s, rfl, fun x => rfl⟩

end Sys2Proof.Machine
end

