-- ==== Sys2Proof/Laws/Encoding.lean ====
section
/-! SUPPORT. The laws of the command word's fields: what each field of a composed word is, and that a word with zero
reserved fields is composed of its fields (30_encoding.md R80). -/

namespace Sys2Proof

theorem append_toNat {m n : Nat} (x : BitVec m) (y : BitVec n) : (x ++ y).toNat = x.toNat * 2 ^ n + y.toNat := by
  rw [BitVec.toNat_append, ← Nat.shiftLeft_add_eq_or_of_lt y.isLt, Nat.shiftLeft_eq]

theorem field_toNat {w : Nat} (x : BitVec w) (i n : Nat) : (x.extractLsb' i n).toNat = x.toNat / 2 ^ i % 2 ^ n := by
  simp [Nat.shiftRight_eq_div_pow]

@[simp] theorem opc_commandWord (o : BitVec 4) (a b : Byte) : fieldOpc (commandWord o a b) = o := by
  apply BitVec.eq_of_toNat_eq
  have := o.isLt
  simp only [fieldOpc, commandWord, field_toNat, append_toNat]
  simp
  omega

@[simp] theorem z1_commandWord (o : BitVec 4) (a b : Byte) : fieldZ1 (commandWord o a b) = 0#4 := by
  apply BitVec.eq_of_toNat_eq
  simp only [fieldZ1, commandWord, field_toNat, append_toNat]
  simp
  omega

@[simp] theorem a_commandWord (o : BitVec 4) (a b : Byte) : fieldA (commandWord o a b) = a := by
  apply BitVec.eq_of_toNat_eq
  simp only [fieldA, commandWord, field_toNat, append_toNat]
  simp
  omega

@[simp] theorem b_commandWord (o : BitVec 4) (a b : Byte) : fieldB (commandWord o a b) = b := by
  apply BitVec.eq_of_toNat_eq
  simp only [fieldB, commandWord, field_toNat, append_toNat]
  simp
  omega

@[simp] theorem z0_commandWord (o : BitVec 4) (a b : Byte) : fieldZ0 (commandWord o a b) = 0#8 := by
  apply BitVec.eq_of_toNat_eq
  simp only [fieldZ0, commandWord, field_toNat, append_toNat]
  simp
  omega

/-- A word with zero reserved fields is the command word of its fields. -/
theorem commandWord_fields {w : Word} (h1 : fieldZ1 w = 0#4) (h0 : fieldZ0 w = 0#8) :
    commandWord (fieldOpc w) (fieldA w) (fieldB w) = w := by
  apply BitVec.eq_of_toNat_eq
  have e1 := congrArg BitVec.toNat h1
  have e0 := congrArg BitVec.toNat h0
  have := w.isLt
  simp only [fieldOpc, fieldZ1, fieldA, fieldB, fieldZ0, commandWord, append_toNat, field_toNat] at *
  simp at *
  omega

/-- A word is the command word of an opcode and operands exactly when its fields are. -/
theorem eq_commandWord_iff (w : Word) (o : BitVec 4) (a b : Byte) :
    w = commandWord o a b ↔ fieldOpc w = o ∧ fieldZ1 w = 0#4 ∧ fieldA w = a ∧ fieldB w = b ∧ fieldZ0 w = 0#8 := by
  constructor
  · rintro rfl; simp
  · rintro ⟨rfl, h1, rfl, rfl, h0⟩
    exact (commandWord_fields h1 h0).symm

@[simp] theorem flagByte_high (f : Bool) : (flagByte f).extractLsb' 1 7 = 0#7 := by cases f <;> decide

@[simp] theorem flagByte_bit (f : Bool) : (flagByte f).getLsbD 0 = f := by cases f <;> decide

theorem flagByte_getLsbD {b : Byte} (h : b.extractLsb' 1 7 = 0#7) : flagByte (b.getLsbD 0) = b := by
  revert b; decide

/-- Decoding a word with zero reserved fields is decoding its fields. -/
theorem decode_commandWord (o : BitVec 4) (a b : Byte) : decode (commandWord o a b) = decodeFields o a b := by
  simp [decode]

/-- A word that decodes has zero reserved fields. -/
theorem decode_ok {w : Word} {i : Instr} (h : decode w = .ok i) :
    fieldZ1 w = 0#4 ∧ fieldZ0 w = 0#8 ∧ decodeFields (fieldOpc w) (fieldA w) (fieldB w) = .ok i := by
  unfold decode at h
  split at h
  · simp_all
  · cases h

/-- A must-be-zero check that passes. -/
theorem needZero_ok {z : Bool} {i j : Instr} (h : needZero z i = .ok j) : z = true ∧ j = i := by
  unfold needZero at h
  split at h <;> cases h
  simp_all

/-! ### The opcode table -/

theorem append_inj {m n : Nat} (x x' : BitVec m) (y y' : BitVec n) : x ++ y = x' ++ y' ↔ x = x' ∧ y = y' := by
  constructor
  · intro h
    have h := congrArg BitVec.toNat h
    simp only [append_toNat] at h
    have h1 := y.isLt
    have h2 := y'.isLt
    have hx : x.toNat = x'.toNat := by
      have := congrArg (· / 2 ^ n) h
      simpa [Nat.mul_comm _ (2 ^ n), Nat.mul_add_div (Nat.two_pow_pos n), Nat.div_eq_of_lt, h1, h2] using this
    refine ⟨BitVec.eq_of_toNat_eq hx, BitVec.eq_of_toNat_eq ?_⟩
    rw [hx] at h
    omega
  · rintro ⟨rfl, rfl⟩; rfl

/-- Words put together from five fields are equal exactly when their fields are. -/
theorem fields_inj (o o' z z' : BitVec 4) (a a' b b' y y' : Byte) :
    (o ++ (z ++ (a ++ (b ++ y))) : Word) = o' ++ (z' ++ (a' ++ (b' ++ y'))) ↔
      o = o' ∧ z = z' ∧ a = a' ∧ b = b' ∧ y = y' :=
  (append_inj o o' _ _).trans (and_congr Iff.rfl ((append_inj z z' _ _).trans (and_congr Iff.rfl
    ((append_inj a a' _ _).trans (and_congr Iff.rfl (append_inj b b' y y'))))))

/-- Every word is put together from its five fields. -/
theorem fields_append (w : Word) : w = fieldOpc w ++ (fieldZ1 w ++ (fieldA w ++ (fieldB w ++ fieldZ0 w))) := by
  apply BitVec.eq_of_toNat_eq
  have := w.isLt
  simp only [fieldOpc, fieldZ1, fieldA, fieldB, fieldZ0, append_toNat, field_toNat]
  simp
  omega

/-- A row accepts a command word when it accepts each field. -/
theorem accepts_commandWord (n : String) (v m : Word) (o : BitVec 4) (a b : Byte) :
    OpRow.accepts ⟨n, v, m⟩ (commandWord o a b) =
      decide (o &&& fieldOpc m = fieldOpc v ∧ 0#4 = fieldZ1 v ∧ a &&& fieldA m = fieldA v ∧
        b &&& fieldB m = fieldB v ∧ 0#8 = fieldZ0 v) := by
  have hand : commandWord o a b &&& m = (o &&& fieldOpc m) ++ ((0#4 &&& fieldZ1 m) ++ ((a &&& fieldA m) ++
      ((b &&& fieldB m) ++ (0#8 &&& fieldZ0 m)))) := by
    conv_lhs => rw [fields_append m, commandWord]
    simp only [← BitVec.and_append]
  rw [OpRow.accepts, hand]
  conv_lhs => rw [fields_append v]
  rw [beq_eq_decide, decide_eq_decide, fields_inj, BitVec.zero_and, BitVec.zero_and]

end Sys2Proof
end

