-- ==== Sys2Proof/Laws/PerInstr.lean ====
section
/-! SUPPORT. Facts stated per command: each command's word is accepted by the command's own row of the opcode table and by
no other (30_encoding.md R81, R87). -/

namespace Sys2Proof.Laws.EncodeFitsRow

/-- Exactly one row accepts the command's word, the row of its mnemonic. -/
def Statement (i : Instr) : Prop :=
  ∃ r, opcodeTable.filter (fun r => r.accepts (encode i)) = [r] ∧ r.mnemonic = i.mnemonic

theorem bwr (reg value : Byte) : Statement (.bwr reg value) := by
  simp [Statement, encode, opcodeTable, accepts_commandWord, List.filter, fieldOpc, fieldZ1, fieldA, fieldB, fieldZ0,
    Instr.mnemonic]

theorem brd (reg : Byte) : Statement (.brd reg) := by
  simp [Statement, encode, opcodeTable, accepts_commandWord, List.filter, fieldOpc, fieldZ1, fieldA, fieldB, fieldZ0,
    Instr.mnemonic]

theorem brd2 (regLow : Byte) : Statement (.brd2 regLow) := by
  simp [Statement, encode, opcodeTable, accepts_commandWord, List.filter, fieldOpc, fieldZ1, fieldA, fieldB, fieldZ0,
    Instr.mnemonic]

theorem enable : Statement .enable := by
  simp [Statement, encode, opcodeTable, accepts_commandWord, List.filter, fieldOpc, fieldZ1, fieldA, fieldB, fieldZ0,
    Instr.mnemonic]

theorem disable : Statement .disable := by
  simp [Statement, encode, opcodeTable, accepts_commandWord, List.filter, fieldOpc, fieldZ1, fieldA, fieldB, fieldZ0,
    Instr.mnemonic]

theorem setatime (code : Byte) : Statement (.setatime code) := by
  simp [Statement, encode, opcodeTable, accepts_commandWord, List.filter, fieldOpc, fieldZ1, fieldA, fieldB, fieldZ0,
    Instr.mnemonic]

theorem setgain (code : Byte) : Statement (.setgain code) := by
  simp [Statement, encode, opcodeTable, accepts_commandWord, List.filter, fieldOpc, fieldZ1, fieldA, fieldB, fieldZ0,
    Instr.mnemonic]

theorem readrgb : Statement .readrgb := by
  simp [Statement, encode, opcodeTable, accepts_commandWord, List.filter, fieldOpc, fieldZ1, fieldA, fieldB, fieldZ0,
    Instr.mnemonic]

theorem ledpin (index pin : Byte) : Statement (.ledpin index pin) := by
  simp [Statement, encode, opcodeTable, accepts_commandWord, List.filter, fieldOpc, fieldZ1, fieldA, fieldB, fieldZ0,
    Instr.mnemonic]

theorem ledinit (count : Byte) (inverted : Bool) : Statement (.ledinit count inverted) := by
  cases inverted <;> simp [Statement, encode, opcodeTable, accepts_commandWord, List.filter, fieldOpc, fieldZ1, fieldA, fieldB, fieldZ0,
    Instr.mnemonic, flagByte]

theorem setled (index : Byte) (value : Bool) : Statement (.setled index value) := by
  cases value <;> simp [Statement, encode, opcodeTable, accepts_commandWord, List.filter, fieldOpc, fieldZ1, fieldA, fieldB, fieldZ0,
    Instr.mnemonic, flagByte]

theorem getled (index : Byte) : Statement (.getled index) := by
  simp [Statement, encode, opcodeTable, accepts_commandWord, List.filter, fieldOpc, fieldZ1, fieldA, fieldB, fieldZ0,
    Instr.mnemonic]

end Sys2Proof.Laws.EncodeFitsRow
end

