-- ==== Sys2Proof/Tests/Slice0.lean ====
section
/-! SUPPORT. Tests: expected values are taken from spec/95_test_vectors.md (the vector is named) or worked out from the rule
named; and for every obligation with hypotheses a witness that meets them all together. -/

namespace Sys2Proof.Tests

open Sys2Proof Sys2Proof.Machine

/-! ### Helpers -/

def good (b0 b1 : Byte) : Reply := ⟨true, b0, b1⟩
def ack : Reply := good 0 0
def nack : Reply := ⟨false, 0, 0⟩

/-- Reset, with something about to arrive. -/
def fresh (w : List Stimulus) : State := { State.reset with world := w }

/-- A command has been accepted. -/
def begun (w : List Stimulus) : State := { fresh w with busy := true }

/-- A command has been accepted in READY, enabled. -/
def ready (w : List Stimulus) : State := { begun w with sstate := .ready, enabled := true }

/-- An initialized bank of three LEDs on the pins 5, 6 and 7 (L5), a command having been accepted. -/
def bank (inverted : Bool) (w : List Stimulus) : State :=
  { begun w with
    lbinit := true, inverted := inverted, ledcount := 3, pinmap := #v[5, 6, 7]
    pins := [(5, ⟨true, true, some inverted⟩), (6, ⟨true, true, some inverted⟩), (7, ⟨true, true, some inverted⟩)] }

/-- A BWR whose transaction has not returned. -/
def waiting (w : List Stimulus) : State :=
  { begun w with lastcmd := 0x1000F300, micro := [.memWrite 0x00 0xF3], actions := [busW 0x00 0xF3] }

/-- What a next state satisfies. -/
def nextIs (o : Host.Outcome State Fault Refusal) (p : State → Bool) : Bool :=
  match o with
  | .next t => p t
  | .fault _ => false
  | .refused _ => false

/-- The host writes these words, each followed by what the outside world answers. -/
def issue (w : Word) (rs : List Reply) : List Stimulus := .access (.command w) :: rets rs

/-- So many steps. -/
def steps : Nat → State → Host.Outcome State Fault Refusal
  | 0, s => .next s
  | n + 1, s =>
    match step s with
    | .next t => steps n t
    | .fault f => .fault f
    | .refused r => .refused r

/-! ### Decoding, bit by bit from R87 (E1 to E28) -/

theorem test_decode_bwr : decode 0b00010000000000001111001100000000#32 = .ok (.bwr 0x00 0xF3) := by decide
theorem test_decode_brd : decode 0b00100000000100100000000000000000#32 = .ok (.brd 0x12) := by decide
theorem test_decode_brd2 : decode 0b00110000000101000000000000000000#32 = .ok (.brd2 0x14) := by decide
theorem test_decode_enable : decode 0b01000000000000000000000000000000#32 = .ok .enable := by decide
theorem test_decode_disable : decode 0b01010000000000000000000000000000#32 = .ok .disable := by decide
theorem test_decode_setatime : decode 0b01100000000000001101010100000000#32 = .ok (.setatime 0xD5) := by decide
theorem test_decode_setgain : decode 0b01110000000000000000001100000000#32 = .ok (.setgain 0x03) := by decide
theorem test_decode_readrgb : decode 0b10000000000000000000000000000000#32 = .ok .readrgb := by decide
theorem test_decode_ledpin : decode 0b10010000000000100000011100000000#32 = .ok (.ledpin 2 7) := by decide
theorem test_decode_ledinit : decode 0b10100000000000110000000100000000#32 = .ok (.ledinit 3 true) := by decide
theorem test_decode_setled : decode 0b10110000000000000000000100000000#32 = .ok (.setled 0 true) := by decide
theorem test_decode_getled : decode 0b11000000000000000000000000000000#32 = .ok (.getled 0) := by decide

/-- E1 to E4, E6 to E8. -/
theorem test_decode_rejects_reserved :
    decode 0x00000000 = .error .reservedOpcode ∧ decode 0xD0000000 = .error .reservedOpcode ∧
    decode 0xE0000000 = .error .reservedOpcode ∧ decode 0xF0000000 = .error .reservedOpcode ∧
    decode 0x40000001 = .error .reservedField ∧ decode 0x41000000 = .error .reservedField ∧
    decode 0x40010000 = .error .mustBeZero := by decide

/-- E12, E17, E24, E26, E28. -/
theorem test_decode_rejects_must_be_zero :
    decode 0x20120100 = .error .mustBeZero ∧ decode 0x6001D500 = .error .mustBeZero ∧
    decode 0xA0040200 = .error .mustBeZero ∧ decode 0xB0000200 = .error .mustBeZero ∧
    decode 0xC0000100 = .error .mustBeZero := by decide

/-- The table's numbering of an instruction is the word itself; bits above `nbits` are zero. -/
theorem test_table_word :
    decodeTableWord 32 0xA0030100 = some (.ledinit 3 true) ∧ decodeTableWord 32 0xA0030101 = none ∧
    decodeTableWord 24 0xA0030100 = none := by decide

/-! ### WellFormed: an ill-formed term for each check -/

theorem test_illegal_atime : (Instr.setatime 0x01).legal = false ∧ (Instr.setatime 0x00).legal = true := by decide
theorem test_illegal_gain : (Instr.setgain 0x04).legal = false ∧ (Instr.setgain 0x03).legal = true := by decide
theorem test_illegal_count : (Instr.ledinit 4 false).legal = false ∧ (Instr.ledinit 3 false).legal = true := by decide

theorem test_operand_too_wide :
    (AsmLine.bwr (.num 256) 0).wellFormed = false ∧ (AsmLine.bwr (.name .bdatal) 256).wellFormed = false ∧
    (AsmLine.brd (.num 256)).wellFormed = false ∧ (AsmLine.brd2 (.num 256)).wellFormed = false ∧
    (AsmLine.setatime 256).wellFormed = false ∧ (AsmLine.setgain 256).wellFormed = false ∧
    (AsmLine.ledpin 256 0).wellFormed = false ∧ (AsmLine.ledpin 0 256).wellFormed = false ∧
    (AsmLine.ledinit 256 0).wellFormed = false ∧ (AsmLine.setled 256 0).wellFormed = false := by decide

theorem test_operand_too_wide_pseudo :
    (AsmLine.getled 256).wellFormed = false ∧ (AsmLine.ledon 256).wellFormed = false ∧
    (AsmLine.ledoff 256).wellFormed = false ∧ (AsmLine.raww 256 (.num 0)).wellFormed = false ∧
    (AsmLine.post 4294967296).wellFormed = false := by decide

/-- `LEDINIT 3, 2` is rejected by the assembler (95_test_vectors.md). -/
theorem test_flag_not_a_flag :
    (AsmLine.ledinit 3 2).wellFormed = false ∧ (AsmLine.setled 0 2).wellFormed = false := by decide

/-! ### The assembler on text (95_test_vectors.md, P2, P3) -/

theorem test_assemble_numbers :
    assembleText "LEDPIN 0, 5" = some (.issue 0x90000500) ∧
    assembleText "SETATIME 0x00 ; longest" = some (.issue 0x60000000) := by decide
theorem test_assemble_names :
    assembleText "BWR ENABLE, 0xF3" = some (.issue 0x1000F300) ∧
    assembleText "BRD2 CDATAL" = some (.issue 0x30140000) := by decide
theorem test_assemble_pseudo :
    assembleText "LEDON 2" = some (.issue 0xB0020100) ∧
    assembleText "RAWW 0xF3, ENABLE" = some (.issue 0x1000F300) ∧
    assembleText "POST 0x80000000" = some (.post 0x80000000) := by decide
theorem test_assemble_rejects :
    assembleText "LEDINIT 3, 2" = none ∧ assembleText "OPEN 0x29" = none ∧ assembleText "BRD 1, 2" = none := by decide

/-! ### Raw commands -/

/-- B1. -/
theorem test_bwr : nextIs (step (fresh (issue 0x1000F300 [ack]))) (fun t =>
    t.actions == [.busWrite 0x29 [0x80, 0xF3]] && t.statusWord == 0x00000000 && t.lastcmd == 0x1000F300) = true := by
  decide
/-- B2. -/
theorem test_bwr_fails : nextIs (step (fresh (issue 0x1001D500 [nack]))) (fun t =>
    t.actions == [.busWrite 0x29 [0x81, 0xD5]] && t.statusWord == 0x00000010) = true := by decide
/-- B3. -/
theorem test_brd : nextIs (step (fresh (issue 0x20120000 [good 0x44 0]))) (fun t =>
    t.actions == [.busWriteRead 0x29 [0x92] 1] && t.result == 0x00000044 && t.sstate == .uninit) = true := by decide
/-- B5, and the address boundary 0xFF of R105. -/
theorem test_brd2 : nextIs (step (fresh (issue 0x30FF0000 [good 0x34 0x12]))) (fun t =>
    t.actions == [.busWriteRead 0x29 [0xFF] 2] && t.result == 0x00001234) = true := by decide

/-! ### Driver commands -/

def beginOk : List Reply := [good 0x44 0, ack, ack, ack, ack, ack]

/-- S-ID1. -/
theorem test_enable_from_reset : nextIs (step (fresh (issue 0x40000000 (beginOk ++ [ack, ack, ack])))) (fun t =>
    t.actions == [.busWriteRead 0x29 [0x92] 1, .busWrite 0x29 [0x81, 0x00], .busWrite 0x29 [0x8F, 0x02],
      .busWrite 0x29 [0x80, 0x01], .delay 3, .busWrite 0x29 [0x80, 0x03],
      .busWrite 0x29 [0x80, 0x01], .delay 3, .busWrite 0x29 [0x80, 0x03]] &&
    t.statusWord == 0x00000600) = true := by decide
/-- S-F4. -/
theorem test_enable_second_enable_fails : nextIs (step (fresh (issue 0x40000000 (beginOk ++ [nack])))) (fun t =>
    t.statusWord == 0x00000610 && t.actions.length == 7) = true := by decide
/-- S7. -/
theorem test_disable : nextIs (exec .disable (ready (rets [good 0xF3 0, ack]))) (fun t =>
    t.actions == [.busWriteRead 0x29 [0x80] 1, .busWrite 0x29 [0x80, 0xF0]] && t.statusWord == 0x00000200) = true := by
  decide
/-- S-ID4. -/
theorem test_disable_wrong_sensor : nextIs (step (fresh (issue 0x50000000 [good 0x00 0]))) (fun t =>
    t.statusWord == 0x00000020 && t.actions == [.busWriteRead 0x29 [0x92] 1]) = true := by decide
/-- S3. -/
theorem test_setatime_from_reset : nextIs (step (fresh (issue 0x6000D500 (beginOk ++ [ack])))) (fun t =>
    t.configWord == 0x000002D5 && t.actions.drop 1 == [.busWrite 0x29 [0x81, 0x00], .busWrite 0x29 [0x8F, 0x02],
      .busWrite 0x29 [0x80, 0x01], .delay 3, .busWrite 0x29 [0x80, 0x03], .busWrite 0x29 [0x81, 0xD5]]) = true := by
  decide
/-- S-F9. -/
theorem test_setatime_begin_fails : nextIs (step (fresh (issue 0x6000C000 [good 0x44 0, nack]))) (fun t =>
    t.configWord == 0x00000200 && t.statusWord == 0x00000010) = true := by decide
/-- S12. -/
theorem test_setgain : nextIs (exec (.setgain 0x03) (ready (rets [ack]))) (fun t =>
    t.configWord == 0x00000300 && t.actions == [.busWrite 0x29 [0x8F, 0x03]]) = true := by decide
/-- E19, R86: nothing before the rejection. -/
theorem test_setgain_bad : nextIs (step (fresh (issue 0x70000400 []))) (fun t =>
    t.statusWord == 0x00002060 && t.actions == []) = true := by decide
/-- S5, P1 line 1. -/
theorem test_readrgb_from_reset : nextIs (step (fresh (issue 0x80000000
    (beginOk ++ [good 100 0, good 50 0, good 25 0, good 10 0])))) (fun t =>
    t.result == 0x007F3F19 && t.statusWord == 0x00000600 && t.actions.drop 6 ==
      [.busWriteRead 0x29 [0x94] 2, .busWriteRead 0x29 [0x96] 2, .busWriteRead 0x29 [0x98] 2,
       .busWriteRead 0x29 [0x9A] 2]) = true := by decide
/-- S14: clear 1000, red 2000, green 1000, blue 999. -/
theorem test_readrgb_clamps : nextIs (exec .readrgb (ready (rets
    [good 0xE8 0x03, good 0xD0 0x07, good 0xE8 0x03, good 0xE7 0x03]))) (fun t => t.result == 0x00FFFFFE) = true := by
  decide

/-- Q6, Q8, Q9, Q10, Q11, Q21, Q24. -/
theorem test_quantize :
    quantize 65535 1 = 255 ∧ quantize 65535 65535 = 255 ∧ quantize 1 65535 = 0 ∧ quantize 257 65535 = 1 ∧
    quantize 2000 1000 = 255 ∧ quantize 254 255 = 254 ∧ quantize 128 256 = 127 := by decide

/-! ### LED commands -/

/-- R186's example. -/
theorem test_ledpin : nextIs (step (fresh (issue 0x90010600 []))) (fun t =>
    t.pinmap == #v[0, 6, 0] && t.actions == [] && t.err == .ok) = true := by decide
/-- L18. -/
theorem test_ledpin_index : nextIs (step (fresh (issue 0x90030900 []))) (fun t => t.statusWord == 0x00002040) = true := by
  decide
/-- L5. -/
theorem test_ledinit : nextIs (exec (.ledinit 3 true) { begun (rets (List.replicate 9 ack)) with pinmap := #v[5, 6, 7] })
    (fun t => t.statusWord == 0x00031800 && t.pins == (bank true []).pins && t.actions ==
      [.pinOpen 5, .pinSetOutput 5, .pinWrite 5 true, .pinOpen 6, .pinSetOutput 6, .pinWrite 6 true,
       .pinOpen 7, .pinSetOutput 7, .pinWrite 7 true]) = true := by decide
/-- R187: the second claim is refused. -/
theorem test_ledinit_refused : nextIs (exec (.ledinit 3 false)
    { begun (rets [ack, ack, ack, nack]) with pinmap := #v[5, 6, 7] }) (fun t =>
    t.statusWord == 0x00000030 && t.actions == [.pinOpen 5, .pinSetOutput 5, .pinWrite 5 false, .pinOpen 6] &&
    t.pins == [(5, ⟨true, true, some false⟩)]) = true := by decide
/-- L3: inverted polarity, the line goes low. -/
theorem test_setled_inverted : nextIs (exec (.setled 1 true) (bank true (rets [ack]))) (fun t =>
    t.actions == [.pinWrite 6 false] && t.ledStates == #v[false, true, false] &&
    (t.pins.get 6).level == some false && (t.pins.get 5).level == some true) = true := by decide
/-- P2 line 9. -/
theorem test_setled_out_of_range : nextIs (exec (.setled 3 true) (bank true [])) (fun t =>
    t.statusWord == 0x00033840 && t.actions == []) = true := by decide
/-- R191's example. -/
theorem test_getled : nextIs (exec (.getled 2) { bank true [] with ledStates := #v[false, false, true] }) (fun t =>
    t.result == 0x00000001 && t.actions == []) = true := by decide
/-- L20. -/
theorem test_getled_before_init : nextIs (step (fresh (issue 0xC0000000 []))) (fun t =>
    t.statusWord == 0x00002040) = true := by decide

/-! ### The host port, the busy hazard, reset -/

/-- X1. -/
theorem test_illegal_word : nextIs (step (fresh (issue 0x00000000 []))) (fun t =>
    t.statusWord == 0x00002050 && t.lastcmd == 0 && t.actions == []) = true := by decide
/-- X4: the second word arrives during the settling delay of the first, and is dropped. -/
theorem test_post_while_busy : nextIs (steps 2 (fresh (issue 0x80000000 [good 0x44 0, ack, ack, ack] ++
    issue 0x40000000 []))) (fun t =>
    t.lastcmd == 0x80000000 && t.busy && t.ovr && t.cv && t.actions.getLast? == some (.delay 3)) = true := by decide
/-- X5: a reset during the delay of ENABLE. -/
theorem test_reset_in_delay : nextIs (steps 2 (fresh (issue 0x40000000 [good 0x44 0, ack, ack, ack] ++ [.reset])))
    (fun t => t.statusWord == 0x00000000 && t.micro == [] && t.actions.length == 5) = true := by decide
/-- R166, R259: a LEDPIN that lingers with nothing else to come ends by itself. -/
theorem test_own_work_ends : nextIs (steps 2 (fresh [.access (.command 0x90000500), .linger])) (fun t =>
    !t.busy && t.err == .ok && t.pinmap == #v[5, 0, 0]) = true := by decide
/-- X6, and a read of STATUS (R22). -/
theorem test_status_write_ignored : nextIs (steps 2 (fresh [.access (.write 4 4 0xFFFFFFFF), .access (.read 4 4)]))
    (fun t => t.hostData == some 0 && t.statusWord == 0) = true := by decide
/-- R57: a byte access and an access outside the window have no step. -/
theorem test_refused_access :
    step (fresh [.access (.read 0 1)]) = .refused (.hostAccess (.read 0 1)) ∧
    step (fresh [.access (.write 16 4 0)]) = .refused (.hostAccess (.write 16 4 0)) := ⟨rfl, rfl⟩
/-- The placed word is the one the next step runs. -/
theorem test_with_fetch_word : step (State.reset.withFetchWord 32 0xC0000000) =
    step (fresh [.access (.command 0xC0000000)]) := by rfl
/-- P3 lines 3 and 4 on the reference target of R55. -/
theorem test_reference_target : (RefTarget.answers ⟨Vector.replicate 128 0xF3⟩
    [busR 0x00 1, busW 0x00 0xF0, busR 0x00 1, busR 0x7F 2]) = [good 0xF3 0, ack, good 0xF0 0, good 0xF3 0xF0] := by
  decide +kernel
/-- R90: the host goes on to the next line when it has read BUSY = 0. -/
theorem test_host_program : nextIs (match hostTurns 3 ⟨[.issue 0xC0000000, .issue 0x90000500], false⟩ (fresh []) with
    | .next (_, t) => .next t | .fault f => .fault f | .refused r => .refused r) (fun t =>
    t.lastcmd == 0x90000500 && !t.ovr) = true := by decide

/-! ### Witnesses: states and operands that meet every hypothesis of a statement together -/

theorem witness_EncodeOfDecode : decode 0x1000F300 = .ok (.bwr 0x00 0xF3) := by decide

theorem witness_DecodeFollowsOpcodeTable :
    decode 0xB0020100 = .ok (.setled 2 true) ∧ ∃ r ∈ opcodeTable, r.accepts 0xB0020100 = true := by decide

theorem witness_ReservedEncodingsAreIllegal :
    fieldOpc 0x0FFFFFFF = 0x0 ∧ fieldOpc 0xDFFFFFFF = 0xD ∧ fieldOpc 0xE0000000 = 0xE ∧ fieldOpc 0xFFFFFFFF = 0xF ∧
    fieldZ1 0x41000000 ≠ 0 ∧ fieldZ0 0x40000001 ≠ 0 ∧
    ∃ r ∈ opcodeTable, fieldOpc 0x20120100 = fieldOpc r.value ∧ 0x20120100 &&& r.mask ≠ r.value := by decide

/-- The last operand of each field that fits, and the first that does not. -/
theorem witness_AssembledLinesDecode :
    (RegOperand.num 255).value < 256 ∧ (RegOperand.name .bdatal).value < 256 ∧ ¬ (RegOperand.num 256).value < 256 ∧
    255 < 256 ∧ ¬ 256 < 256 ∧ 1 < 2 ∧ ¬ 2 < 2 ∧ True := by decide

theorem witness_ResetValues : ∃ t,
    ({ bank true [.reset] with busy := true, micro := [.delay] } : State).world = .reset :: [] ∧
    step { bank true [.reset] with busy := true, micro := [.delay] } = .next t := ⟨_, rfl, rfl⟩

theorem witness_ResetInputRestartsBlock :
    ({ bank true [.reset] with busy := true, micro := [.delay] } : State).world = .reset :: [] ∧
    (bank true [.reset]).pins.wf = true := by decide

theorem witness_StepRunsDecodedCommand :
    (fresh (issue 0x40000000 [])).busy = false ∧
    (fresh (issue 0x40000000 [])).world = .access (.write 0x00 4 0x40000000) :: [] ∧
    decode 0x40000000 = .ok .enable := by decide

theorem witness_IllegalWordEndsAtOnce :
    (fresh (issue 0x00000000 [])).busy = false ∧ (fresh (issue 0x00000000 [])).micro = [] ∧
    (fresh (issue 0x00000000 [])).locals = {} ∧
    (fresh (issue 0x00000000 [])).world = .access (.write 0x00 4 0x00000000) :: [] ∧
    decode 0x00000000 = .error .reservedOpcode := by decide

theorem witness_BusyWordIsDropped :
    (waiting (issue 0x40000000 [])).busy = true ∧
    (waiting (issue 0x40000000 [])).world = .access (.write 0x00 4 0x40000000) :: [] := by decide

theorem witness_ReadOnlyRegistersIgnoreWrites :
    (fresh [.access (.write 0x04 4 1)]).world = .access (.write 0x04 4 1) :: [] ∧
    (fresh [.access (.write 0x08 4 1)]).world = .access (.write 0x08 4 1) :: [] ∧
    (waiting [.access (.write 0x0C 4 1)]).world = .access (.write 0x0C 4 1) :: [] := by decide

theorem witness_IdleReadsReturnRegisters : ∀ off : Int, off = 0x00 ∨ off = 0x04 ∨ off = 0x08 ∨ off = 0x0C →
    (fresh [.access (.read off 4)]).busy = false ∧
    (fresh [.access (.read off 4)]).world = .access (.read off 4) :: [] ∧
    ∃ d, (off = 0x00 ∧ d = State.reset.lastcmd) ∨ (off = 0x04 ∧ d = State.reset.statusWord) ∨
      (off = 0x08 ∧ d = State.reset.result) ∨ (off = 0x0C ∧ d = 0x00000200#32) := by
  rintro off (rfl | rfl | rfl | rfl) <;> exact ⟨rfl, rfl, by simp⟩

theorem witness_BusyReadsDefineBusyAndCmd : ∀ r : HostReg, ∃ off,
    HostReg.atOffset off = some r ∧ (waiting [.access (.read off 4)]).busy = true ∧
    (waiting [.access (.read off 4)]).world = .access (.read off 4) :: [] := by
  intro r
  cases r
  exacts [⟨0, rfl, rfl, rfl⟩, ⟨4, rfl, rfl, rfl⟩, ⟨8, rfl, rfl, rfl⟩, ⟨12, rfl, rfl, rfl⟩]

/-- The accesses that have no step at the edges of the window, and the last one that has. -/
theorem witness_UndefinedHostAccessHasNoStep : ∀ off n, (off, n) ∈ [(-4, 4), (16, 4), (2, 4), (12, 2), (12, 4)] →
    (fresh [.access (.read off n)]).world = .access (.read off n) :: [] ∧
    ((n ≠ 4 ∨ (off ≠ 0 ∧ off ≠ 4 ∧ off ≠ 8 ∧ off ≠ 12)) ∨ n = 4 ∧ off = 12) := by
  intro off n h
  simp only [List.mem_cons, Prod.mk.injEq, List.not_mem_nil, or_false] at h
  obtain ⟨rfl, rfl⟩ | ⟨rfl, rfl⟩ | ⟨rfl, rfl⟩ | ⟨rfl, rfl⟩ | ⟨rfl, rfl⟩ := h <;> exact ⟨rfl, by decide⟩

/-- A dropped word sets both bits; an illegal word sets CV alone; a reset clears both. -/
theorem witness_StickyBits :
    (∃ t, step (waiting (issue 0 [])) = .next t ∧ (waiting (issue 0 [])).world.head? ≠ some .reset ∧
      (waiting (issue 0 [])).busy = true ∧ (waiting (issue 0 [])).world.head? = some (.access (.write 0x00 4 0)) ∧
      (waiting (issue 0 [])).ovr = false ∧ t.ovr = true ∧ (waiting (issue 0 [])).cv = false ∧ t.cv = true) ∧
    (∃ t, step (fresh (issue 0 [])) = .next t ∧ (fresh (issue 0 [])).world.head? = some (.access (.write 0x00 4 0)) ∧
      (fresh (issue 0 [])).cv = false ∧ t.busy = false ∧ t.err.isContract = true ∧ t.cv = true) ∧
    (∃ t, step (waiting [.reset]) = .next t ∧ (waiting [.reset]).world.head? = some .reset) :=
  ⟨⟨_, rfl, by decide, rfl, rfl, rfl, rfl, rfl, rfl⟩, ⟨_, rfl, rfl, rfl, rfl, rfl, rfl⟩, _, rfl, rfl⟩

/-- Each clause: a read while busy; a DISABLE whose write waits while a word is dropped; an idle block, an outstanding
operation (which the free value lets return or not) and the block's own work, with no stimulus left. -/
theorem witness_HostAccessLeavesRunningCommand :
    (∃ t, (waiting [.access (.read 4 4)]).busy = true ∧
      (waiting [.access (.read 4 4)]).world = .access (.read 4 4) :: [] ∧
      step (waiting [.access (.read 4 4)]) = .next t) ∧
    (∃ t t' u, (ready []).busy = true ∧
      exec .disable { ready [] with world := rets [good 0xF3 0] ++ .access (.write 0 4 0) :: .ret nack :: [] } = .next t ∧
      t.busy = true ∧ step t = .next t' ∧ step t' = .next u) ∧
    (fresh []).world = [] ∧ (fresh []).micro = [] ∧
    (waiting []).world = [] ∧ (waiting []).micro = [.memWrite 0x00 0xF3] ∧ Op.memWrite 0x00 0xF3 ≠ .work ∧
    (Config.freeReply (waiting []).draws = none ∨ ∃ r, Config.freeReply (waiting []).draws = some r) ∧
    ({ waiting [] with micro := [.work] } : State).micro = .work :: [] := by
  refine ⟨⟨_, rfl, rfl, rfl⟩, ⟨_, _, _, rfl, rfl, rfl, rfl, rfl⟩, rfl, rfl, rfl, rfl, by decide, ?_, rfl⟩
  cases Config.freeReply (waiting []).draws
  exacts [.inl rfl, .inr ⟨_, rfl⟩]

theorem witness_DroppedWordDoesNotDisturb : ∃ t u u',
    (waiting (.access (.write 0x00 4 0) :: .ret ack :: [])).busy = true ∧
    step (waiting (.access (.write 0x00 4 0) :: .ret ack :: [])) = .next t ∧ step t = .next u ∧
    step (waiting (.ret ack :: [])) = .next u' :=
  ⟨_, _, _, rfl, rfl, rfl, rfl⟩

theorem witness_BwrIsOneWrite : ∀ r : Reply,
    (begun (rets [r])).world = rets [r] ++ [] ∧ (r.ok = true → calm []) := fun _ => ⟨rfl, fun _ => by decide⟩

theorem witness_BrdReadsOneByte : ∀ r : Reply,
    (begun (rets [r])).world = rets [r] ++ [] ∧ (r.ok = true → calm []) := fun _ => ⟨rfl, fun _ => by decide⟩

theorem witness_Brd2ReadsLittleEndianPair : ∀ r : Reply,
    (begun (rets [r])).world = rets [r] ++ [] ∧ (r.ok = true → calm []) := fun _ => ⟨rfl, fun _ => by decide⟩

/-- A course of each command: it waits for its transaction while a word is dropped, and then the transaction fails. -/
theorem witness_RawCommandsTouchNoDriverState : ∀ i : Instr,
    i = .bwr 0xFF 0xFF ∨ i = .brd 0xFF ∨ i = .brd2 0xFF → ∃ t u v,
    exec i (begun [.access (.command 0), .ret nack]) = .next t ∧
    Course i (begun [.access (.command 0), .ret nack]) u ∧ u.busy = true ∧ u.ovr = true ∧
    u.world.head? ≠ some .reset ∧ step u = .next v ∧
    Course i (begun [.access (.command 0), .ret nack]) v ∧ v.busy = false ∧ v.err = .busError := by
  rintro i (rfl | rfl | rfl)
  all_goals exact ⟨_, _, _, rfl, .more (.first rfl) rfl (by decide) rfl, rfl, rfl, by decide, rfl,
    .more (.more (.first rfl) rfl (by decide) rfl) rfl (by decide) rfl, rfl, rfl⟩

theorem witness_PairSwapLaw : (0x34 : Byte) ≠ 0x12 := by decide

theorem witness_GuardRunsBeginThenBody :
    Instr.isDriver .readrgb = true ∧ Instr.legal .readrgb = true ∧ (begun (rets beginOk)).sstate = .uninit ∧
    (begun (rets beginOk)).world = rets [good 0x44 0, ack, ack, ack, ack, ack] ++ [] ∧
    (good 0x44 0).ok = true ∧ (good 0x44 0).b0 = 0x44#8 ∧ ack.ok = true ∧ calm [] := by decide

theorem witness_IdentityFailureEndsCommand : ∀ r : Reply, r = nack ∨ r = good 0xC4 0 →
    Instr.isDriver (.setgain 0x03) = true ∧ Instr.legal (.setgain 0x03) = true ∧ (begun (rets [r])).sstate = .uninit ∧
    (begun (rets [r])).world = rets [r] ++ [] ∧ (r.ok = false ∨ r.ok = true ∧ r.b0 ≠ 0x44#8 ∧ calm []) := by
  rintro r (rfl | rfl) <;> exact ⟨rfl, rfl, rfl, rfl, by decide⟩

theorem witness_FailedBeginRevertsToUninit : ∀ k, k = 1 ∨ k = 2 ∨ k = 3 ∨ k = 5 → ∃ rs : List Reply,
    Instr.isDriver (.setatime 0xFF) = true ∧ Instr.legal (.setatime 0xFF) = true ∧ rs.length + 1 = k ∧
    (begun (rets (good 0x44 0 :: (rs ++ [nack])))).sstate = .uninit ∧
    (begun (rets (good 0x44 0 :: (rs ++ [nack])))).world = rets (good 0x44 0 :: (rs ++ [nack])) ++ [] ∧
    (good 0x44 0).ok = true ∧ (good 0x44 0).b0 = 0x44#8 ∧ (∀ q ∈ rs, q.ok = true) ∧ nack.ok = false := by
  rintro k (rfl | rfl | rfl | rfl)
  exacts [⟨[], by decide⟩, ⟨[ack], by decide⟩, ⟨[ack, ack], by decide⟩, ⟨[ack, ack, ack, ack], by decide⟩]

/-- Each of the three clauses. -/
theorem witness_EnableFromReady : ∀ r1 r3, (r1, r3) ∈ [(ack, ack), (nack, ack), (ack, nack)] →
    (ready (rets [r1, ack, r3])).sstate ≠ .uninit ∧ (ready (rets [r1, ack, r3])).world = rets [r1, ack, r3] ++ [] ∧
    (r1.ok = true ∧ r3.ok = true ∧ calm [] ∨ r1.ok = false ∨ r1.ok = true ∧ r3.ok = false) := by
  intro r1 r3 h
  simp only [List.mem_cons, Prod.mk.injEq, List.not_mem_nil, or_false] at h
  obtain ⟨rfl, rfl⟩ | ⟨rfl, rfl⟩ | ⟨rfl, rfl⟩ := h <;> decide

/-- Each of the three clauses. -/
theorem witness_DisableFromReady : ∀ r1 r2, (r1, r2) ∈ [(good 0xFF 0, ack), (nack, ack), (good 0xFF 0, nack)] →
    (ready (rets [r1, r2])).sstate ≠ .uninit ∧ (ready (rets [r1, r2])).world = rets [r1, r2] ++ [] ∧
    (r1.ok = true ∧ r2.ok = true ∧ calm [] ∨ r1.ok = false ∨ r1.ok = true ∧ r2.ok = false) := by
  intro r1 r2 h
  simp only [List.mem_cons, Prod.mk.injEq, List.not_mem_nil, or_false] at h
  obtain ⟨rfl, rfl⟩ | ⟨rfl, rfl⟩ | ⟨rfl, rfl⟩ := h <;> decide

theorem witness_SetatimeFromReady : ∀ r : Reply,
    0x00#8 ∈ [0xFF#8, 0xF6#8, 0xEB#8, 0xD5#8, 0xC0#8, 0x00#8] ∧ (ready (rets [r])).sstate ≠ .uninit ∧
    (ready (rets [r])).world = rets [r] ++ [] ∧ (r.ok = true → calm []) :=
  fun _ => ⟨by decide, nofun, rfl, fun _ => by decide⟩

theorem witness_SetgainFromReady : ∀ r : Reply,
    0x03#8 ∈ [0x00#8, 0x01#8, 0x02#8, 0x03#8] ∧ (ready (rets [r])).sstate ≠ .uninit ∧
    (ready (rets [r])).world = rets [r] ++ [] ∧ (r.ok = true → calm []) :=
  fun _ => ⟨by decide, nofun, rfl, fun _ => by decide⟩

theorem witness_ReadrgbFromReady :
    (ready (rets [good 100 0, good 50 0, good 25 0, good 10 0])).sstate ≠ .uninit ∧
    (ready (rets [good 100 0, good 50 0, good 25 0, good 10 0])).world =
      rets [good 100 0, good 50 0, good 25 0, good 10 0] ++ [] ∧
    (good 100 0).ok = true ∧ (good 50 0).ok = true ∧ (good 25 0).ok = true ∧ (good 10 0).ok = true ∧ calm [] := by decide

/-- The first and the last read. -/
theorem witness_ReadrgbStopsAtFailedRead : ∀ rs : List Reply, rs = [] ∨ rs = [ack, ack, ack] →
    (ready (rets (rs ++ [nack]))).sstate ≠ .uninit ∧ rs.length < 4 ∧
    (ready (rets (rs ++ [nack]))).world = rets (rs ++ [nack]) ++ [] ∧ (∀ q ∈ rs, q.ok = true) ∧ nack.ok = false := by
  rintro rs (rfl | rfl) <;> decide

/-- With the begin sequence before the reads, and without. -/
theorem witness_ZeroClearCountGivesZero :
    guardReplies (begun (rets (beginOk ++ [⟨true, 0, 0⟩, good 0x34 0x12, good 0xFF 0xFF, good 1 0]))) beginOk ∧
    guardReplies (ready (rets ([] ++ [⟨true, 0, 0⟩, good 0x34 0x12, good 0xFF 0xFF, good 1 0]))) [] ∧
    (good 0x34 0x12).ok = true ∧ (good 0xFF 0xFF).ok = true ∧ (good 1 0).ok = true ∧ calm [] :=
  ⟨⟨_, _, _, _, _, _, rfl, rfl, rfl, rfl, rfl, rfl, rfl⟩, rfl, rfl, rfl, rfl, by decide⟩

theorem witness_DisableThenReadBack : ∃ (s t u : State) (target : RefTarget) (acts : List Action),
    s.sstate = .ready ∧ calm [] ∧ exec .disable s = .next t ∧ exec (.brd 0x00) t = .next u ∧
    u.actions = s.actions ++ acts ∧ s.world = rets (target.answers acts) ++ [] ∧ acts.length = 3 :=
  ⟨ready (rets ((RefTarget.mk (Vector.replicate 128 0xF3)).answers [busR 0x00 1, busW 0x00 0xF0, busR 0x00 1])), _, _,
    ⟨Vector.replicate 128 0xF3⟩, _, rfl, by decide, rfl, rfl, rfl, (List.append_nil _).symm, rfl⟩

theorem witness_BadOperandEndsAtOnce :
    (0x01#8 ∉ [0xFF#8, 0xF6#8, 0xEB#8, 0xD5#8, 0xC0#8, 0x00#8]) ∧ (0x04#8 ∉ [0x00#8, 0x01#8, 0x02#8, 0x03#8]) ∧
    3 < (4 : Byte).toNat := by decide

/-- A course that is interrupted twice, and ends OK. -/
theorem witness_DriverActionsFollowTable : ∃ t,
    Instr.isDriver .disable = true ∧ Instr.legal .disable = true ∧
    (ready [.access .poll, .ret (good 0xF3 0), .pinReleased 5, .ret ack]).busy = true ∧
    Course .disable (ready [.access .poll, .ret (good 0xF3 0), .pinReleased 5, .ret ack]) t ∧ t.busy = false ∧ t.err = .ok :=
  ⟨_, rfl, rfl, rfl, .more (.more (.more (.more (.first rfl) rfl (by decide) rfl) rfl (by decide) rfl) rfl (by decide) rfl)
    rfl (by decide) rfl, rfl, rfl⟩

/-- The settling delay is waited for, and the second write follows it. -/
theorem witness_SettlingDelayBeforeAdcEnable : ∃ t,
    Instr.isDriver .enable = true ∧ Course .enable (ready [.ret ack, .access .poll, .ret ack, .ret ack]) t ∧
    t.actions = (ready []).actions ++ enActions ∧ enActions[2]? = some (.busWrite 0x29 [0x80, 0x03]) :=
  ⟨_, rfl, .more (.more (.first rfl) rfl (by decide) rfl) rfl (by decide) rfl, rfl, rfl⟩

/-- The second transaction of the begin sequence is outstanding after a return. -/
theorem witness_TransactionsOutsideUninit : ∃ t rest,
    Instr.isDriver .readrgb = true ∧
    Course .readrgb (begun [.access .poll, .ret (good 0x44 0), .access .poll]) t ∧
    t.micro = .memWrite 0x01 0x00 :: rest ∧ (Op.memWrite 0x01 0x00).isTransaction = true ∧
    Op.memWrite 0x01 0x00 ≠ .memRead 0x12 :=
  ⟨_, _, rfl, .more (.more (.first rfl) rfl (by decide) rfl) rfl (by decide) rfl, rfl, rfl, by decide⟩

/-- READRGB lingers before its first read, and after its fourth; LEDINIT lingers between two pin operations. -/
theorem witness_LingeringOnlyDelays :
    (∀ rs, rs = [] ∨ rs = [good 100 0, good 50 0, good 25 0, good 10 0] → ∃ t,
      (ready []).busy = true ∧ exec .readrgb { ready [] with world := rets rs ++ .linger :: .ret nack :: [] } = .next t ∧
      t.busy = true ∧ (ready []).sstate ≠ .uninit ∧ (good 100 0).ok = true ∧ (good 50 0).ok = true ∧
      (good 25 0).ok = true ∧ (good 10 0).ok = true) ∧
    ∃ t, exec (.ledinit 1 true) { begun [] with world := rets [ack, ack] ++ .linger :: .ret nack :: [] } = .next t ∧
      t.busy = true := by
  refine ⟨?_, _, rfl, rfl⟩
  rintro rs (rfl | rfl) <;> exact ⟨_, rfl, rfl, rfl, nofun, rfl, rfl, rfl, rfl⟩

/-- The invariants hold of a state in the middle of a begin sequence. -/
def verifying (w : List Stimulus) : State :=
  { begun w with
    lastcmd := 0x80000000, sstate := .verifying
    micro := [.delay, .memWrite 0x00 0x03, .setEnabled true, .setReady, .memReadPair 0x14 .c] }

theorem verifying_driverInv (w : List Stimulus) : DriverInv (verifying w) where
  busy_iff := by simp [verifying, begun]
  outstanding := by rintro op rest h; cases h; rfl
  walk := rfl
  enabled_begun := nofun

theorem ready_driverInv (w : List Stimulus) : DriverInv { ready w with busy := false } where
  busy_iff := by simp [ready, begun, fresh, State.reset]
  outstanding := nofun
  walk := rfl
  enabled_begun := by simp [ready]

theorem witness_ReadyIsLeftOnlyByReset : ∃ t,
    DriverInv { ready (issue 0x80000000 [nack]) with busy := false } ∧
    ({ ready (issue 0x80000000 [nack]) with busy := false } : State).sstate = .ready ∧
    ({ ready (issue 0x80000000 [nack]) with busy := false } : State).world.head? ≠ some .reset ∧
    step { ready (issue 0x80000000 [nack]) with busy := false } = .next t :=
  ⟨_, ready_driverInv _, rfl, by decide, rfl⟩

theorem witness_QuantizerLaws :
    0 < (1 : Half).toNat ∧ (65535 : Half).toNat ≤ (65535 : Half).toNat ∧ (0 : Half).toNat < (1 : Half).toNat ∧
    (1 : Half).toNat ≤ (65535 : Half).toNat := by decide

theorem witness_LedpinRecordsPin : ∀ w : List Stimulus, calm w →
    (2 : Byte).toNat < 3 ∧ (begun w).lbinit = false ∧ calm (begun w).world := fun _ h => ⟨by decide, rfl, h⟩

/-- The first index out of range and the last one in range, of each command. -/
theorem witness_LedCommandErrors :
    3 ≤ (3 : Byte).toNat ∧ (bank true []).ledcount.toNat ≤ (3 : Byte).toNat ∧
    (begun []).ledcount.toNat ≤ (0 : Byte).toNat ∧ (bank true []).lbinit = true ∧ (2 : Byte).toNat < 3 ∧
    (3 : Byte).toNat ≤ 3 := by decide

theorem witness_LedinitBringsBankUp : ∀ count : Byte, count = 0 ∨ count = 3 → ∃ rs : List Reply,
    count.toNat ≤ 3 ∧ (begun (rets rs)).lbinit = false ∧ rs.length = 3 * count.toNat ∧
    (∀ j, j < count.toNat → ∃ r, rs[3 * j]? = some r ∧ r.ok = true) ∧ (begun (rets rs)).world = rets rs ++ [] ∧
    calm [] := by
  rintro count (rfl | rfl)
  · exact ⟨[], by decide, rfl, rfl, fun j hj => absurd hj (by simp), rfl, by decide⟩
  · refine ⟨List.replicate 9 ack, by decide, rfl, rfl, ?_, rfl, by decide⟩
    intro j hj
    have hj : j < 3 := hj
    exact ⟨ack, by rw [List.getElem?_replicate]; simp; omega, rfl⟩

/-- The first and the last claim refused. -/
theorem witness_RefusedClaimLeavesNoBank : ∀ k, k = 0 ∨ k = 2 → ∃ (rs : List Reply) (q : Byte),
    (3 : Byte).toNat ≤ 3 ∧ (begun (rets (rs ++ [nack]))).lbinit = false ∧ k < (3 : Byte).toNat ∧
    ((begun (rets (rs ++ [nack]))).bankPins (3 : Byte).toNat)[k]? = some q ∧ rs.length = 3 * k ∧
    (∀ j, j < k → ∃ r', rs[3 * j]? = some r' ∧ r'.ok = true) ∧ nack.ok = false ∧
    (begun (rets (rs ++ [nack]))).world = rets (rs ++ [nack]) ++ [] := by
  rintro k (rfl | rfl)
  · exact ⟨[], 0, by decide, rfl, by decide, rfl, rfl, nofun, rfl, rfl⟩
  · refine ⟨List.replicate 6 ack, 0, by decide, rfl, by decide, rfl, rfl, ?_, rfl, rfl⟩
    intro j hj
    exact ⟨ack, by rw [List.getElem?_replicate]; simp; omega, rfl⟩

theorem witness_SetledStoresAndDrives :
    (2 : Byte).toNat < (bank true (rets [ack])).ledcount.toNat ∧ (bank true (rets [ack])).ledcount.toNat ≤ 3 ∧
    (bank true (rets [ack])).world = rets [ack] ++ [] ∧ calm [] ∧ (bank true (rets [ack])).pins.wf = true := by decide

theorem witness_GetledReturnsLogicalValue :
    (2 : Byte).toNat < (bank false []).ledcount.toNat ∧ calm (bank false []).world := by decide

theorem witness_SetThenGetRoundTrip : ∃ t,
    (2 : Byte).toNat < (bank true []).ledcount.toNat ∧ (bank true []).ledcount.toNat ≤ 3 ∧
    (∀ x ∈ [((0 : Byte), true), (3, false)], x.1 ≠ 2) ∧
    exec (.getled 2) (([(2, true), (0, true), (3, false)] : List (Byte × Bool)).foldl
      (fun u x => match exec (.setled x.1 x.2) u with | .next u' => u' | _ => u) (bank true [])) = .next t :=
  ⟨_, by decide, by decide, by simp, rfl⟩

/-- A course of a LED command and of a driver command, each with an operation that waits and then returns. -/
theorem witness_UnitsAreIndependent :
    (∃ t u, exec (.ledinit 3 true) (begun [.access .poll, .ret nack]) = .next t ∧
      Course (.ledinit 3 true) (begun [.access .poll, .ret nack]) u ∧ u.busy = false ∧
      Instr.isLed (.ledinit 3 true) = true) ∧
    ∃ t u, exec .readrgb (begun [.access .poll, .ret nack]) = .next t ∧
      Course .readrgb (begun [.access .poll, .ret nack]) u ∧ u.busy = false ∧ Instr.isLed .readrgb = false :=
  ⟨⟨_, _, rfl, .more (.more (.first rfl) rfl (by decide) rfl) rfl (by decide) rfl, rfl, rfl⟩,
    _, _, rfl, .more (.more (.first rfl) rfl (by decide) rfl) rfl (by decide) rfl, rfl, rfl⟩

/-- Each clause: a course; ten returns for a READRGB from UNINIT; one return for a waiting BWR; the end of a lingering. -/
theorem witness_CommandsAreFinite :
    (∃ t, Course .readrgb (begun (rets beginOk ++ [.access .poll, .ret nack])) t ∧ t.busy = false) ∧
    (∃ t, (begun (rets (beginOk ++ [ack, ack, ack, ack]))).world = rets (beginOk ++ [ack, ack, ack, ack]) ∧
      10 ≤ (beginOk ++ [ack, ack, ack, ack]).length ∧
      exec .readrgb (begun (rets (beginOk ++ [ack, ack, ack, ack]))) = .next t) ∧
    (∃ t, (waiting (rets [ack])).micro ≠ [] ∧ (waiting (rets [ack])).world = rets [ack] ∧
      (waiting (rets [ack])).micro.length ≤ [ack].length ∧ step (waiting (rets [ack])) = .next t) ∧
    ∃ t, exec (.getled 2) (bank true [.linger]) = .next t ∧ t.micro = .work :: [] ∧ t.world = [] ∧
      ∀ op ∈ ([] : List Op), op.waits = false :=
  ⟨⟨_, .more (.more (.first rfl) rfl (by decide) rfl) rfl (by decide) rfl, rfl⟩, ⟨_, rfl, by decide, rfl⟩,
    ⟨_, by decide, rfl, by decide, rfl⟩, _, rfl, rfl, rfl, by simp⟩

theorem witness_IssuedWordsAreNeverDropped : ∃ h' s',
    (∀ l ∈ [HostLine.issue 0x1000F300, .issue 0xC0000000], ∃ w, l = .issue w) ∧
    (false = false → (fresh (rets [ack])).busy = false) ∧
    (∀ x ∈ (fresh (rets [ack])).world, ∃ r, x = .ret r) ∧
    hostTurns 2 ⟨[.issue 0x1000F300, .issue 0xC0000000], false⟩ (fresh (rets [ack])) = .next (h', s') :=
  ⟨_, _, by simp, fun _ => rfl, by simp [fresh, rets], rfl⟩

/-- A BRD that waits for its read, which fails; a BWR that ends at once. -/
theorem witness_ResultKeptByOtherEndings : ∃ t u,
    (begun [.access .poll, .ret nack]).busy = true ∧ Course (.brd 0) (begun [.access .poll, .ret nack]) t ∧
    t.busy = false ∧ t.err ≠ .ok ∧ Course (.bwr 0 0) (begun (rets [ack])) u ∧ u.busy = false :=
  ⟨_, _, rfl, .more (.more (.first rfl) rfl (by decide) rfl) rfl (by decide) rfl, rfl, by decide, .first rfl, rfl⟩

theorem witness_DriverInvariantKept : ∃ t, DriverInv (verifying (rets [ack, ack])) ∧
    step (verifying (rets [ack, ack])) = .next t := ⟨_, verifying_driverInv _, rfl⟩

theorem witness_ConfigInvariantKept : ∃ t, ConfigInv (waiting (rets [ack])) ∧ step (waiting (rets [ack])) = .next t :=
  ⟨_, ⟨rfl, rfl, by simp [waiting, Op.codeLegal]⟩, rfl⟩

/-- The LED invariant holds of an initialized bank of three LEDs, and SETLED keeps it. -/
theorem witness_BankInvariantKept : ∃ t, BankInv { bank true (issue 0xB0020100 [ack]) with busy := false } ∧
    step { bank true (issue 0xB0020100 [ack]) with busy := false } = .next t := by
  refine ⟨_, ⟨by decide, nofun, rfl, by decide, nofun, ?_, .inl nofun, nofun, nofun, rfl⟩, rfl⟩
  intro _ _ i hi
  have hi : i < 3 := hi
  obtain rfl | rfl | rfl : i = 0 ∨ i = 1 ∨ i = 2 := by omega
  all_goals rfl

theorem witness_ReachableDriverState : ∃ s, Reachable s ∧ s.busy = false ∧ s.enabled = true :=
  ⟨_, .next (.start (issue 0x40000000 (beginOk ++ [ack, ack, ack]))) rfl, rfl, rfl⟩

/-- A run from reset to an initialized bank with one LED, which is on under inverted polarity. -/
theorem witness_ReachablePinLevels : ∃ s, Reachable s ∧ s.busy = false ∧ s.lbinit = true ∧
    (∀ i j, i < s.ledcount.toNat → j < s.ledcount.toNat → s.pinOf i = s.pinOf j → i = j) ∧ 0 < s.ledcount.toNat := by
  refine ⟨_, .next (.next (.start (issue 0xA0010100 [ack, ack, ack] ++ issue 0xB0000100 [ack])) rfl) rfl,
    rfl, rfl, ?_, by decide⟩
  intro i j hi hj _
  have hi : i < 1 := hi
  have hj : j < 1 := hj
  omega

end Sys2Proof.Tests
end

/-! PROOFS about the state of the block (10_state.md R20 to R36). First what every invariant goes through: one induction
over what a step can do, and one over what a run can do. -/

namespace Sys2Proof.Machine

/-! ### What arrives, and what an invariant must survive -/

/-- The induction every invariant of a step goes through: what changes outside the block, a released claim, a return, a
reset, and an accepted word (an illegal one is rejected as any other contract violation is). -/
theorem step_induction {I : State → Prop} {s t : State}
    (port : ∀ u v, I u → outsideOnly u v → v.pins = u.pins → I v)
    (released : ∀ u p, I u → I (u.updPin p fun x => { x with claimed := false }))
    (returned : ∀ u r, I u → I (resume r u))
    (wasReset : s.world.head? = some .reset → ∀ u, I u → I u.resetBlock)
    (command : ∀ u v i t, I u → u.busy = false → Started (u.accept v) i t → I t)
    (hs : I s) (h : step s = .next t) : I t := by
  have world : ∀ w, I (s.withWorld w) := fun w => port s _ hs rfl rfl
  cases step_stepped h with
  | quiet _ =>
    obtain hu | hu | ⟨r, hu⟩ | ⟨rest, -, hu⟩ := unprompted_cases s <;> rw [hu]
    · exact hs
    · exact port s _ hs rfl rfl
    · exact returned _ r (port s _ hs rfl rfl)
    · exact returned _ _ hs
  | returned r w _ => exact returned _ r (world w)
  | lingered w _ => exact world w
  | wasReset w hw => exact wasReset (by rw [hw]; rfl) _ (world w)
  | released p w _ => exact released _ p (world w)
  | read off n reg w _ =>
    obtain ⟨d, hd | hd⟩ := hostRead_cases reg (s.withWorld w) <;> rw [hd] <;> exact port s _ hs rfl rfl
  | ignored off n v w _ => exact world w
  | dropped v w _ _ => exact port s _ hs rfl rfl
  | illegal v e w _ hi _ => exact command _ v .enable _ (world w) hi (.rejected .enable .illegalCommand rfl)
  | command v i w t _ hi _ hst => exact command _ v i t (world w) hi hst

/-! ### What a run keeps -/

/-- The driver's fields, the shadow configuration and the LED bank with its pins are the same. -/
structure SameUnits (s t : State) : Prop where
  sstate : t.sstate = s.sstate
  enabled : t.enabled = s.enabled
  atime : t.atime = s.atime
  gain : t.gain = s.gain
  bank : t.bank = s.bank

theorem sameBlock.sameUnits {s t : State} (h : sameBlock s t) : SameUnits s t :=
  ⟨h.sstate, h.enabled, h.atime, h.gain, h.bank⟩

theorem outsideOnly.sameUnits {s t : State} (h : outsideOnly s t) (hp : t.pins = s.pins) : SameUnits s t where
  sstate := by rw [h]
  enabled := by rw [h]
  atime := by rw [h]
  gain := by rw [h]
  bank := by rw [h, State.bank, hp]; rfl

theorem sameUnits_accept (v : Word) (s : State) : SameUnits s (s.accept v) := ⟨rfl, rfl, rfl, rfl, rfl⟩

theorem sameUnits_raise (e : ErrCode) (s : State) : SameUnits s (s.raise e) := ⟨rfl, rfl, rfl, rfl, rfl⟩

theorem sameUnits_setResult (v : Word) (s : State) : SameUnits s (s.setResult v) := ⟨rfl, rfl, rfl, rfl, rfl⟩

/-- A step of a command that can raise: a transaction, a claim, the identity check (R101, R122, R187). -/
def Op.canRaise : Op → Bool
  | .memWrite _ _ | .memWriteMasked _ _ | .memRead _ | .memReadPair _ _ | .pinOpen _ | .checkId => true
  | .delay | .pinSetOutput _ | .pinWrite _ _ | .setVerifying | .setReady | .setEnabled _ | .setAtime _ | .setGain _
  | .resultByte | .resultPair | .resultRgb | .bankUp _ _ | .work => false

theorem canRaise_of_finish {op : Op} {r : Reply} {s : State} {e : ErrCode} (h : op.finish r s = .error e) :
    op.canRaise = true := by
  obtain ⟨ht, -⟩ | ⟨⟨p, rfl⟩, -⟩ := finish_error_cases h
  · cases op <;> cases ht <;> rfl
  · rfl

theorem canRaise_of_internal {op : Op} {s : State} {e : ErrCode} (h : op.internal s = .error e) :
    op.canRaise = true := by
  obtain ⟨rfl, -⟩ := internal_error_cases h; rfl

/-- `W ops s` says something of the units' fields of `s` and of the steps `ops` still to do; these are the conditions under
which every run keeps it. -/
structure RunKeeps (W : List Op → State → Prop) : Prop where
  same : ∀ {ops s t}, W ops s → SameUnits s t → W ops t
  work : ∀ {ops s}, W ops s → W (.work :: ops) s
  returned : ∀ {op rest r s t}, op.waits = true → W (op :: rest) s → op.finish r s = .ok t → W rest t
  internal : ∀ {op rest s t}, op.action s = none → W (op :: rest) s → op.internal s = .ok t → W rest t
  raised : ∀ {op rest e s}, op.canRaise = true → W (op :: rest) s → W [] (raiseAt rest e s)

theorem RunKeeps.run {W : List Op → State → Prop} (hW : RunKeeps W) {ops : List Op} {s : State} (h : W ops s) :
    W (run ops s).micro (run ops s) := by
  refine run_induction (P := W) (Q := fun t => W t.micro t) ?linger ?finish ?passed ?raised ?waiting ops s h
  case linger => exact fun ops s w h _ => hW.same (hW.work h) ⟨rfl, rfl, rfl, rfl, rfl⟩
  case finish => exact fun s h _ => hW.same h ⟨rfl, rfl, rfl, rfl, rfl⟩
  case passed =>
    intro op rest s s' h hs
    obtain ⟨ha, hi⟩ | ⟨a, u, r, ha, -, hu, hf⟩ := start_passed hs
    · exact hW.internal ha h hi
    · exact hW.returned (waits_of_action ha) (hW.same h hu.sameUnits) hf
  case raised =>
    intro op rest s e s' h hs
    rw [(raiseAt_bank rest e s').2.1]
    obtain ⟨-, hi, rfl⟩ | ⟨a, r, -, -, hu, hf⟩ := start_raised hs
    · exact hW.raised (canRaise_of_internal hi) h
    · exact hW.raised (canRaise_of_finish hf) (hW.same h hu.sameUnits)
  case waiting =>
    intro op rest s s' h hs
    obtain ⟨a, -, -, hu⟩ := start_waiting hs
    exact hW.same (hW.same h hu.sameUnits) ⟨rfl, rfl, rfl, rfl, rfl⟩

/-- A return keeps what runs keep, when its operation's effect does. -/
theorem RunKeeps.resume {W : List Op → State → Prop} (hW : RunKeeps W) {r : Reply} {s : State} (h : W s.micro s)
    (hret : ∀ op rest t, s.micro = op :: rest → op.finish r s = .ok t → W rest t) :
    W (resume r s).micro (resume r s) := by
  obtain ⟨-, hr⟩ | ⟨op, rest, t, hm, hf, hr⟩ | ⟨op, rest, e, hm, hf, hr⟩ := resume_cases r s <;> rw [hr]
  · exact h
  · exact hW.run (hret op rest t hm hf)
  · rw [(raiseAt_bank rest e s).2.1]
    exact hW.raised (canRaise_of_finish hf) (hm ▸ h)

/-! ### A command at rest -/

/-- Between steps a command waits at a step that can be outstanding, or the block is idle with nothing left to do (R31). -/
structure AtRest (s : State) : Prop where
  busy_iff : s.busy = true ↔ s.micro ≠ []
  outstanding : ∀ op rest, s.micro = op :: rest → op.waits = true

theorem AtRest.micro_nil {s : State} (h : AtRest s) (hb : s.busy = false) : s.micro = [] := by
  by_contra hm; simp [h.busy_iff.2 hm] at hb

theorem AtRest.busy_of_micro {s : State} {op : Op} {rest : List Op} (h : AtRest s) (hm : s.micro = op :: rest) :
    s.busy = true := h.busy_iff.2 (by simp [hm])

theorem atRest_idle {s : State} (hb : s.busy = false) (hm : s.micro = []) : AtRest s :=
  ⟨by simp [hb, hm], by simp [hm]⟩

theorem atRest_waiting {s : State} {op : Op} {rest : List Op} (hb : s.busy = true) (hm : s.micro = op :: rest)
    (ho : op.waits = true) : AtRest s :=
  ⟨by simp [hb, hm], by rintro _ _ h; cases hm.symm.trans h; exact ho⟩

theorem AtRest.of_eq {s t : State} (h : AtRest s) (hb : t.busy = s.busy) (hm : t.micro = s.micro) : AtRest t :=
  ⟨by rw [hb, hm]; exact h.busy_iff, by rw [hm]; exact h.outstanding⟩

/-- Nothing the command kept is left once it has ended (R58, R132; log 12). -/
def Clean (s : State) : Prop := s.busy = false → s.locals = {}

theorem raiseAt_locals (rest : List Op) (e : ErrCode) (s : State) : (raiseAt rest e s).locals = {} := by
  unfold raiseAt; split <;> rfl

theorem start_passed_busy {op : Op} {s s' : State} (h : op.start s = .passed s') : s'.busy = s.busy := by
  obtain ⟨ha, hi⟩ | ⟨a, u, r, -, -, hu, hf⟩ := start_passed h
  · exact (internal_bank hi ha).1
  · rw [(finish_driver hf).1, hu.busy]

/-- The run of an accepted command comes to rest, with nothing kept if it has ended. -/
theorem run_atRest {ops : List Op} {s : State} (h : s.busy = true) : AtRest (run ops s) ∧ Clean (run ops s) := by
  refine run_induction (P := fun _ s => s.busy = true) (Q := fun t => AtRest t ∧ Clean t)
    ?linger ?finish ?passed ?raised ?waiting ops s h
  case linger => exact fun ops s w h _ => ⟨atRest_waiting h rfl rfl, by simp [Clean, h]⟩
  case finish => exact fun s _ _ => ⟨atRest_idle rfl rfl, fun _ => rfl⟩
  case passed => exact fun op rest s s' h hs => (start_passed_busy hs).trans h
  case raised =>
    intro op rest s e s' _ _
    obtain ⟨hb, hm, -⟩ := raiseAt_bank rest e s'
    exact ⟨atRest_idle hb hm, fun _ => raiseAt_locals rest e s'⟩
  case waiting =>
    intro op rest s s' h hs
    obtain ⟨a, ha, -, hu⟩ := start_waiting hs
    have hb : s'.busy = true := hu.busy.trans h
    exact ⟨atRest_waiting hb rfl (waits_of_action ha), by simp [Clean, hb]⟩

/-- A return leaves the command at rest. -/
theorem resume_atRest {s : State} (r : Reply) (h : AtRest s) :
    AtRest (resume r s) ∧ (Clean s → Clean (resume r s)) := by
  obtain ⟨-, hr⟩ | ⟨op, rest, t, hm, hf, hr⟩ | ⟨op, rest, e, hm, hf, hr⟩ := resume_cases r s <;> rw [hr]
  · exact ⟨h, id⟩
  · obtain ⟨h1, h2⟩ := run_atRest (ops := rest) ((finish_driver hf).1.trans (h.busy_of_micro hm))
    exact ⟨h1, fun _ => h2⟩
  · obtain ⟨hb, hm, -⟩ := raiseAt_bank rest e s
    exact ⟨atRest_idle hb hm, fun _ _ => raiseAt_locals rest e s⟩

/-- A command is rejected with a contract violation, or it is a run from a state that differs at most by the command's own
first write, to RESULT, to one LED or to one entry of the pin map. -/
theorem started_run {i : Instr} {s t : State} (h : Started s i t) :
    (∃ e, e.isContract = true ∧ t = s.raise e) ∨
    ∃ ops u, t = run ops u ∧ u = { s with result := u.result, ledStates := u.ledStates, pinmap := u.pinmap } := by
  cases h with
  | rejected i e he => exact .inl ⟨e, he, rfl⟩
  | _ => exact .inr ⟨_, _, rfl, rfl⟩

theorem started_atRest {i : Instr} {s t : State} (hb : s.busy = true) (h : Started s i t) : AtRest t ∧ Clean t := by
  obtain ⟨e, -, rfl⟩ | ⟨ops, u, rfl, hu⟩ := started_run h
  · exact ⟨atRest_idle rfl rfl, fun _ => rfl⟩
  · exact run_atRest (by rw [hu]; exact hb)

theorem outsideOnly.busy {s t : State} (h : outsideOnly s t) : t.busy = s.busy := by rw [h]
theorem outsideOnly.micro {s t : State} (h : outsideOnly s t) : t.micro = s.micro := by rw [h]
theorem outsideOnly.locals {s t : State} (h : outsideOnly s t) : t.locals = s.locals := by rw [h]

/-- Every step leaves the command at rest. -/
theorem step_atRest {s t : State} (hs : AtRest s) (h : step s = .next t) : AtRest t :=
  step_induction (I := AtRest) (port := fun _ _ hu ho _ => hu.of_eq ho.busy ho.micro)
    (released := fun _ _ hu => hu.of_eq rfl rfl) (returned := fun _ r hu => (resume_atRest r hu).1)
    (wasReset := fun _ _ _ => atRest_idle rfl rfl) (command := fun _ _ _ _ _ _ hst => (started_atRest rfl hst).1) hs h

/-- A started command is rejected, or it is a run, and `W` holds of its steps and of the state it runs from. -/
def Starts (W : List Op → State → Prop) (s t : State) : Prop :=
  (∃ e, t = s.raise e) ∨ ∃ ops u, t = run ops u ∧ W ops u

theorem Starts.imp {W V : List Op → State → Prop} {s t : State} (hWV : ∀ ops u, W ops u → V ops u)
    (h : Starts W s t) : Starts V s t :=
  Or.imp_right (fun ⟨ops, u, ht, hu⟩ => ⟨ops, u, ht, hWV ops u hu⟩) h

/-- Every step of a command at rest keeps what runs keep, if a released claim, a reset and the start of a command from an
idle block do. -/
theorem RunKeeps.step {W : List Op → State → Prop} (hW : RunKeeps W) {s t : State}
    (released : ∀ ops u p, W ops u → W ops (u.updPin p fun x => { x with claimed := false }))
    (wasReset : s.world.head? = some .reset → ∀ u, W u.micro u → W [] u.resetBlock)
    (started : ∀ u i t, W [] u → Started u i t → Starts W u t)
    (hrest : AtRest s) (hs : W s.micro s) (h : step s = .next t) : W t.micro t := by
  refine (step_induction (I := fun s => AtRest s ∧ W s.micro s) ?port ?released ?returned ?wasReset ?command
    ⟨hrest, hs⟩ h).2
  case port =>
    exact fun u v ⟨hr, hu⟩ ho hp => ⟨hr.of_eq ho.busy ho.micro, by rw [ho.micro]; exact hW.same hu (ho.sameUnits hp)⟩
  case released => exact fun u p ⟨hr, hu⟩ => ⟨hr.of_eq rfl rfl, released _ u p hu⟩
  case returned =>
    exact fun u r ⟨hr, hu⟩ => ⟨(resume_atRest r hr).1, hW.resume hu fun op rest t hm hf =>
      hW.returned (hr.outstanding op rest hm) (hm ▸ hu) hf⟩
  case wasReset => exact fun hw u ⟨_, hu⟩ => ⟨atRest_idle rfl rfl, wasReset hw u hu⟩
  case command =>
    intro u v i t ⟨hr, hu⟩ hb hst
    rw [hr.micro_nil hb] at hu
    have hu : W [] (u.accept v) := hW.same hu (sameUnits_accept v u)
    refine ⟨(started_atRest rfl hst).1, ?_⟩
    obtain ⟨e, rfl⟩ | ⟨ops, x, rfl, hx⟩ := started _ i t hu hst
    · exact hW.same hu (sameUnits_raise e _)
    · exact hW.run hx

/-- Every step leaves an idle block without kept values. -/
theorem step_clean {s t : State} (hs : AtRest s ∧ Clean s) (h : step s = .next t) : AtRest t ∧ Clean t :=
  step_induction (I := fun s => AtRest s ∧ Clean s)
    (port := fun _ _ hu ho _ => ⟨hu.1.of_eq ho.busy ho.micro, by rw [Clean, ho.busy, ho.locals]; exact hu.2⟩)
    (released := fun _ _ hu => ⟨hu.1.of_eq rfl rfl, hu.2⟩)
    (returned := fun _ r hu => ⟨(resume_atRest r hu.1).1, (resume_atRest r hu.1).2 hu.2⟩)
    (wasReset := fun _ _ _ => ⟨atRest_idle rfl rfl, fun _ => rfl⟩)
    (command := fun _ _ _ _ _ _ hst => started_atRest rfl hst) hs h

end Sys2Proof.Machine

namespace Sys2Proof.Machine

/-! ### The driver state (R28, R29, R31) -/

/-- The driver state fits the steps still to do, and `enabled` is on only outside UNINIT: the part of the driver invariant
that a run keeps. -/
structure DriverWork (ops : List Op) (s : State) : Prop where
  walk : lawfulWalk s.sstate ops = true
  enabled_begun : s.enabled = true → s.sstate ≠ .uninit

theorem driverInv_iff {s : State} : DriverInv s ↔ AtRest s ∧ DriverWork s.micro s :=
  ⟨fun ⟨hb, ho, hw, he⟩ => ⟨⟨hb, ho⟩, hw, he⟩, fun ⟨⟨hb, ho⟩, hw, he⟩ => ⟨hb, ho, hw, he⟩⟩

theorem waits_of_canRaise {op : Op} (h : op.canRaise = true) (hc : op ≠ .checkId) : op.waits = true := by
  cases op <;> first | rfl | exact absurd rfl hc | cases h

/-- A step that can raise does not move the driver state. -/
theorem walk_canRaise {op : Op} (h : op.canRaise = true) (x : SState) (ops : List Op) :
    lawfulWalk x (op :: ops) = lawfulWalk x ops := by
  by_cases hc : op = .checkId
  · simp [hc, lawfulWalk]
  · exact walk_waits (waits_of_canRaise h hc) x ops

theorem raiseAt_inTry {rest : List Op} (h : inTry rest = true) (e : ErrCode) (s : State) :
    raiseAt rest e s = (s.revertBegin).raise e := by simp [raiseAt, h]

theorem raiseAt_outside {rest : List Op} (h : inTry rest = false) (e : ErrCode) (s : State) :
    raiseAt rest e s = s.raise e := by simp [raiseAt, h]

theorem DriverWork.internal {op : Op} {rest : List Op} {s t : State} (ha : op.action s = none)
    (h : DriverWork (op :: rest) s) (hi : op.internal s = .ok t) : DriverWork rest t := by
  obtain ⟨hw, he⟩ := h
  cases op <;> simp only [Op.action, reduceCtorEq] at ha <;> simp only [Op.internal] at hi
  case checkId => split at hi <;> cases hi; exact ⟨hw, he⟩
  case setVerifying => cases hi; simp only [lawfulWalk, Bool.and_eq_true] at hw; exact ⟨hw.2, nofun⟩
  case setReady => cases hi; simp only [lawfulWalk, Bool.and_eq_true] at hw; exact ⟨hw.2, nofun⟩
  case setEnabled e =>
    cases hi
    simp only [lawfulWalk, Bool.and_eq_true, decide_eq_true_eq] at hw
    exact ⟨hw.2, fun _ => hw.1⟩
  all_goals cases hi; exact ⟨hw, he⟩

theorem DriverWork.raised {op : Op} {rest : List Op} {e : ErrCode} {s : State} (ho : op.canRaise = true)
    (h : DriverWork (op :: rest) s) : DriverWork [] (raiseAt rest e s) := by
  obtain ⟨hw, he⟩ := h
  rw [walk_canRaise ho] at hw
  cases ht : inTry rest with
  | true => rw [raiseAt_inTry ht]; exact ⟨rfl, nofun⟩
  | false =>
    rw [raiseAt_outside ht]
    refine ⟨decide_eq_true fun hv => ?_, he⟩
    have hv : s.sstate = .verifying := hv
    rw [hv] at hw
    simp [walk_verifying hw] at ht

theorem driverWork_keeps : RunKeeps DriverWork where
  same h e := ⟨by rw [e.sstate]; exact h.walk, by rw [e.sstate, e.enabled]; exact h.enabled_begun⟩
  work h := ⟨h.walk, h.enabled_begun⟩
  returned ho h hf := by
    obtain ⟨-, hss, hen, -, -⟩ := finish_driver hf
    exact ⟨by rw [hss, ← walk_waits ho]; exact h.walk, by rw [hss, hen]; exact h.enabled_begun⟩
  internal := DriverWork.internal
  raised := DriverWork.raised

/-- The guard brings the driver to READY, from wherever a command may start (R121, R122). -/
theorem walk_guard {s : State} (h : s.sstate ≠ .verifying) (body : List Op) :
    lawfulWalk s.sstate (guardOps s ++ body) = lawfulWalk .ready body := by
  cases hs : s.sstate with
  | uninit => simp [guardOps, hs, beginOps, enableBody, lawfulWalk]
  | verifying => exact absurd hs h
  | ready => simp [guardOps, hs]

/-- Steps that can be outstanding do not move the driver state. -/
theorem walk_append_waits {ops : List Op} (h : ∀ op ∈ ops, op.waits = true) (x : SState) (rest : List Op) :
    lawfulWalk x (ops ++ rest) = lawfulWalk x rest := by
  induction ops with
  | nil => rfl
  | cons op ops ih => rw [List.cons_append, walk_waits (h op (by simp)), ih fun o ho => h o (by simp [ho])]

theorem mem_claimOps {inv : Bool} {ps : List Byte} {op : Op} : op ∈ claimOps inv ps ↔
    ∃ p ∈ ps, op = .pinOpen p ∨ op = .pinSetOutput p ∨ op = .pinWrite p (ledLevel false inv) := by
  simp [claimOps]

theorem claimOps_waits {inv : Bool} {ps : List Byte} : ∀ op ∈ claimOps inv ps, op.waits = true := by
  intro op h
  obtain ⟨p, -, rfl | rfl | rfl⟩ := mem_claimOps.1 h <;> rfl

/-- The steps of a command that starts from an idle block fit the driver state, which its own first write leaves. -/
theorem started_driverWork {i : Instr} {s t : State} (h : DriverWork [] s) (hst : Started s i t) :
    Starts (fun ops u => DriverWork ops u ∧ u.sstate = s.sstate) s t := by
  have runs : ∀ ops u, u.sstate = s.sstate → u.enabled = s.enabled → lawfulWalk s.sstate ops = true →
      Starts (fun ops u => DriverWork ops u ∧ u.sstate = s.sstate) s (run ops u) :=
    fun ops u hss hen hw => .inr ⟨ops, u, rfl, ⟨hss ▸ hw, by rw [hss, hen]; exact h.enabled_begun⟩, hss⟩
  have guarded : ∀ body, lawfulWalk .ready body = true → lawfulWalk s.sstate (guardOps s ++ body) = true :=
    fun body hw => (walk_guard (of_decide_eq_true h.walk) body).trans hw
  cases hst with
  | rejected i e _ => exact .inl ⟨e, rfl⟩
  | bwr | brd | brd2 => exact runs _ _ rfl rfl h.walk
  | enable | disable | setatime | setgain | readrgb => exact runs _ _ rfl rfl (guarded _ rfl)
  | ledinit => exact runs _ _ rfl rfl ((walk_append_waits claimOps_waits _ _).trans h.walk)
  | ledpin | setled | getled => exact runs _ _ rfl rfl h.walk

/-- Settles O55: every step leaves the command at rest, and keeps the driver's part of the invariant as a run does. -/
theorem driverInvariantKept : Obligations.DriverInvariantKept := by
  intro s t hs h
  obtain ⟨hrest, hw⟩ := driverInv_iff.1 hs
  refine driverInv_iff.2 ⟨step_atRest hrest h, driverWork_keeps.step ?released ?wasReset ?started hrest hw h⟩
  case released => exact fun ops u p hu => ⟨hu.walk, hu.enabled_begun⟩
  case wasReset => exact fun _ u _ => ⟨rfl, nofun⟩
  case started => exact fun u i t hu hst => (started_driverWork hu hst).imp fun _ _ hx => hx.1

/-! ### READY is left only by a reset (R28, R256) -/

/-- From READY no step still to do enters or leaves the `try` block of `Begin`. -/
theorem walk_ready {ops : List Op} (h : lawfulWalk .ready ops = true) : inTry ops = false := by
  have hmem : Op.setReady ∉ ops := by
    induction ops with
    | nil => simp
    | cons op ops ih => cases op <;> simp [lawfulWalk] at h ⊢ <;> exact ih h
  simp [inTry, hmem]

/-- The driver is READY, and the steps still to do fit that. -/
structure ReadyWork (ops : List Op) (s : State) : Prop extends DriverWork ops s where
  ready : s.sstate = .ready

theorem internal_ready {op : Op} {rest : List Op} {s t : State} (h : ReadyWork (op :: rest) s)
    (hi : op.internal s = .ok t) : t.sstate = .ready := by
  obtain ⟨⟨hw, -⟩, hr⟩ := h
  rw [hr] at hw
  cases op <;> simp only [Op.internal] at hi <;> (try split at hi) <;> cases hi <;> first
    | exact hr
    | simp [lawfulWalk] at hw

theorem readyWork_keeps : RunKeeps ReadyWork where
  same h e := ⟨driverWork_keeps.same h.toDriverWork e, e.sstate.trans h.ready⟩
  work h := ⟨driverWork_keeps.work h.toDriverWork, h.ready⟩
  returned ho h hf := ⟨driverWork_keeps.returned ho h.toDriverWork hf, (finish_driver hf).2.1.trans h.ready⟩
  internal ha h hi := ⟨h.toDriverWork.internal ha hi, internal_ready h hi⟩
  raised := by
    intro op rest e s ho h
    refine ⟨h.toDriverWork.raised ho, ?_⟩
    have hw : lawfulWalk .ready rest = true := by rw [← h.ready, ← walk_canRaise ho]; exact h.walk
    rw [raiseAt_outside (walk_ready hw)]
    exact h.ready

/-- Settles O41: a step that is no reset keeps READY together with the driver invariant. -/
theorem readyIsLeftOnlyByReset : Obligations.ReadyIsLeftOnlyByReset := by
  intro s t hs hr hworld h
  obtain ⟨hrest, hw⟩ := driverInv_iff.1 hs
  refine (readyWork_keeps.step ?released ?wasReset ?started hrest ⟨hw, hr⟩ h).ready
  case released => exact fun ops u p hu => ⟨⟨hu.walk, hu.enabled_begun⟩, hu.ready⟩
  case wasReset => exact fun h => absurd h hworld
  case started =>
    exact fun u i t hu hst => (started_driverWork hu.toDriverWork hst).imp
      fun _ _ ⟨hx, hss⟩ => ⟨hx, hss.trans hu.ready⟩

/-! ### The shadow configuration (R27) -/

/-- The shadow codes are listed ones, and so is every code still to be written: the configuration invariant of a state with
these steps to do. -/
structure ConfigWork (ops : List Op) (s : State) : Prop where
  atime_legal : atimeLegal s.atime = true
  gain_legal : gainLegal s.gain = true
  pending_legal : ∀ op ∈ ops, op.codeLegal = true

theorem configInv_iff {s : State} : ConfigInv s ↔ ConfigWork s.micro s :=
  ⟨fun ⟨ha, hg, hp⟩ => ⟨ha, hg, hp⟩, fun ⟨ha, hg, hp⟩ => ⟨ha, hg, hp⟩⟩

theorem raiseAt_config (rest : List Op) (e : ErrCode) (s : State) :
    (raiseAt rest e s).atime = s.atime ∧ (raiseAt rest e s).gain = s.gain := by
  unfold raiseAt; split <;> exact ⟨rfl, rfl⟩

/-- The shadow codes after a step inside the block are the ones before, or the step's own. -/
theorem internal_config {op : Op} {s t : State} (h : op.internal s = .ok t) :
    (t.atime = s.atime ∨ op = .setAtime t.atime) ∧ (t.gain = s.gain ∨ op = .setGain t.gain) := by
  cases op <;> simp only [Op.internal] at h <;> (try split at h) <;> cases h <;> simp

theorem ConfigWork.returned {op : Op} {rest : List Op} {r : Reply} {s t : State} (h : ConfigWork (op :: rest) s)
    (hf : op.finish r s = .ok t) : ConfigWork rest t := by
  obtain ⟨-, -, -, ha, hg⟩ := finish_driver hf
  exact ⟨ha ▸ h.atime_legal, hg ▸ h.gain_legal, fun o ho => h.pending_legal o (by simp [ho])⟩

theorem ConfigWork.internal {op : Op} {rest : List Op} {s t : State} (h : ConfigWork (op :: rest) s)
    (hi : op.internal s = .ok t) : ConfigWork rest t := by
  have hop : op.codeLegal = true := h.pending_legal op (by simp)
  obtain ⟨ha, hg⟩ := internal_config hi
  refine ⟨?_, ?_, fun o ho => h.pending_legal o (by simp [ho])⟩
  · rcases ha with ha | rfl
    · rw [ha]; exact h.atime_legal
    · exact hop
  · rcases hg with hg | rfl
    · rw [hg]; exact h.gain_legal
    · exact hop

theorem configWork_keeps : RunKeeps ConfigWork where
  same h e := ⟨e.atime ▸ h.atime_legal, e.gain ▸ h.gain_legal, h.pending_legal⟩
  work h := ⟨h.atime_legal, h.gain_legal, by simpa [Op.codeLegal] using h.pending_legal⟩
  returned _ h hf := h.returned hf
  internal _ h hi := h.internal hi
  raised := by
    intro op rest e s _ h
    obtain ⟨ha, hg⟩ := raiseAt_config rest e s
    exact ⟨by rw [ha]; exact h.atime_legal, by rw [hg]; exact h.gain_legal, nofun⟩

/-- What holds of every step of the begin sequence holds of every step of the guard. -/
theorem guardOps_forall {P : Op → Prop} {s : State} (h : ∀ op ∈ beginOps s, P op) : ∀ op ∈ guardOps s, P op := by
  unfold guardOps
  split
  · exact h
  · exact nofun

theorem guardOps_codeLegal (s : State) : ∀ op ∈ guardOps s, op.codeLegal = true :=
  guardOps_forall (by simp [beginOps, enableBody, Op.codeLegal])

/-- The codes a command's steps write are listed ones: the operand checks of R86. -/
theorem started_configWork {i : Instr} {s t : State} (ha : atimeLegal s.atime = true) (hg : gainLegal s.gain = true)
    (hst : Started s i t) : Starts ConfigWork s t := by
  have runs : ∀ ops u, u.atime = s.atime → u.gain = s.gain → (∀ op ∈ ops, op.codeLegal = true) →
      Starts ConfigWork s (run ops u) :=
    fun ops u hua hug hops => .inr ⟨ops, u, rfl, hua ▸ ha, hug ▸ hg, hops⟩
  have guarded : ∀ body, (∀ op ∈ body, op.codeLegal = true) → ∀ op ∈ guardOps s ++ body, op.codeLegal = true :=
    fun body h op ho => (List.mem_append.1 ho).elim (guardOps_codeLegal s op) (h op)
  cases hst with
  | rejected i e _ => exact .inl ⟨e, rfl⟩
  | bwr | brd | brd2 | ledpin | setled | getled => exact runs _ _ rfl rfl (by simp [Op.codeLegal])
  | enable | disable | readrgb => exact runs _ _ rfl rfl (guarded _ (by simp [enableBody, Op.codeLegal]))
  | setatime c hc => exact runs _ _ rfl rfl (guarded _ (by simp [Op.codeLegal, hc]))
  | setgain c hc => exact runs _ _ rfl rfl (guarded _ (by simp [Op.codeLegal, hc]))
  | ledinit n inv _ _ =>
    refine runs _ _ rfl rfl fun op ho => ?_
    rcases List.mem_append.1 ho with ho | ho
    · obtain ⟨p, -, rfl | rfl | rfl⟩ := mem_claimOps.1 ho <;> rfl
    · cases List.mem_singleton.1 ho; rfl

/-- Settles O56: a shadow code is written only by its own step, whose code was checked when the command started. -/
theorem configInvariantKept : Obligations.ConfigInvariantKept := by
  intro s t hs h
  refine configInv_iff.2 (step_induction (I := fun s => ConfigWork s.micro s) ?port ?released ?returned ?wasReset
    ?command (configInv_iff.1 hs) h)
  case port => exact fun u v hu ho hp => by rw [ho.micro]; exact configWork_keeps.same hu (ho.sameUnits hp)
  case released => exact fun u p hu => ⟨hu.atime_legal, hu.gain_legal, hu.pending_legal⟩
  case returned =>
    exact fun u r hu => configWork_keeps.resume hu fun op rest t hm hf => ConfigWork.returned (hm ▸ hu) hf
  case wasReset => exact fun _ u _ => ⟨rfl, rfl, nofun⟩
  case command =>
    intro u v i t hu _ hst
    obtain ⟨e, rfl⟩ | ⟨ops, x, rfl, hx⟩ := started_configWork (s := u.accept v) hu.atime_legal hu.gain_legal hst
    · exact ⟨hu.atime_legal, hu.gain_legal, nofun⟩
    · exact configWork_keeps.run hx

end Sys2Proof.Machine

namespace Sys2Proof.Machine

/-! ### The LED bank (R32, R33, R187, R188, R194) -/

/-- The LED invariant of a bank and the steps still to do, apart from what `AtRest` says. -/
structure BankWork (ops : List Op) (b : Bank) : Prop where
  pins_wf : b.pins.wf = true
  count_le : b.ledcount.toNat ≤ Config.nledMax
  empty_or_up : b.lbinit = false → b.empty
  levels : (Bank.settle ops b).lbinit = true → (Bank.settle ops b).distinctPins → (Bank.settle ops b).levelsMatch
  one_unit : (∀ op ∈ ops, op.isPin = false) ∨ (∀ op ∈ ops, op.isPin = true ∨ op = .work)
  claiming : ∀ p, .pinOpen p ∈ ops → b.lbinit = false
  coming_up : ∀ n v, .bankUp n v ∈ ops → b.lbinit = false ∧ n.toNat ≤ Config.nledMax
  up_last : upLast ops = true

theorem bankInv_iff {s : State} : BankInv s ↔ AtRest s ∧ BankWork s.micro s.bank :=
  ⟨fun ⟨hb, ho, h1, h2, h3, h4, h5, h6, h7, h8⟩ => ⟨⟨hb, ho⟩, h1, h2, h3, h4, h5, h6, h7, h8⟩,
   fun ⟨⟨hb, ho⟩, h1, h2, h3, h4, h5, h6, h7, h8⟩ => ⟨hb, ho, h1, h2, h3, h4, h5, h6, h7, h8⟩⟩

theorem upLast_tail {op : Op} {ops : List Op} (h : upLast (op :: ops) = true) : upLast ops = true := by
  cases op <;> simp only [upLast, List.isEmpty_iff] at h <;> first
    | exact h
    | (subst h; rfl)

/-- The success writes of LEDINIT leave nothing to do. -/
theorem upLast_bankUp {n : Byte} {v : Bool} {ops : List Op} (h : upLast (.bankUp n v :: ops) = true) : ops = [] := by
  simpa [upLast] using h

/-- Only the success writes of LEDINIT touch a bank field; every other step is at most a pin operation. -/
theorem onBank_fields {op : Op} (h : ∀ n v, op ≠ .bankUp n v) (b : Bank) :
    op.onBank b = { b with pins := (op.onBank b).pins } := by
  cases op <;> first | rfl | exact absurd rfl (h _ _)

/-- One step less to do. -/
theorem BankWork.onBank {op : Op} {rest : List Op} {b : Bank} (h : BankWork (op :: rest) b) :
    BankWork rest (op.onBank b) := by
  have hw := onBank_wf op h.pins_wf
  have hu := upLast_tail h.up_last
  have one : (∀ o ∈ rest, o.isPin = false) ∨ (∀ o ∈ rest, o.isPin = true ∨ o = .work) :=
    h.one_unit.imp (fun hp o ho => hp o (by simp [ho])) (fun hp o ho => hp o (by simp [ho]))
  by_cases hop : ∃ n v, op = .bankUp n v
  · obtain ⟨n, v, rfl⟩ := hop
    obtain rfl := upLast_bankUp h.up_last
    exact ⟨hw, (h.coming_up n v (by simp)).2, nofun, h.levels, one, nofun, nofun, hu⟩
  · have hf := onBank_fields (fun n v ho => hop ⟨n, v, ho⟩) b
    have hl : (op.onBank b).lbinit = b.lbinit := by rw [hf]
    refine ⟨hw, by rw [hf]; exact h.count_le, fun hl' => ?_, h.levels, one, fun p hp => ?_, fun n v hn => ?_, hu⟩
    · rw [hf]; exact h.empty_or_up (hl ▸ hl')
    · rw [hl]; exact h.claiming p (by simp [hp])
    · rw [hl]; exact h.coming_up n v (by simp [hn])

/-- An error ending abandons the steps still to do: a failed claim leaves no bank, and no other step that can raise
belongs to a LED command (R187, R193). -/
theorem BankWork.abandon {op : Op} {rest : List Op} {b : Bank} (ho : op.canRaise = true)
    (h : BankWork (op :: rest) b) : BankWork [] b := by
  refine ⟨h.pins_wf, h.count_le, h.empty_or_up, fun hl => ?_, .inl nofun, nofun, nofun, rfl⟩
  by_cases hp : op.isPin = true
  · have hop : ∃ p, op = .pinOpen p := by cases op <;> simp [Op.canRaise, Op.isPin] at ho hp ⊢
    obtain ⟨p, rfl⟩ := hop
    have hb : b.lbinit = true := hl
    simp [h.claiming p (by simp)] at hb
  · have hnone : ∀ o ∈ op :: rest, o.isPin = false := by
      refine h.one_unit.resolve_right fun hall => ?_
      obtain hpin | rfl := hall op (by simp)
      · exact hp hpin
      · cases ho
    have := h.levels
    rw [settle_of_not_pin hnone] at this
    exact this hl

theorem bankWork_keeps : RunKeeps fun ops s => BankWork ops s.bank where
  same h e := by rw [e.bank]; exact h
  work h := ⟨h.pins_wf, h.count_le, h.empty_or_up, h.levels, by simpa [Op.isPin] using h.one_unit,
    by simpa using h.claiming, by simpa using h.coming_up, h.up_last⟩
  returned ho h hf := by rw [(finish_bank hf ho).2]; exact h.onBank
  internal ha h hi := by rw [(internal_bank hi ha).2]; exact h.onBank
  raised ho h := by rw [(raiseAt_bank ..).2.2]; exact h.abandon ho

/-- A bank's levels match if they match in a bank with the same fields and the same pin levels. -/
theorem levelsMatch_congr {b c : Bank} (hi : b.inverted = c.inverted) (hn : b.ledcount = c.ledcount)
    (hs : b.ledStates = c.ledStates) (hp : b.pinmap = c.pinmap)
    (hl : ∀ q, (b.pins.get q).level = (c.pins.get q).level) (h : c.levelsMatch) : b.levelsMatch := by
  intro i hlt
  have := h i (hn ▸ hlt)
  simp only [Bank.pinState, Bank.pinOf, Bank.led, hi, hs, hp, hl] at this ⊢
  exact this

theorem distinctPins_congr {b c : Bank} (hn : b.ledcount = c.ledcount) (hp : b.pinmap = c.pinmap) :
    b.distinctPins ↔ c.distinctPins := by
  simp only [Bank.distinctPins, Bank.pinOf, hn, hp]

/-- A claim the transport releases leaves every level (R182). -/
theorem BankWork.release {ops : List Op} {u : State} (p : Byte) (h : BankWork ops u.bank) :
    BankWork ops (u.updPin p fun x => { x with claimed := false }).bank := by
  have hw : (u.updPin p fun x => { x with claimed := false }).bank.pins.wf = true := Pins.set_wf _ _ h.pins_wf
  have hlev : ∀ q, ((u.updPin p fun x => { x with claimed := false }).bank.pins.get q).level =
      (u.bank.pins.get q).level := by
    intro q
    show ((u.pins.set p.toNat { u.pins.get p.toNat with claimed := false }).get q).level = (u.pins.get q).level
    rw [Pins.get_set _ _ _ (show u.pins.wf = true from h.pins_wf)]
    split
    · rename_i hq; subst hq; rfl
    · rfl
  obtain ⟨h1, h2, h3, h4, h5, h6⟩ := settle_levels ops (u.updPin p fun x => { x with claimed := false }).bank u.bank
    rfl rfl rfl rfl rfl hw h.pins_wf hlev
  exact ⟨hw, h.count_le, h.empty_or_up,
    fun hl hd => levelsMatch_congr h2 h3 h4 h5 h6 (h.levels (h1 ▸ hl) ((distinctPins_congr h3 h5).1 hd)),
    h.one_unit, h.claiming, h.coming_up, h.up_last⟩

theorem led_replicate (i : Nat) : ((Vector.replicate Config.nledMax false)[i]?).getD false = false := by
  rw [Vector.getElem?_replicate]; split <;> rfl

theorem pin_replicate (i : Nat) : ((Vector.replicate Config.nledMax 0x00#8)[i]?).getD 0 = 0x00#8 := by
  rw [Vector.getElem?_replicate]; split <;> rfl

/-- A reset leaves an uninitialized bank and nothing to do, whatever pin record it leaves (R36, R241). -/
theorem bankWork_reset {ps : Pins} (h : ps.wf = true) : BankWork [] { State.reset.bank with pins := ps } :=
  ⟨h, Nat.zero_le _, fun _ => ⟨rfl, rfl, led_replicate⟩, nofun, .inl nofun, nofun, nofun, rfl⟩

/-! ### The start of a command and the LED bank -/

theorem upLast_of_not_pin {ops : List Op} (h : ∀ op ∈ ops, op.isPin = false) : upLast ops = true := by
  induction ops with
  | nil => rfl
  | cons op ops ih =>
    have hop := h op (by simp)
    have ih := ih fun o ho => h o (by simp [ho])
    cases op <;> first | exact ih | cases hop

/-- A bus or driver command has no step of the LED bank (R193). -/
theorem BankWork.not_pin {ops : List Op} {b : Bank} (h : BankWork [] b) (hp : ∀ op ∈ ops, op.isPin = false) :
    BankWork ops b :=
  ⟨h.pins_wf, h.count_le, h.empty_or_up, by rw [settle_of_not_pin hp]; exact h.levels, .inl hp,
    fun _ hm => absurd (hp _ hm) nofun, fun _ _ hm => absurd (hp _ hm) nofun, upLast_of_not_pin hp⟩

theorem guardOps_not_pin (s : State) : ∀ op ∈ guardOps s, op.isPin = false :=
  guardOps_forall (by simp [beginOps, enableBody, Op.isPin])

/-- LEDPIN writes an entry of the pin map while there is no bank (R186). -/
theorem BankWork.ledpin {s : State} (i : Nat) (p : Byte) (h : BankWork [] s.bank) (hl : s.lbinit = false) :
    BankWork [] (s.setPinmap i p).bank := by
  refine ⟨h.pins_wf, h.count_le, h.empty_or_up, fun hup => ?_, .inl nofun, nofun, nofun, rfl⟩
  have hup : s.lbinit = true := hup
  simp [hl] at hup

/-- The pin of each of the first `n` LEDs is among those LEDINIT claims. -/
theorem pinOf_mem_bankPins {s : State} {i n : Nat} (hi : i < n) (hn : n ≤ Config.nledMax) :
    s.bank.pinOf i ∈ s.bankPins n := by
  have h3 : i < Config.nledMax := by omega
  refine List.mem_take_iff_getElem.2 ⟨i, by simp; omega, ?_⟩
  simp [Bank.pinOf, State.bank, h3]

theorem upLast_claims (inv v : Bool) (n : Byte) (ps : List Byte) : upLast (claimOps inv ps ++ [.bankUp n v]) = true := by
  induction ps with
  | nil => rfl
  | cons p ps ih => simpa [claimOps, upLast] using ih

/-- LEDINIT claims its pins and drives each to the off level before the bank is up (R187). -/
theorem BankWork.ledinit {s : State} {n : Byte} (inv : Bool) (h : BankWork [] s.bank) (hl : s.lbinit = false)
    (hn : n.toNat ≤ Config.nledMax) : BankWork (claimOps inv (s.bankPins n.toNat) ++ [.bankUp n inv]) s.bank := by
  refine ⟨h.pins_wf, h.count_le, h.empty_or_up, fun _ _ i hi => ?_, .inr fun op ho => ?_, fun _ _ => hl,
    fun m v hm => ⟨hl, ?_⟩, upLast_claims ..⟩
  · rw [settle_append] at hi ⊢
    obtain ⟨-, hpm, -, hget⟩ := claims_settle inv (s.bankPins n.toNat) s.bank h.pins_wf
    have hpin : (Bank.settle (claimOps inv (s.bankPins n.toNat)) s.bank).pinOf i = s.bank.pinOf i := by
      rw [Bank.pinOf, hpm]; rfl
    have hi : i < n.toNat := hi
    show ((Bank.settle (claimOps inv (s.bankPins n.toNat)) s.bank).pinState i).level = some (ledLevel _ inv)
    rw [Bank.pinState, hpin, hget, if_pos (pinOf_mem_bankPins hi hn)]
    show some inv = some (ledLevel (((Vector.replicate Config.nledMax false)[i]?).getD false) inv)
    rw [led_replicate, ledLevel, Bool.false_xor]
  · rcases List.mem_append.1 ho with ho | ho
    · obtain ⟨p, -, rfl | rfl | rfl⟩ := mem_claimOps.1 ho <;> exact .inl rfl
    · cases List.mem_singleton.1 ho; exact .inl rfl
  · rcases List.mem_append.1 hm with hm | hm
    · obtain ⟨p, -, hp | hp | hp⟩ := mem_claimOps.1 hm <;> cases hp
    · cases List.mem_singleton.1 hm; exact hn

/-- A bank with an LED is initialized (R32). -/
theorem BankWork.up {ops : List Op} {b : Bank} (h : BankWork ops b) (hn : 0 < b.ledcount.toNat) : b.lbinit = true := by
  by_contra hl
  obtain ⟨h0, -, -⟩ := h.empty_or_up (by simpa using hl)
  simp [h0] at hn

/-- SETLED stores the logical value and has its level still to write (R189). -/
theorem BankWork.setled {s : State} {i : Nat} (v : Bool) (h : BankWork [] s.bank) (hi : i < s.ledcount.toNat) :
    BankWork [.pinWrite (s.pinOf i) (ledLevel v s.inverted)] (s.setLed i v).bank := by
  have hup : s.bank.lbinit = true := h.up (Nat.zero_lt_of_lt hi)
  have hi3 : i < Config.nledMax := Nat.lt_of_lt_of_le hi h.count_le
  refine ⟨h.pins_wf, h.count_le, fun hl => ?_, fun _ hd j hj => ?_, .inr ?_, by simp, by simp, rfl⟩
  · have hl : s.bank.lbinit = false := hl
    simp [hup] at hl
  · have hd : s.bank.distinctPins := hd
    have hj : j < s.bank.ledcount.toNat := hj
    show ((s.bank.pins.set (s.bank.pinOf i).toNat _).get (s.bank.pinOf j).toNat).level =
      some (ledLevel (((s.ledStates.setIfInBounds i v)[j]?).getD false) s.inverted)
    rw [Pins.get_set _ _ _ h.pins_wf, led_set _ _ _ _ hi3]
    by_cases hji : j = i
    · simp [hji]
    · have hne : (s.bank.pinOf j).toNat ≠ (s.bank.pinOf i).toNat :=
        fun he => hji (hd j i hj hi (BitVec.eq_of_toNat_eq he))
      rw [if_neg hne, if_neg hji]
      exact h.levels hup hd j hj
  · simp [Op.isPin]

/-- The steps of a command that starts from an idle block fit the LED bank. -/
theorem started_bankWork {i : Instr} {s t : State} (h : BankWork [] s.bank) (hst : Started s i t) :
    Starts (fun ops u => BankWork ops u.bank) s t := by
  have guarded : ∀ body, (∀ op ∈ body, op.isPin = false) → BankWork (guardOps s ++ body) s.bank :=
    fun body hb => h.not_pin fun op ho => (List.mem_append.1 ho).elim (guardOps_not_pin s op) (hb op)
  cases hst with
  | rejected i e _ => exact .inl ⟨e, rfl⟩
  | bwr | brd | brd2 => exact .inr ⟨_, _, rfl, h.not_pin (by simp [Op.isPin])⟩
  | enable | disable | setatime | setgain | readrgb =>
    exact .inr ⟨_, _, rfl, guarded _ (by simp [enableBody, Op.isPin])⟩
  | ledpin index pin _ hl => exact .inr ⟨_, _, rfl, h.ledpin index.toNat pin hl⟩
  | ledinit count inv hc hl => exact .inr ⟨_, _, rfl, h.ledinit inv hl (of_decide_eq_true hc)⟩
  | setled index v hi => exact .inr ⟨_, _, rfl, h.setled v hi⟩
  | getled => exact .inr ⟨_, _, rfl, h⟩

/-- Settles O57: every step leaves the command at rest, and keeps the LED bank's part of the invariant as a run does. -/
theorem bankInvariantKept : Obligations.BankInvariantKept := by
  intro s t hs h
  obtain ⟨hrest, hw⟩ := bankInv_iff.1 hs
  exact bankInv_iff.2 ⟨step_atRest hrest h, bankWork_keeps.step (fun ops u p hu => hu.release p)
    (fun _ u hu => bankWork_reset (Pins.afterReset_wf hu.pins_wf)) (fun u i t => started_bankWork) hrest hw h⟩

end Sys2Proof.Machine

namespace Sys2Proof.Machine

/-! ### The sticky bits (R30) -/

/-- From `s` to `t` the sticky bits stay, and a command that ends there ends without a contract violation: what every run
and every return does (R30, R212). -/
structure NoViolation (s t : State) : Prop where
  cv : t.cv = s.cv
  ovr : t.ovr = s.ovr
  ending : s.busy = true → t.busy = false → t.err.isContract = false

/-- A run leaves the last read data and the sticky bits. -/
theorem run_host (ops : List Op) (s : State) : run ops s = s.withHost (run ops s) := run_withHost ops s s s rfl rfl

/-- A return leaves the last read data and the sticky bits. -/
theorem resume_host (r : Reply) (s : State) : resume r s = s.withHost (resume r s) := resume_withHost r s s

theorem raiseAt_err (rest : List Op) (e : ErrCode) (s : State) : (raiseAt rest e s).err = e := by
  unfold raiseAt; split <;> rfl

theorem start_raised_not_contract {op : Op} {s s' : State} {e : ErrCode} (h : op.start s = .raised e s') :
    e.isContract = false := by
  obtain ⟨-, hi, -⟩ | ⟨a, r, -, -, -, hf⟩ := start_raised h
  · obtain ⟨-, rfl⟩ := internal_error_cases hi; rfl
  · exact finish_not_contract hf

theorem run_noViolation (ops : List Op) (s : State) : NoViolation s (run ops s) where
  cv := by rw [run_host]; rfl
  ovr := by rw [run_host]; rfl
  ending := by
    refine run_induction (P := fun _ s => s.busy = true) (Q := fun t => t.busy = false → t.err.isContract = false)
      ?linger ?finish ?passed ?raised ?waiting ops s
    case linger => intro ops s w h _ hb; simp [h] at hb
    case finish => exact fun s _ _ _ => rfl
    case passed => exact fun op rest s s' h hs => (start_passed_busy hs).trans h
    case raised => intro op rest s e s' _ hs _; rw [raiseAt_err]; exact start_raised_not_contract hs
    case waiting =>
      intro op rest s s' h hs hb
      obtain ⟨a, -, -, hu⟩ := start_waiting hs
      simp [hu.busy, h] at hb

theorem resume_noViolation (r : Reply) (s : State) : NoViolation s (resume r s) where
  cv := by rw [resume_host]; rfl
  ovr := by rw [resume_host]; rfl
  ending := by
    intro hb
    obtain ⟨-, hr⟩ | ⟨op, rest, t, -, hf, hr⟩ | ⟨op, rest, e, -, hf, hr⟩ := resume_cases r s <;> rw [hr]
    · simp [hb]
    · exact (run_noViolation rest t).ending ((finish_driver hf).1.trans hb)
    · intro _; rw [raiseAt_err]; exact finish_not_contract hf

theorem noViolation_of_busy {s t : State} (hc : t.cv = s.cv) (ho : t.ovr = s.ovr) (hb : t.busy = s.busy) :
    NoViolation s t := ⟨hc, ho, fun h1 h2 => by simp [hb, h1] at h2⟩

theorem NoViolation.of_same {s u t : State} (h : NoViolation u t) (hc : u.cv = s.cv) (ho : u.ovr = s.ovr)
    (hb : u.busy = s.busy) : NoViolation s t := ⟨h.cv.trans hc, h.ovr.trans ho, fun h1 => h.ending (hb.trans h1)⟩

/-- A command violates no contract, or it is rejected, which sets CV and leaves OVR. -/
theorem started_sticky {i : Instr} {s t : State} (h : Started s i t) :
    NoViolation s t ∨ t.cv = true ∧ t.ovr = s.ovr ∧ t.busy = false ∧ t.err.isContract = true := by
  obtain ⟨e, he, rfl⟩ | ⟨ops, u, rfl, hu⟩ := started_run h
  · exact .inr ⟨by simp [he], rfl, rfl, he⟩
  · exact .inl ((run_noViolation ops u).of_same (by rw [hu]) (by rw [hu]) (by rw [hu]))

/-! ### Steps on a command word (R21, R81) -/

theorem step_access {s : State} {a : HostAccess} {w : List Stimulus} (hw : s.world = .access a :: w) :
    step s = hostAccess a (s.withWorld w) := by
  simp [step, stepWorld, hw, react]

theorem step_commandWrite {s : State} {v : Word} {w : List Stimulus} (hw : s.world = .access (.write 0x00 4 v) :: w) :
    step s = hostWrite .cmd v (s.withWorld w) := step_access hw

theorem runWord_ok {s : State} {v : Word} {i : Instr} (h : decode v = .ok i) : runWord v s = exec i (s.accept v) := by
  simp [runWord, h]

/-- A word written to an idle block starts as a command, an illegal one as a rejected command. -/
theorem runWord_started {s t : State} {v : Word} (h : runWord v s = .next t) : ∃ i, Started (s.accept v) i t := by
  unfold runWord at h
  split at h
  · exact ⟨_, exec_started h⟩
  · cases h; exact ⟨.enable, .rejected _ _ rfl⟩

/-- Settles O11: the access is a write to CMD, which a busy block drops. -/
theorem busyWordIsDropped : Obligations.BusyWordIsDropped := by
  intro s v w hb hw
  exact (step_commandWrite hw).trans (hostWrite_busy (s := s.withWorld w) v hb)

/-- Settles O9: the access is a write to CMD, which an idle block takes. -/
theorem stepRunsDecodedCommand : Obligations.StepRunsDecodedCommand := by
  intro s v i w hb hw hd
  exact ((step_commandWrite hw).trans (hostWrite_idle (s := s.withWorld w) v hb)).trans (runWord_ok hd)

/-- A word reaches CMD: the next stimulus is a command write. -/
def commandWrite (s : State) : Prop := ∃ v, s.world.head? = some (.access (.write 0x00 4 v))

theorem world_of_head {s : State} {x : Stimulus} (h : s.world.head? = some x) : ∃ w, s.world = x :: w := by
  cases hw : s.world <;> simp_all

/-- A step on no command word and no reset violates no contract. -/
theorem step_noViolation {s t : State} (hc : ¬ commandWrite s) (hr : s.world.head? ≠ some .reset)
    (h : step s = .next t) : NoViolation s t := by
  cases step_stepped h with
  | quiet _ =>
    obtain hu | hu | ⟨r, hu⟩ | ⟨rest, -, hu⟩ := unprompted_cases s <;> rw [hu]
    · exact noViolation_of_busy rfl rfl rfl
    · exact noViolation_of_busy rfl rfl rfl
    · exact (resume_noViolation r s.draw).of_same rfl rfl rfl
    · exact resume_noViolation _ s
  | returned r w _ => exact (resume_noViolation r (s.withWorld w)).of_same rfl rfl rfl
  | lingered w _ => exact noViolation_of_busy rfl rfl rfl
  | wasReset w hw => simp [hw] at hr
  | released p w _ => exact noViolation_of_busy rfl rfl rfl
  | read off n reg w _ =>
    obtain ⟨d, hd | hd⟩ := hostRead_cases reg (s.withWorld w) <;> rw [hd] <;> exact noViolation_of_busy rfl rfl rfl
  | ignored off n v w _ => exact noViolation_of_busy rfl rfl rfl
  | dropped v w hw _ => exact absurd ⟨v, by rw [hw]; rfl⟩ hc
  | illegal v e w hw _ _ => exact absurd ⟨v, by rw [hw]; rfl⟩ hc
  | command v i w t hw _ _ _ => exact absurd ⟨v, by rw [hw]; rfl⟩ hc

/-- What a step that is no reset does to the sticky bits, in all cases. -/
theorem step_sticky {s t : State} (hr : s.world.head? ≠ some .reset) (h : step s = .next t) :
    (s.busy = true ∧ commandWrite s ∧ t.cv = true ∧ t.ovr = true ∧ t.busy = true) ∨
    (t.cv = true ∧ t.ovr = s.ovr ∧ t.busy = false ∧ t.err.isContract = true) ∨
    (t.cv = s.cv ∧ t.ovr = s.ovr ∧ (s.busy = true ∨ commandWrite s → t.busy = false → t.err.isContract = false)) := by
  by_cases hc : commandWrite s
  · obtain ⟨v, hv⟩ := hc
    obtain ⟨w, hw⟩ := world_of_head hv
    cases hb : s.busy with
    | true =>
      rw [busyWordIsDropped s v w hb hw] at h
      cases h; exact .inl ⟨rfl, ⟨v, hv⟩, rfl, rfl, hb⟩
    | false =>
      rw [step_commandWrite hw, hostWrite_idle (s := s.withWorld w) v hb] at h
      obtain ⟨i, hst⟩ := runWord_started h
      obtain hn | hrej := started_sticky hst
      · exact .inr (.inr ⟨hn.cv, hn.ovr, fun _ => hn.ending rfl⟩)
      · exact .inr (.inl hrej)
  · have quiet := step_noViolation hc hr h
    exact .inr (.inr ⟨quiet.cv, quiet.ovr, fun hor => quiet.ending (hor.resolve_right hc)⟩)

theorem step_reset {s : State} {w : List Stimulus} (hw : s.world = .reset :: w) :
    step s = .next (s.withWorld w).resetBlock := by
  simp [step, stepWorld, hw, react]

/-- Settles O17, from what a step does to the sticky bits. -/
theorem stickyBits : Obligations.StickyBits := by
  intro s t h
  refine ⟨fun hr => ?_, fun ⟨hb, v, hv⟩ => ?_, fun hr => ?_⟩
  · obtain ⟨w, hw⟩ := world_of_head hr
    rw [step_reset hw] at h
    cases h; exact ⟨rfl, rfl⟩
  · obtain ⟨w, hw⟩ := world_of_head hv
    rw [busyWordIsDropped s v w hb hw] at h
    cases h; exact ⟨rfl, rfl⟩
  · obtain ⟨hb, hc, hcv, hovr, htb⟩ | ⟨hcv, hovr, htb, he⟩ | ⟨hcv, hovr, hend⟩ := step_sticky hr h
    · exact ⟨fun _ => hcv, fun _ => hovr, fun _ _ => ⟨hb, hc⟩, fun _ _ => .inl ⟨hb, hc⟩, fun _ _ _ => hcv⟩
    · exact ⟨fun _ => hcv, fun h1 => hovr.trans h1, fun h1 h2 => by simp [hovr, h1] at h2,
        fun _ _ => .inr ⟨htb, he⟩, fun _ _ _ => hcv⟩
    · exact ⟨fun h1 => hcv.trans h1, fun h1 => hovr.trans h1, fun h1 h2 => by simp [hovr, h1] at h2,
        fun h1 h2 => by simp [hcv, h1] at h2, fun hor htb he => by simp [hend hor htb] at he⟩

/-- Settles O19: a return hands on the sticky bits it finds, and reads neither them nor the dropped word. -/
theorem droppedWordDoesNotDisturb : Obligations.DroppedWordDoesNotDisturb := by
  intro s t u u' v r w hb hw ht hu hu'
  rw [busyWordIsDropped s v _ hb hw] at ht
  cases ht
  cases hu
  cases hu'
  let x : State := { s with ovr := true, cv := true }
  have h := resume_withHost r (s.withWorld w) x
  have hd : s.hostData = (resume r (s.withWorld w)).hostData := by rw [resume_host]; rfl
  calc resume r (x.withHost (s.withWorld w)) = x.withHost (resume r (s.withWorld w)) := h
    _ = { resume r (s.withWorld w) with ovr := true, cv := true } := by
      rw [State.withHost, show x.hostData = _ from hd]

end Sys2Proof.Machine

namespace Sys2Proof.Machine

/-! ### RESULT at the end of a command (R23) -/

/-- A step that writes RESULT (R103, R105, R134). -/
def Op.writesResult : Op → Bool
  | .resultByte | .resultPair | .resultRgb => true
  | .memWrite _ _ | .memWriteMasked _ _ | .memRead _ | .memReadPair _ _ | .delay | .pinOpen _ | .pinSetOutput _
  | .pinWrite _ _ | .checkId | .setVerifying | .setReady | .setEnabled _ | .setAtime _ | .setGain _ | .bankUp _ _
  | .work => false

/-- The commands that give a result (R23). -/
def GivesResult (i : Instr) : Prop :=
  (∃ r, i = .brd r) ∨ (∃ r, i = .brd2 r) ∨ i = .readrgb ∨ ∃ n, i = .getled n

/-- RESULT is written by the last of the steps still to do, if by any, and by none for a command that gives no result. -/
structure ResultLast (i : Instr) (ops : List Op) : Prop where
  early : ∀ op ∈ ops.dropLast, op.writesResult = false
  owner : ¬ GivesResult i → ∀ op ∈ ops, op.writesResult = false

/-- While a command runs, RESULT is as it was (`r0`) and its write comes last, or it is written and nothing that can fail is
left to do. -/
def ResultWork (i : Instr) (r0 : Word) (ops : List Op) (s : State) : Prop :=
  (s.result = r0 ∧ ResultLast i ops) ∨ (GivesResult i ∧ ∀ op ∈ ops, op = .work)

/-- What `Obligations.ResultKeptByOtherEndings` says of an ended command, with what holds until then. -/
structure ResultRule (i : Instr) (r0 : Word) (t : State) : Prop where
  running : t.busy = true → ResultWork i r0 t.micro t
  ended : t.busy = false → (t.err = .ok ∧ GivesResult i) ∨ t.result = r0

theorem resultLast_of_none {i : Instr} {ops : List Op} (h : ∀ op ∈ ops, op.writesResult = false) : ResultLast i ops :=
  ⟨fun op ho => h op (List.dropLast_subset _ ho), fun _ => h⟩

theorem ResultLast.tail {i : Instr} {op : Op} {rest : List Op} (h : ResultLast i (op :: rest)) : ResultLast i rest := by
  refine ⟨fun o ho => ?_, fun hi o ho => h.owner hi o (by simp [ho])⟩
  have hne : rest ≠ [] := by rintro rfl; simp at ho
  exact h.early o (by simp [List.dropLast_cons_of_ne_nil hne, ho])

/-- The step that writes RESULT leaves nothing to do, and belongs to a command that gives a result. -/
theorem ResultLast.written {i : Instr} {op : Op} {rest : List Op} (h : ResultLast i (op :: rest))
    (hop : op.writesResult = true) : rest = [] ∧ GivesResult i := by
  constructor
  · by_contra hne
    have := h.early op (by simp [List.dropLast_cons_of_ne_nil hne])
    simp [hop] at this
  · by_contra hi
    have := h.owner hi op (by simp)
    simp [hop] at this

theorem ResultWork.delay {i : Instr} {r0 : Word} {ops : List Op} {s : State} (h : ResultWork i r0 ops s) :
    ResultWork i r0 (.work :: ops) s := by
  refine h.imp (fun ⟨hr, hl⟩ => ⟨hr, fun op ho => ?_, fun hi op ho => ?_⟩) (fun ⟨hi, hw⟩ => ⟨hi, by simpa using hw⟩)
  · cases ops with
    | nil => simp at ho
    | cons o ops =>
      obtain rfl | ho := List.mem_cons.1 ho
      · rfl
      · exact hl.early op ho
  · obtain rfl | ho := List.mem_cons.1 ho
    · rfl
    · exact hl.owner hi op ho

theorem finish_result {op : Op} {r : Reply} {s t : State} (h : op.finish r s = .ok t) : t.result = s.result := by
  obtain rfl | ⟨v, rfl⟩ | ⟨x, v, rfl⟩ | ⟨p, -, rfl⟩ | ⟨p, -, rfl⟩ | ⟨p, l, -, rfl⟩ := finish_ok_cases h
  all_goals simp

theorem internal_result {op : Op} {s t : State} (h : op.internal s = .ok t) :
    t.result = s.result ∨ op.writesResult = true := by
  cases op <;> simp only [Op.internal] at h <;> (try split at h) <;> cases h <;> first
    | exact .inl rfl
    | exact .inr rfl

theorem raiseAt_result (rest : List Op) (e : ErrCode) (s : State) : (raiseAt rest e s).result = s.result := by
  unfold raiseAt; split <;> rfl

theorem start_passed_result {op : Op} {s s' : State} (h : op.start s = .passed s') (ho : op.writesResult = false) :
    s'.result = s.result := by
  obtain ⟨-, hi⟩ | ⟨a, u, r, -, -, hu, hf⟩ := start_passed h
  · exact (internal_result hi).resolve_right (by simp [ho])
  · exact (finish_result hf).trans hu.result

theorem ResultWork.passed {i : Instr} {r0 : Word} {op : Op} {rest : List Op} {s s' : State}
    (h : ResultWork i r0 (op :: rest) s) (hs : op.start s = .passed s') : ResultWork i r0 rest s' := by
  obtain ⟨hr, hl⟩ | ⟨hi, hw⟩ := h
  · cases ho : op.writesResult with
    | true =>
      obtain ⟨rfl, hi⟩ := hl.written ho
      exact .inr ⟨hi, nofun⟩
    | false => exact .inl ⟨(start_passed_result hs ho).trans hr, hl.tail⟩
  · exact .inr ⟨hi, fun o ho => hw o (by simp [ho])⟩

theorem ResultWork.returned {i : Instr} {r0 : Word} {op : Op} {rest : List Op} {r : Reply} {s t : State}
    (h : ResultWork i r0 (op :: rest) s) (hf : op.finish r s = .ok t) : ResultWork i r0 rest t :=
  h.imp (fun ⟨hr, hl⟩ => ⟨(finish_result hf).trans hr, hl.tail⟩) (fun ⟨hi, hw⟩ => ⟨hi, fun o ho => hw o (by simp [ho])⟩)

/-- An error ending leaves RESULT: once it is written nothing can raise. -/
theorem ResultWork.raised {i : Instr} {r0 : Word} {op : Op} {rest : List Op} {e : ErrCode} {s : State}
    (h : ResultWork i r0 (op :: rest) s) (ho : op.canRaise = true) : ResultRule i r0 (raiseAt rest e s) := by
  refine ⟨fun hb => ?_, fun _ => .inr ?_⟩
  · simp [(raiseAt_bank rest e s).1] at hb
  · obtain ⟨hr, -⟩ | ⟨-, hw⟩ := h
    · exact (raiseAt_result ..).trans hr
    · obtain rfl := hw op (by simp); cases ho

theorem ResultWork.same {i : Instr} {r0 : Word} {ops : List Op} {s t : State} (h : ResultWork i r0 ops s)
    (hr : t.result = s.result) : ResultWork i r0 ops t := by rw [ResultWork, hr]; exact h

theorem run_resultRule {i : Instr} {r0 : Word} {ops : List Op} {s : State} (hb : s.busy = true)
    (h : ResultWork i r0 ops s) : ResultRule i r0 (run ops s) := by
  have waits : ∀ ops t, t.busy = true → ResultWork i r0 ops t → ResultRule i r0 (t.suspend ops) :=
    fun ops t hb h => ⟨fun _ => h.same rfl, fun hi => by simp [hb] at hi⟩
  refine run_induction (P := fun ops s => s.busy = true ∧ ResultWork i r0 ops s) (Q := ResultRule i r0)
    ?linger ?finish ?passed ?raised ?waiting ops s ⟨hb, h⟩
  case linger => exact fun ops s w ⟨hb, h⟩ _ => waits _ _ hb (h.delay.same rfl)
  case finish => exact fun s ⟨_, h⟩ _ => ⟨nofun, fun _ => h.symm.imp (fun ⟨hi, _⟩ => ⟨rfl, hi⟩) (fun ⟨hr, _⟩ => hr)⟩
  case passed => exact fun op rest s s' ⟨hb, h⟩ hs => ⟨(start_passed_busy hs).trans hb, h.passed hs⟩
  case raised =>
    intro op rest s e s' ⟨_, h⟩ hs
    obtain ⟨-, hi, rfl⟩ | ⟨a, r, -, -, hu, hf⟩ := start_raised hs
    · exact h.raised (canRaise_of_internal hi)
    · exact (h.same hu.result).raised (canRaise_of_finish hf)
  case waiting =>
    intro op rest s s' ⟨hb, h⟩ hs
    obtain ⟨a, -, -, hu⟩ := start_waiting hs
    exact waits _ _ (hu.busy.trans hb) (h.same hu.result)

theorem resume_resultRule {i : Instr} {r0 : Word} {s : State} (r : Reply) (hb : s.busy = true)
    (h : ResultRule i r0 s) : ResultRule i r0 (resume r s) := by
  have hw := h.running hb
  obtain ⟨-, hr⟩ | ⟨op, rest, t, hm, hf, hr⟩ | ⟨op, rest, e, hm, hf, hr⟩ := resume_cases r s <;> rw [hr]
  · exact h
  · exact run_resultRule ((finish_driver hf).1.trans hb) (ResultWork.returned (hm ▸ hw) hf)
  · exact ResultWork.raised (hm ▸ hw) (canRaise_of_finish hf)

theorem guardOps_keep_result (s : State) : ∀ op ∈ guardOps s, op.writesResult = false :=
  guardOps_forall (by simp [beginOps, enableBody, Op.writesResult])

/-- A command starts with RESULT as it was, or is GETLED, which writes it at once (R191). -/
theorem started_resultRule {i : Instr} {s t : State} (hb : s.busy = true) (hst : Started s i t) :
    ResultRule i s.result t := by
  have none : ∀ ops u, u.busy = s.busy → u.result = s.result → (∀ op ∈ ops, op.writesResult = false) →
      ResultRule i s.result (run ops u) :=
    fun ops u hub hur h => run_resultRule (hub.trans hb) (.inl ⟨hur, resultLast_of_none h⟩)
  have guarded : ∀ body, (∀ op ∈ body, op.writesResult = false) → ∀ op ∈ guardOps s ++ body, op.writesResult = false :=
    fun body h op ho => (List.mem_append.1 ho).elim (guardOps_keep_result s op) (h op)
  cases hst with
  | rejected i e _ => exact ⟨nofun, fun _ => .inr rfl⟩
  | bwr | ledpin | setled => exact none _ _ rfl rfl (by simp [Op.writesResult])
  | ledinit count inv =>
    refine none _ _ rfl rfl fun op ho => ?_
    rcases List.mem_append.1 ho with ho | ho
    · obtain ⟨p, -, rfl | rfl | rfl⟩ := mem_claimOps.1 ho <;> rfl
    · cases List.mem_singleton.1 ho; rfl
  | enable | disable | setatime | setgain =>
    exact none _ _ rfl rfl (guarded _ (by simp [enableBody, Op.writesResult]))
  | brd reg =>
    exact run_resultRule hb (.inl ⟨rfl, by simp [Op.writesResult], fun hi => absurd (.inl ⟨_, rfl⟩) hi⟩)
  | brd2 reg =>
    exact run_resultRule hb (.inl ⟨rfl, by simp [Op.writesResult], fun hi => absurd (.inr (.inl ⟨_, rfl⟩)) hi⟩)
  | readrgb =>
    refine run_resultRule hb (.inl ⟨rfl, ?_, fun hi => absurd (.inr (.inr (.inl rfl))) hi⟩)
    rw [List.dropLast_append_of_ne_nil (by simp)]
    exact guarded _ (by simp [Op.writesResult])
  | getled index _ => exact run_resultRule hb (.inr ⟨.inr (.inr (.inr ⟨_, rfl⟩)), nofun⟩)

/-- Settles O54: RESULT is written by the last step of a command, after which nothing can fail. -/
theorem resultKeptByOtherEndings : Obligations.ResultKeptByOtherEndings := by
  intro i s t hb hc ht hend
  have hrule : ResultRule i s.result t := course_induction (P := ResultRule i s.result)
    (first := fun u hu => started_resultRule hb (exec_started hu))
    (outside := fun u v hu ho => by
      refine ⟨fun hv => ?_, fun hv => ?_⟩
      · rw [ho.micro]; exact (hu.running (ho.busy.symm.trans hv)).same (by rw [ho])
      · rw [ho]; exact hu.ended (ho.busy.symm.trans hv))
    (returned := fun u r hu h => resume_resultRule r hu h) hc
  obtain ⟨hok, hi⟩ | hr := hrule.ended ht
  · exact (hend.elim (fun he => he hok) (fun hn => hn hi)).elim
  · exact hr

/-! ### Reachable states -/

/-- What holds after reset, whatever is about to arrive, and is kept by every step holds of every reachable state. -/
theorem reachable_induction {I : State → Prop} (start : ∀ w, I { State.reset with world := w })
    (next : ∀ s t, I s → step s = .next t → I t) {s : State} (h : Reachable s) : I s := by
  induction h with
  | start w => exact start w
  | next _ hs ih => exact next _ _ ih hs

/-- Settles O58: an idle block in UNINIT with the reset codes and no bank. -/
theorem invariantsHoldAtReset : Obligations.InvariantsHoldAtReset := fun _ =>
  ⟨driverInv_iff.2 ⟨atRest_idle rfl rfl, rfl, nofun⟩, configInv_iff.2 ⟨rfl, rfl, nofun⟩,
    bankInv_iff.2 ⟨atRest_idle rfl rfl, bankWork_reset (ps := []) rfl⟩, rfl⟩

theorem reachable_driverInv {s : State} (h : Reachable s) : DriverInv s :=
  reachable_induction (fun w => (invariantsHoldAtReset w).1) driverInvariantKept h

theorem reachable_configInv {s : State} (h : Reachable s) : ConfigInv s :=
  reachable_induction (fun w => (invariantsHoldAtReset w).2.1) configInvariantKept h

theorem reachable_bankInv {s : State} (h : Reachable s) : BankInv s :=
  reachable_induction (fun w => (invariantsHoldAtReset w).2.2.1) bankInvariantKept h

theorem reachable_clean {s : State} (h : Reachable s) : AtRest s ∧ Clean s :=
  reachable_induction (I := fun s => AtRest s ∧ Clean s) (fun _ => ⟨atRest_idle rfl rfl, fun _ => rfl⟩)
    (fun _ _ => step_clean) h

/-- Settles O59, from the driver and configuration invariants and the cleared variables. -/
theorem reachableDriverState : Obligations.ReachableDriverState := by
  intro s h
  obtain ⟨hrest, hwalk, hen⟩ := driverInv_iff.1 (reachable_driverInv h)
  obtain ⟨ha, hg, -⟩ := reachable_configInv h
  refine ⟨⟨hrest.micro_nil, fun hm => ?_⟩, fun hb => ?_, by simpa [atimeLegal, Target.atimeCodes] using ha,
    by simpa [gainLegal, Target.gainCodes] using hg⟩
  · rw [Bool.eq_false_iff, ne_eq, hrest.busy_iff, hm]; simp
  · rw [hrest.micro_nil hb] at hwalk
    have hv : s.sstate ≠ .verifying := of_decide_eq_true hwalk
    refine ⟨?_, fun he => ?_, (reachable_clean h).2 hb⟩
    · cases hs : s.sstate <;> simp_all
    · have := hen he
      cases hs : s.sstate <;> simp_all

/-- Settles O60: in an idle block nothing is left to settle. -/
theorem reachablePinLevels : Obligations.ReachablePinLevels := by
  intro s h hb hl hd i hi
  obtain ⟨hrest, hw⟩ := bankInv_iff.1 (reachable_bankInv h)
  rw [hrest.micro_nil hb] at hw
  exact hw.levels hl hd i hi

end Sys2Proof.Machine

namespace Sys2Proof.Machine

/-! ### Reset values (R36) -/

/-- Settles O7: a reset sets every field of the block as in the reset state, whatever lies outside it. -/
theorem resetValues : Obligations.ResetValues := by
  intro t ht
  have hform : ∃ ps as hd w n, t = { State.reset with
      pins := ps, actions := as, hostData := hd, world := w, draws := n } := by
    obtain rfl | ⟨s, w, hw, h⟩ := ht
    · exact ⟨_, _, _, _, _, rfl⟩
    · rw [step_reset hw] at h
      cases h; exact ⟨_, _, _, _, _, rfl⟩
  obtain ⟨ps, as, hd, w, n, rfl⟩ := hform
  exact ⟨rfl, rfl, rfl, rfl, rfl, rfl, rfl, rfl, rfl, rfl, rfl, rfl, rfl, led_replicate, pin_replicate, rfl⟩

/-! ### Host accesses to the registers (R21 to R26) -/

theorem step_read {s : State} {off : Int} {r : HostReg} {w : List Stimulus} (hr : HostReg.atOffset off = some r)
    (hw : s.world = .access (.read off 4) :: w) : step s = .next (hostRead r (s.withWorld w)) := by
  rw [step_access hw]
  simp [hostAccess, HostAccess.reg, hr]

theorem step_write {s : State} {off : Int} {r : HostReg} {v : Word} {w : List Stimulus}
    (hr : HostReg.atOffset off = some r) (hw : s.world = .access (.write off 4 v) :: w) :
    step s = hostWrite r v (s.withWorld w) := by
  rw [step_access hw]
  simp [hostAccess, HostAccess.reg, hr]

/-- Settles O12: a write to any register but CMD leaves the block. -/
theorem readOnlyRegistersIgnoreWrites : Obligations.ReadOnlyRegistersIgnoreWrites := by
  rintro s off v w (rfl | rfl | rfl) hw
  · exact step_write (r := .status) rfl hw
  · exact step_write (r := .result) rfl hw
  · exact step_write (r := .config) rfl hw

/-- Settles O13, from what an idle read of each register returns. -/
theorem idleReadsReturnRegisters : Obligations.IdleReadsReturnRegisters := by
  intro s off d w hb hw hd
  have read : ∀ r, HostReg.atOffset off = some r → d = s.regWord r →
      step s = .next { s with world := w, hostData := some d } := by
    rintro r hr rfl
    rw [step_read hr hw, hostRead_idle (s := s.withWorld w) r hb]
    cases r <;> rfl
  obtain ⟨rfl, rfl⟩ | ⟨rfl, rfl⟩ | ⟨rfl, rfl⟩ | ⟨rfl, rfl⟩ := hd
  · exact read .cmd rfl rfl
  · exact read .status rfl rfl
  · exact read .result rfl rfl
  · exact read .config rfl rfl

/-- STATUS read while busy shows BUSY whatever it is filled from (R26). -/
theorem busyStatus_busy (free : Word) : (busyStatus free).getLsbD 0 = true := by
  simp [busyStatus]

/-- STATUS read while busy shows zero reserved bits whatever it is filled from (R22; log 8). -/
theorem busyStatus_reserved (free : Word) : busyStatus free &&& 0xFF00800E#32 = 0 := by
  have hopen : statusOpenBits &&& 0xFF00800E#32 = 0 := by decide
  rw [busyStatus, BitVec.and_comm, BitVec.and_or_distrib_left, BitVec.and_comm _ (free &&& _), BitVec.and_assoc, hopen]
  simp

/-- Settles O15, register by register. -/
theorem busyReadsDefineBusyAndCmd : Obligations.BusyReadsDefineBusyAndCmd := by
  intro s r off w hb hr hw
  rw [step_read hr hw]
  cases r <;> simp only [hostRead, show (s.withWorld w).busy = true from hb, if_true]
  case cmd => exact ⟨s.lastcmd, s.draws, rfl, fun _ => rfl, nofun⟩
  case status => exact ⟨_, _, rfl, nofun, fun _ => ⟨busyStatus_busy _, busyStatus_reserved _⟩⟩
  case result => exact ⟨_, _, rfl, nofun, nofun⟩
  case config => exact ⟨_, _, rfl, nofun, nofun⟩

/-! ### The fields of STATUS (R22) -/

/-- STATUS as a number: each field at its place. -/
theorem statusWord_toNat (s : State) : s.statusWord.toNat =
    s.ledcount.toNat * 2 ^ 16 + (bit s.ovr).toNat * 2 ^ 14 + (bit s.cv).toNat * 2 ^ 13 +
    (bit s.inverted).toNat * 2 ^ 12 + (bit s.lbinit).toNat * 2 ^ 11 + (bit s.enabled).toNat * 2 ^ 10 +
    s.sstate.code.toNat * 2 ^ 8 + s.err.code.toNat * 2 ^ 4 + (bit s.busy).toNat := by
  simp only [State.statusWord, append_toNat, BitVec.toNat_ofNat]
  omega

/-- A field of STATUS is what stands at its place in the number. -/
theorem statusField {s : State} {i n : Nat} {x : BitVec n} (h : s.statusWord.toNat / 2 ^ i % 2 ^ n = x.toNat) :
    s.statusWord.extractLsb' i n = x := BitVec.eq_of_toNat_eq ((field_toNat _ i n).trans h)

/-- A field of STATUS with nothing at its place reads 0. -/
theorem statusField_zero {s : State} {i n : Nat} (h : s.statusWord.toNat / 2 ^ i % 2 ^ n = 0) :
    s.statusWord.extractLsb' i n = 0 := statusField (h.trans (by simp))

/-- Settles O14: each field is read off STATUS as a number. -/
theorem statusFields : Obligations.StatusFields := by
  intro s
  have hnum := statusWord_toNat s
  have hcount := s.ledcount.isLt
  have hovr := (bit s.ovr).isLt
  have hcv := (bit s.cv).isLt
  have hinv := (bit s.inverted).isLt
  have hlb := (bit s.lbinit).isLt
  have hen := (bit s.enabled).isLt
  have hss := s.sstate.code.isLt
  have herr := s.err.code.isLt
  have hbusy := (bit s.busy).isLt
  refine ⟨statusField (x := bit s.busy) ?_, statusField_zero ?_, ?_, ?_, statusField (x := bit s.enabled) ?_,
    statusField (x := bit s.lbinit) ?_, statusField (x := bit s.inverted) ?_, statusField (x := bit s.cv) ?_,
    statusField (x := bit s.ovr) ?_, statusField_zero ?_, statusField (x := s.ledcount) ?_,
    statusField_zero ?_⟩
  case refine_3 => rw [statusField (x := s.err.code) (by omega)]; cases s.err <;> rfl
  case refine_4 => rw [statusField (x := s.sstate.code) (by omega)]; cases s.sstate <;> rfl
  all_goals omega

end Sys2Proof.Machine

/-! PROOFS about the memory map: the host window and what a host access leaves alone (20_memory.md R57, R63, R69). -/

namespace Sys2Proof.Machine

/-! ### Which accesses have a step (R57) -/

theorem atOffset_eq_none {off : Int} : HostReg.atOffset off = none ↔ off ≠ 0 ∧ off ≠ 4 ∧ off ≠ 8 ∧ off ≠ 12 := by
  unfold HostReg.atOffset
  repeat' split
  all_goals simp_all

/-- An access reaches no register when its width is not 32 bits or its offset is none of the four. -/
theorem reg_eq_none {a : HostAccess} {off : Int} {n : Nat} {v : Word} (ha : a = .read off n ∨ a = .write off n v) :
    a.reg = none ↔ n ≠ 4 ∨ (off ≠ 0 ∧ off ≠ 4 ∧ off ≠ 8 ∧ off ≠ 12) := by
  have hreg : a.reg = if n = 4 then HostReg.atOffset off else none := by obtain rfl | rfl := ha <;> rfl
  rw [hreg, ← atOffset_eq_none]
  split <;> simp [*]

theorem runWord_next (v : Word) (s : State) : ∃ t, runWord v s = .next t := by
  cases hd : decode v with
  | ok i => rw [runWord_ok hd]; exact exec_next i _
  | error e => exact ⟨_, by rw [runWord, hd]⟩

theorem hostWrite_next (r : HostReg) (v : Word) (s : State) : ∃ t, hostWrite r v s = .next t := by
  cases r with
  | cmd =>
    cases hb : s.busy with
    | true => exact ⟨_, hostWrite_busy v hb⟩
    | false => rw [hostWrite_idle v hb]; exact runWord_next v s
  | status | result | config => exact ⟨s, rfl⟩

theorem hostAccess_refused {a : HostAccess} (h : a.reg = none) (s : State) :
    hostAccess a s = .refused (.hostAccess a) := by
  simp [hostAccess, h]

theorem hostAccess_next {a : HostAccess} (h : a.reg ≠ none) (s : State) : ∃ t, hostAccess a s = .next t := by
  obtain ⟨r, hr⟩ := Option.ne_none_iff_exists'.1 h
  cases a with
  | read off n => exact ⟨hostRead r s, by simp [hostAccess, hr]⟩
  | write off n v =>
    obtain ⟨t, ht⟩ := hostWrite_next r v s
    exact ⟨t, by simp [hostAccess, hr, ht]⟩

/-- Settles O16: an access has a step exactly when it reaches a register. -/
theorem undefinedHostAccessHasNoStep : Obligations.UndefinedHostAccessHasNoStep := by
  intro s a off n v w hw ha
  rw [step_access hw]
  refine ⟨fun h => hostAccess_refused ((reg_eq_none ha).2 h) _, fun ⟨hn, hoff⟩ => hostAccess_next (fun hr => ?_) _⟩
  have hout := (reg_eq_none ha).1 hr
  omega

/-! ### A host access while a command is in progress (R69, R221) -/

/-- A host access to a busy block changes only the read data, the sticky bits and the count of free values. -/
theorem step_access_busy {s t : State} {a : HostAccess} {w : List Stimulus} (hb : s.busy = true)
    (hw : s.world = .access a :: w) (h : step s = .next t) :
    t = { s with world := w, hostData := t.hostData, draws := t.draws, ovr := t.ovr, cv := t.cv } := by
  cases step_stepped h with
  | read off n reg w' hw' =>
    cases hw.symm.trans hw'
    obtain ⟨d, hd | hd⟩ := hostRead_cases reg (s.withWorld w) <;> rw [hd] <;> rfl
  | ignored off n v w' hw' => cases hw.symm.trans hw'; rfl
  | dropped v w' hw' _ => cases hw.symm.trans hw'; rfl
  | illegal v e w' _ hi _ => simp [hb] at hi
  | command v i w' t _ hi _ _ => simp [hb] at hi
  | quiet hw' => cases hw.symm.trans hw'
  | returned r w' hw' => cases hw.symm.trans hw'
  | lingered w' hw' => cases hw.symm.trans hw'
  | wasReset w' hw' => cases hw.symm.trans hw'
  | released p w' hw' => cases hw.symm.trans hw'

/-! ### A command that waits, and the same command whose operation returns at once (R63) -/

/-- A command that has had the answers `rs` when a host access arrives: it has ended, or it waits with steps `m` to do, and
where a return comes next instead it does what that return does to the waiting command. -/
theorem exec_waits (i : Instr) (s : State) (rs : List Reply) :
    (∀ (x t : State) (a : HostAccess) (w : List Stimulus), x.world = rets rs ++ .access a :: w →
      exec i (x.outer s) = .next t → t.busy = false) ∨
    ∃ m u, (∀ (x : State) (a : HostAccess) (w : List Stimulus), x.world = rets rs ++ .access a :: w →
        exec i (x.outer s) = .next (((x.withWorld (.access a :: w)).outer u).suspend m)) ∧
      ∀ (x : State) (r : Reply) (w : List Stimulus), x.world = rets rs ++ .ret r :: w →
        exec i (x.outer s) = .next (resume r (((x.withWorld w).outer u).suspend m)) := by
  obtain ⟨e, hx⟩ | ⟨ops, s', -, hx⟩ := exec_outer i s
  · refine .inl fun x t a w _ ht => ?_
    rw [hx] at ht
    cases ht; rfl
  obtain hend | ⟨rest, s'', -, hrets⟩ := run_rets ops s' rs
  · refine .inl fun x t a w hw ht => ?_
    rw [hx] at ht
    cases ht; exact (hend x _ hw).1
  obtain hend | ⟨op, rest, u, -, hwaits, hreturns⟩ := run_waits rest s''
  · refine .inl fun x t a w hw ht => ?_
    rw [hx, hrets x _ hw] at ht
    cases ht; exact hend _ (.access a) w rfl nofun nofun
  · refine .inr ⟨op :: rest, u, fun x a w hw => ?_, fun x r w hw => ?_⟩
    · rw [hx, hrets x _ hw, hwaits _ (.access a) w rfl nofun nofun]
    · rw [hx, hrets x _ hw, hreturns _ r w rfl]; rfl

theorem step_ret {s : State} {r : Reply} {w : List Stimulus} (hw : s.world = .ret r :: w) :
    step s = .next (resume r (s.withWorld w)) := by
  simp [step, stepWorld, hw, react]

/-- A return that a host access came before does what the return alone does, but for the last read data and the sticky
bits. -/
theorem interrupted_return {i : Instr} {s t t' u : State} {rs : List Reply} {a : HostAccess} {r : Reply}
    {w : List Stimulus} (hb : t.busy = true)
    (hexec : exec i { s with world := rets rs ++ .access a :: .ret r :: w } = .next t)
    (haccess : step t = .next t') (hret : step t' = .next u) :
    ∃ v, exec i { s with world := rets rs ++ .ret r :: w, draws := t'.draws } = .next v ∧ u = t'.withHost v := by
  let x : State := { s with world := rets rs ++ .access a :: .ret r :: w }
  let y : State := { s with world := rets rs ++ .ret r :: w, draws := t'.draws }
  obtain hend | ⟨m, c, hwait, hatOnce⟩ := exec_waits i s rs
  · simp [hend x t a _ rfl hexec] at hb
  have ht : exec i (x.outer s) = _ := hwait x a (.ret r :: w) rfl
  cases hexec.symm.trans ht
  have ht' := step_access_busy hb rfl haccess
  rw [step_ret (r := r) (w := w) (by rw [ht'])] at hret
  cases hret
  refine ⟨_, hatOnce y r w rfl, ?_⟩
  have hwaiting : t'.withWorld w = t'.withHost (((y.withWorld w).outer c).suspend m) := by
    rw [ht']; rfl
  rw [hwaiting, resume_withHost]

/-! ### No stimulus left (R54, R259) -/

theorem step_quiet {s : State} (hw : s.world = []) : step s = .next (unprompted s) := by
  simp [step, stepWorld, hw]

theorem unprompted_idle {s : State} (hm : s.micro = []) : unprompted s = s := by
  simp [unprompted, hm]

theorem unprompted_work {s : State} {rest : List Op} (hm : s.micro = .work :: rest) : unprompted s = run rest s := by
  simp [unprompted, hm]

/-- A return that arrives last is the return alone. -/
theorem step_lastRet {s : State} (hw : s.world = []) (r : Reply) :
    step { s with world := [.ret r] } = .next (resume r s) := by
  rw [step_ret rfl, State.withWorld, ← hw]

/-- The drawn answer of an outstanding operation is a return like any other. -/
theorem step_freeReply {s : State} {op : Op} {rest : List Op} {r : Reply} (hw : s.world = [])
    (hm : s.micro = op :: rest) (ho : op ≠ .work) (hr : Config.freeReply s.draws = some r) :
    step s = step { s with world := [.ret r], draws := s.draws + 1 } := by
  rw [step_quiet hw, unprompted_outstanding hm ho, hr]
  exact (step_lastRet (s := s.draw) hw r).symm

/-- The end of the block's own work is what any return would bring. -/
theorem step_work {s : State} {rest : List Op} (hw : s.world = []) (hm : s.micro = .work :: rest) (r : Reply) :
    step s = step { s with world := [.ret r] } := by
  rw [step_quiet hw, unprompted_work hm, step_lastRet hw, resume_work r hm]

/-- Settles O18: the frame of a host access, the interrupted command against the uninterrupted one, and the quiet step. -/
theorem hostAccessLeavesRunningCommand : Obligations.HostAccessLeavesRunningCommand := by
  refine ⟨fun _ _ _ _ hb hw h => step_access_busy hb hw h,
    fun _ _ _ _ _ _ _ _ _ _ hexec hb haccess hret => interrupted_return hb hexec haccess hret,
    fun s hw => ⟨fun hm => ?_, fun op rest hm ho => ⟨fun hr => ?_, fun r hr => step_freeReply hw hm ho hr⟩,
      fun rest r hm => step_work hw hm r⟩⟩
  · rw [step_quiet hw, unprompted_idle hm]
  · rw [step_quiet hw, unprompted_outstanding hm ho, hr]; rfl

end Sys2Proof.Machine

/-! PROOFS about the encoding: a command and its word, the opcode table, the assembler, and how an illegal word or a bad
operand ends (30_encoding.md R80 to R90). -/

namespace Sys2Proof.Machine

/-! ### A command and its word (R80, R81, R82) -/

@[simp] theorem flagByte_getElem_zero (f : Bool) : (flagByte f)[0] = f := by cases f <;> rfl

@[simp] theorem needZero_true (i : Instr) : needZero true i = .ok i := rfl

/-- The word of a command is put together from fields that decode to the command. -/
theorem exists_fields_of_encode (i : Instr) :
    ∃ o a b, encode i = commandWord o a b ∧ decodeFields o a b = .ok i := by
  cases i <;> exact ⟨_, _, _, rfl, by simp [decodeFields]⟩

/-- Settles O1: decoding a composed word is decoding its fields. -/
theorem decodeOfEncode : Obligations.DecodeOfEncode := by
  intro i
  obtain ⟨o, a, b, he, hd⟩ := exists_fields_of_encode i
  rw [he, decode_commandWord, hd]

theorem eq_ofNat_of_toNat {o : BitVec 4} {n : Nat} (h : o.toNat = n) : o = BitVec.ofNat 4 n := by
  rw [← h, BitVec.ofNat_toNat, BitVec.setWidth_eq]

/-- Fields that decode to a command are those its word is put together from. -/
theorem encode_of_decodeFields {o : BitVec 4} {a b : Byte} {i : Instr} (h : decodeFields o a b = .ok i) :
    encode i = commandWord o a b := by
  unfold decodeFields at h
  split at h
  case h_1 ho | h_9 ho => cases h; rw [eq_ofNat_of_toNat ho]; rfl
  case h_10 ho | h_11 ho =>
    obtain ⟨hz, rfl⟩ := needZero_ok h
    rw [encode, flagByte_getLsbD (eq_of_beq hz), eq_ofNat_of_toNat ho]
  case h_13 => cases h
  all_goals
    obtain ⟨hz, rfl⟩ := needZero_ok h
    simp_all [encode, eq_ofNat_of_toNat ‹o.toNat = _›]

/-- Settles O2: a word that decodes has zero reserved fields, so it is put together from its operand fields. -/
theorem encodeOfDecode : Obligations.EncodeOfDecode := by
  intro w i h
  obtain ⟨h1, h0, hd⟩ := decode_ok h
  rw [encode_of_decodeFields hd, commandWord_fields h1 h0]

/-! ### The opcode table (R81, R85, R87) -/

/-- One row of the opcode table accepts a command's word, the row of its mnemonic, and no other. -/
theorem encode_fitsRow : ∀ i : Instr, Laws.EncodeFitsRow.Statement i
  | .bwr reg value => Laws.EncodeFitsRow.bwr reg value
  | .brd reg => Laws.EncodeFitsRow.brd reg
  | .brd2 regLow => Laws.EncodeFitsRow.brd2 regLow
  | .enable => Laws.EncodeFitsRow.enable
  | .disable => Laws.EncodeFitsRow.disable
  | .setatime code => Laws.EncodeFitsRow.setatime code
  | .setgain code => Laws.EncodeFitsRow.setgain code
  | .readrgb => Laws.EncodeFitsRow.readrgb
  | .ledpin index pin => Laws.EncodeFitsRow.ledpin index pin
  | .ledinit count inverted => Laws.EncodeFitsRow.ledinit count inverted
  | .setled index value => Laws.EncodeFitsRow.setled index value
  | .getled index => Laws.EncodeFitsRow.getled index

/-- A word that decodes is accepted by the row of its command and by no other. -/
theorem row_of_decode {w : Word} {i : Instr} (h : decode w = .ok i) :
    ∃ r ∈ opcodeTable, r.mnemonic = i.mnemonic ∧ r.accepts w = true ∧
      ∀ r' ∈ opcodeTable, r'.accepts w = true → r' = r := by
  obtain ⟨r, hrows, hname⟩ := encode_fitsRow i
  rw [encodeOfDecode w i h] at hrows
  have hmem : ∀ r', r' ∈ opcodeTable ∧ r'.accepts w = true ↔ r' = r := by
    intro r'
    rw [← List.mem_singleton (b := r), ← hrows, List.mem_filter]
  obtain ⟨hr, hacc⟩ := (hmem r).2 rfl
  exact ⟨r, hr, hname, hacc, fun r' hr' hacc' => (hmem r').1 ⟨hr', hacc'⟩⟩

/-- Every row fixes the opcode at that of its value, and the reserved fields at zero (R80, R87). -/
theorem opcodeTable_fields : ∀ r ∈ opcodeTable, fieldOpc r.mask = BitVec.allOnes 4 ∧
    fieldZ1 r.mask = BitVec.allOnes 4 ∧ fieldZ1 r.value = 0#4 ∧
    fieldZ0 r.mask = BitVec.allOnes 8 ∧ fieldZ0 r.value = 0#8 := by decide

/-- A word that a row accepts has the row's opcode and zero reserved fields. -/
theorem fields_of_accepts {r : OpRow} {w : Word} (hr : r ∈ opcodeTable) (h : r.accepts w = true) :
    fieldOpc w = fieldOpc r.value ∧ fieldZ1 w = 0#4 ∧ fieldZ0 w = 0#8 := by
  obtain ⟨hmo, hm1, hv1, hm0, hv0⟩ := opcodeTable_fields r hr
  have hw : w &&& r.mask = r.value := eq_of_beq h
  have field : ∀ start len, w.extractLsb' start len &&& r.mask.extractLsb' start len = r.value.extractLsb' start len :=
    fun start len => by rw [← BitVec.extractLsb'_and, hw]
  have ho : fieldOpc w &&& fieldOpc r.mask = fieldOpc r.value := field 28 4
  have h1 : fieldZ1 w &&& fieldZ1 r.mask = fieldZ1 r.value := field 24 4
  have h0 : fieldZ0 w &&& fieldZ0 r.mask = fieldZ0 r.value := field 0 8
  rw [hmo, BitVec.and_allOnes] at ho
  rw [hm1, BitVec.and_allOnes, hv1] at h1
  rw [hm0, BitVec.and_allOnes, hv0] at h0
  exact ⟨ho, h1, h0⟩

theorem and_ones (a : Byte) : a &&& 0xFF#8 = a := BitVec.and_allOnes

theorem high_of_and {b : Byte} (h : b &&& 0xFE#8 = 0#8) : b.extractLsb' 1 7 = 0#7 := by
  revert b; decide

/-- Operand fields that a row accepts decode under the row's opcode. -/
theorem decodeFields_of_accepts {r : OpRow} {a b : Byte} (hr : r ∈ opcodeTable)
    (h : r.accepts (commandWord (fieldOpc r.value) a b) = true) :
    ∃ i, decodeFields (fieldOpc r.value) a b = .ok i := by
  obtain ⟨-, -, ha, hb, -⟩ := of_decide_eq_true (accepts_commandWord .. ▸ h)
  simp only [opcodeTable, List.cons_append, List.nil_append, List.mem_cons, List.not_mem_nil, or_false] at hr
  obtain rfl | rfl | rfl | rfl | rfl | rfl | rfl | rfl | rfl | rfl | rfl | rfl := hr
  all_goals simp_all [decodeFields, fieldOpc, fieldA, fieldB, and_ones, high_of_and]

/-- Settles O3: forward through the command's own word, back row by row. -/
theorem decodeFollowsOpcodeTable : Obligations.DecodeFollowsOpcodeTable := by
  refine fun w => ⟨fun i h => row_of_decode h, fun ⟨r, hr, hacc⟩ => ?_⟩
  obtain ⟨ho, h1, h0⟩ := fields_of_accepts hr hacc
  rw [← commandWord_fields h1 h0, ho] at hacc ⊢
  simpa only [decode_commandWord] using decodeFields_of_accepts hr hacc

/-- A word is illegal when no command is read from it. -/
theorem illegal_of_no_command {w : Word} (h : ∀ i, decode w ≠ .ok i) : ∃ e, decode w = .error e := by
  cases hd : decode w with
  | ok i => exact absurd hd (h i)
  | error e => exact ⟨e, rfl⟩

/-- The opcode of a word that decodes is one row's, and that row accepts the word. -/
theorem opcode_of_decode {w : Word} {i : Instr} (h : decode w = .ok i) :
    ∃ r ∈ opcodeTable, fieldOpc w = fieldOpc r.value ∧ w &&& r.mask = r.value := by
  obtain ⟨r, hr, -, hacc, -⟩ := row_of_decode h
  exact ⟨r, hr, (fields_of_accepts hr hacc).1, eq_of_beq hacc⟩

/-- No row has a reserved opcode (R85). -/
theorem opcodeTable_not_reserved : ∀ r ∈ opcodeTable, ¬ (fieldOpc r.value = 0x0 ∨ fieldOpc r.value = 0xD ∨
    fieldOpc r.value = 0xE ∨ fieldOpc r.value = 0xF) := by decide

/-- No two rows have the same opcode (R87). -/
theorem opcodeTable_inj : ∀ r ∈ opcodeTable, ∀ r' ∈ opcodeTable, fieldOpc r.value = fieldOpc r'.value → r = r' := by
  decide

/-- Settles O4: a word that decodes meets the mask and the value of the one row that has its opcode. -/
theorem reservedEncodingsAreIllegal : Obligations.ReservedEncodingsAreIllegal := by
  have reserved : ∀ w : Word, fieldOpc w = 0x0 ∨ fieldOpc w = 0xD ∨ fieldOpc w = 0xE ∨ fieldOpc w = 0xF →
      ∃ e, decode w = .error e := by
    refine fun w hw => illegal_of_no_command fun i h => ?_
    obtain ⟨r, hr, ho, -⟩ := opcode_of_decode h
    exact opcodeTable_not_reserved r hr (ho ▸ hw)
  refine ⟨reserved, reserved _ (.inl rfl), fun w hw => illegal_of_no_command fun i h => ?_,
    fun r hr w ho hne => illegal_of_no_command fun i h => ?_⟩
  · obtain ⟨h1, h0, -⟩ := decode_ok h
    exact hw.elim (fun hn => hn h1) (fun hn => hn h0)
  · obtain ⟨r', hr', ho', hacc⟩ := opcode_of_decode h
    obtain rfl := opcodeTable_inj r hr r' hr' (ho.symm.trans ho')
    exact hne hacc

/-- Settles O5: each sample word is decoded. -/
theorem sampleWordsDecode : Obligations.SampleWordsDecode := by
  unfold Obligations.SampleWordsDecode
  decide

/-! ### The assembler (R89, R90) -/

/-- What the assembler makes of a line that stands for a command. -/
theorem assemble_of_instr {l : AsmLine} {i : Instr} (hi : l.instr = some i) :
    assemble l = if l.wellFormed then some (.issue (encode i)) else none := by
  unfold assemble
  split
  · split
    · cases hi
    · rw [hi]; rfl
  · rfl

/-- A line that stands for a command is taken when the assembler's own checks pass, and only then; its word decodes to the
command. -/
theorem assembles_of_instr {l : AsmLine} {fits : Prop} {i : Instr} (hi : l.instr = some i)
    (hfits : l.wellFormed = true ↔ fits) : Assembles l fits i :=
  ⟨fun h => ⟨encode i, by rw [assemble_of_instr hi, if_pos (hfits.2 h)], decodeOfEncode i⟩,
    fun h => by rw [assemble_of_instr hi, if_neg (mt hfits.1 h)]⟩

/-- Settles O6: line by line, the checks of the assembler are the bounds of the operands. -/
theorem assembledLinesDecode : Obligations.AssembledLinesDecode := by
  refine ⟨fun reg v n m => ⟨?_, ?_, ?_, ?_, ?_, ?_, ?_, ?_, ?_, ?_, ?_, ?_, ?_, ?_, ?_, ?_⟩, fun n => rfl,
    rfl, rfl, rfl, rfl, rfl, rfl, rfl, rfl⟩
  case refine_16 => simp [assemble, AsmLine.wellFormed]
  all_goals exact assembles_of_instr rfl (by simp [AsmLine.wellFormed, fitsByte, isFlag])

/-! ### Words and operands that are rejected (R81, R86) -/

theorem runWord_illegal {s : State} {v : Word} {e : Illegal} (h : decode v = .error e) :
    runWord v s = .next ((s.accept v).raise .illegalCommand) := by
  simp [runWord, h]

/-- Settles O10: an illegal word is accepted and raises at once. -/
theorem illegalWordEndsAtOnce : Obligations.IllegalWordEndsAtOnce := by
  intro s v e w hb hm hl hw hd
  rw [step_commandWrite hw, hostWrite_idle (s := s.withWorld w) v hb, runWord_illegal hd]
  simp [State.raise, State.accept, State.withWorld, ErrCode.isContract, hm, hl]

theorem raise_badOperand (s : State) : s.raise .badOperand =
    { s with err := .badOperand, cv := true, busy := false, micro := [], locals := {} } := by
  simp [State.raise, ErrCode.isContract]

/-- A command whose operand R86 rejects raises BAD_OPERAND before anything else. -/
theorem exec_of_not_legal {i : Instr} (h : i.legal = false) (s : State) : exec i s = .next (s.raise .badOperand) := by
  cases i with
  | setatime c => simp [exec, execSetatime, show atimeLegal c = false from h]
  | setgain c => simp [exec, execSetgain, show gainLegal c = false from h]
  | ledinit n v => simp [exec, execLedinit, show countLegal n = false from h]
  | bwr | brd | brd2 | enable | disable | readrgb | ledpin | setled | getled => cases h

/-- Settles O36: the operands named are those R86 rejects. -/
theorem badOperandEndsAtOnce : Obligations.BadOperandEndsAtOnce := by
  intro i s h
  have hlegal : i.legal = false := by
    obtain ⟨c, rfl, hc⟩ | ⟨c, rfl, hc⟩ | ⟨n, v, rfl, hn⟩ := h
    · simpa [Instr.legal, atimeLegal, Target.atimeCodes] using hc
    · simpa [Instr.legal, gainLegal, Target.gainCodes] using hc
    · simpa [Instr.legal, countLegal] using hn
  rw [exec_of_not_legal hlegal, raise_badOperand]

/-! ### What a step takes from the stimuli still to come -/

theorem finish_world {op : Op} {r : Reply} {s t : State} (h : op.finish r s = .ok t) : t.world = s.world := by
  obtain rfl | ⟨v, rfl⟩ | ⟨x, v, rfl⟩ | ⟨p, -, rfl⟩ | ⟨p, -, rfl⟩ | ⟨p, l, -, rfl⟩ := finish_ok_cases h
  all_goals simp

theorem internal_world {op : Op} {s t : State} (h : op.internal s = .ok t) : t.world = s.world := by
  cases op <;> simp only [Op.internal] at h <;> (try split at h) <;> cases h <;> rfl

theorem raiseAt_world (rest : List Op) (e : ErrCode) (s : State) : (raiseAt rest e s).world = s.world := by
  unfold raiseAt; split <;> rfl

theorem nextReply_world (s : State) : s.nextReply.2.world <:+ s.world := by
  obtain ⟨r, w, hw, h⟩ | ⟨-, h⟩ | h := nextReply_cases s
  · rw [h, hw]; exact List.suffix_cons _ w
  · rw [h]; exact List.suffix_rfl
  · rw [h]

/-- The state one step of a command leaves, however it comes out. -/
def OpOutcome.state : OpOutcome → State
  | .passed s | .raised _ s | .waiting s => s

theorem ofExcept_world {s : State} {x : Except ErrCode State} (h : ∀ t, x = .ok t → t.world = s.world) :
    (OpOutcome.ofExcept s x).state.world = s.world := by
  cases x with
  | ok t => exact h t rfl
  | error e => rfl

/-- One step of a command takes at most its own return. -/
theorem start_world (op : Op) (s : State) : (op.start s).state.world <:+ s.world := by
  unfold Op.start
  split
  · rw [ofExcept_world fun t => internal_world]
  · rename_i a _
    have hnext := nextReply_world (s.emit a)
    split <;> rename_i hr <;> rw [hr] at hnext
    · rw [ofExcept_world fun t => finish_world]; exact hnext
    · exact hnext

/-- A run leaves an end of the stimuli there were. -/
theorem run_world (ops : List Op) (s : State) : (run ops s).world <:+ s.world := by
  have start {op : Op} {u : State} {o : OpOutcome} (hu : u.world <:+ s.world) (ho : op.start u = o) :
      o.state.world <:+ s.world := (ho ▸ start_world op u).trans hu
  refine run_induction (P := fun _ u => u.world <:+ s.world) (Q := fun t => t.world <:+ s.world)
    ?linger ?finish ?passed ?raised ?waiting ops s List.suffix_rfl
  case linger => exact fun ops u w hu hw => (hw ▸ List.suffix_cons _ w).trans hu
  case finish => exact fun u hu _ => hu
  case passed => exact fun op rest u u' hu hs => start hu hs
  case raised => exact fun op rest u e u' hu hs => raiseAt_world rest e u' ▸ start hu hs
  case waiting => exact fun op rest u u' hu hs => start hu hs

theorem resume_world (r : Reply) (s : State) : (resume r s).world <:+ s.world := by
  obtain ⟨-, h⟩ | ⟨op, rest, t, -, hf, h⟩ | ⟨op, rest, e, -, -, h⟩ := resume_cases r s <;> rw [h]
  · exact finish_world hf ▸ run_world rest t
  · rw [raiseAt_world]

theorem unprompted_world (s : State) : (unprompted s).world <:+ s.world := by
  obtain h | h | ⟨r, h⟩ | ⟨rest, -, h⟩ := unprompted_cases s <;> rw [h]
  · exact List.suffix_rfl
  · exact resume_world r s.draw
  · exact resume_world _ s

theorem started_world {i : Instr} {s t : State} (h : Started s i t) : t.world <:+ s.world := by
  obtain ⟨e, -, rfl⟩ | ⟨ops, u, rfl, hu⟩ := started_run h
  · exact List.suffix_rfl
  · have hw : u.world = s.world := by rw [hu]
    exact hw ▸ run_world ops u

/-- A step answers the first stimulus, and what it leaves is an end of the others. -/
theorem step_world {s t : State} (h : step s = .next t) : t.world <:+ s.world.tail := by
  cases step_stepped h with
  | quiet hw =>
    have hend := unprompted_world s
    rwa [hw] at hend ⊢
  | returned r w hw => rw [hw]; exact resume_world r (s.withWorld w)
  | read off n reg w hw =>
    rw [hw]
    obtain ⟨d, hd | hd⟩ := hostRead_cases reg (s.withWorld w) <;> rw [hd] <;> exact List.suffix_rfl
  | command v i w t hw _ _ hst => rw [hw]; exact started_world hst
  | lingered w hw | wasReset w hw | released p w hw | ignored off n v w hw | dropped v w hw _ | illegal v e w hw _ _ =>
    rw [hw]; exact List.suffix_rfl

/-! ### A host that waits for BUSY = 0 (R66, R90) -/

/-- Nothing is to arrive but returns. -/
def OnlyReturns (s : State) : Prop := ∀ x ∈ s.world, ∃ r, x = .ret r

theorem OnlyReturns.of_suffix {s t : State} (h : OnlyReturns s) (hw : t.world <:+ s.world) : OnlyReturns t :=
  fun x hx => h x (hw.mem hx)

/-- Only a word written to a busy block, or a reset, changes OVR (R30). -/
theorem step_ovr {s t : State} (hr : s.world.head? ≠ some .reset) (hc : s.busy = true → ¬ commandWrite s)
    (h : step s = .next t) : t.ovr = s.ovr := by
  obtain ⟨hb, hw, -⟩ | ⟨-, ho, -⟩ | ⟨-, ho, -⟩ := step_sticky hr h
  · exact absurd hw (hc hb)
  · exact ho
  · exact ho

theorem OnlyReturns.step {s t : State} (hs : OnlyReturns s) (h : step s = .next t) : OnlyReturns t ∧ t.ovr = s.ovr := by
  have head : ∀ x, s.world.head? = some x → ∃ r, x = .ret r := fun x hx => hs x (List.mem_of_head? hx)
  refine ⟨hs.of_suffix ((step_world h).trans (List.tail_suffix _)), step_ovr (fun hr => ?_) (fun _ ⟨v, hv⟩ => ?_) h⟩
  · obtain ⟨r, hx⟩ := head _ hr; cases hx
  · obtain ⟨r, hx⟩ := head _ hv; cases hx

/-- A host access that is no word written to a busy block leaves OVR. -/
theorem OnlyReturns.access {s t : State} {a : HostAccess} (hs : OnlyReturns s)
    (ha : s.busy = true → ∀ v, a ≠ .command v) (h : hostAccess a s = .next t) : OnlyReturns t ∧ t.ovr = s.ovr := by
  have hstep : Machine.step (s.withWorld (.access a :: s.world)) = .next t := (step_access rfl).trans h
  refine ⟨hs.of_suffix (step_world hstep), 
    step_ovr (s := s.withWorld (.access a :: s.world)) (by simp) (fun hb ⟨v, hv⟩ => ha hb v ?_) hstep⟩
  simpa [HostAccess.command] using hv

/-- A turn of the host: nothing left to do, or an access and, while the block is busy, one more step. -/
theorem hostTurn_cases {h k : HostRun} {s t : State} (ht : hostTurn h s = .next (k, t)) :
    (h.turn = (k, none) ∧ t = s) ∨
    ∃ h' a u, h.turn = (h', some a) ∧ hostAccess a s = .next u ∧ k = h'.observe h.waiting u ∧
      ((u.busy = true ∧ step u = .next t) ∨ (u.busy = false ∧ t = u)) := by
  unfold hostTurn at ht
  split at ht
  · rename_i hturn
    cases ht; exact .inl ⟨hturn, rfl⟩
  · rename_i h' a hturn
    split at ht
    · rename_i u hu
      split at ht
      · rename_i hb
        split at ht
        · rename_i hstep
          cases ht; exact .inr ⟨h', a, u, hturn, hu, rfl, .inl ⟨hb, hstep⟩⟩
        all_goals cases ht
      · rename_i hb
        cases ht; exact .inr ⟨h', a, _, hturn, hu, rfl, .inr ⟨by simpa using hb, rfl⟩⟩
    all_goals cases ht

/-- A host that issues lines only, and waits for BUSY = 0 between them, with nothing but returns to arrive. -/
structure Patient (h : HostRun) (s : State) : Prop where
  issues : ∀ l ∈ h.lines, ∃ w, l = .issue w
  idle : h.waiting = false → s.busy = false
  returns : OnlyReturns s

/-- A poll of a busy block does not show BUSY = 0 (R26). -/
theorem sawIdle_poll_busy {s : State} (h : s.busy = true) : sawIdle (hostRead .status s) = false := by
  simp [hostRead, h, sawIdle, busyStatus]

theorem hostRead_busy (r : HostReg) (s : State) : (hostRead r s).busy = s.busy := by
  obtain ⟨d, hd | hd⟩ := hostRead_cases r s <;> rw [hd] <;> rfl

/-- A turn of a waiting host is a poll. -/
theorem turn_waiting {h : HostRun} (hw : h.waiting = true) : h.turn = (h, some .poll) := by
  simp [HostRun.turn, hw]

/-- A turn of a host that does not wait issues its next line, if there is one, and waits. -/
theorem turn_ready {h : HostRun} (hw : h.waiting = false) (hl : ∀ l ∈ h.lines, ∃ w, l = .issue w) :
    h.turn = (h, none) ∨ ∃ w ls, h.lines = .issue w :: ls ∧ h.turn = (⟨ls, true⟩, some (.command w)) := by
  cases hlines : h.lines with
  | nil => exact .inl (by simp [HostRun.turn, hw, hlines])
  | cons l ls =>
    obtain ⟨w, rfl⟩ := hl l (by simp [hlines])
    exact .inr ⟨w, ls, rfl, by simp [HostRun.turn, hw, hlines]⟩

/-- What follows the host's access in its turn takes only returns, and leaves OVR. -/
theorem OnlyReturns.turn {s u t : State} {a : HostAccess} (hs : OnlyReturns s)
    (ha : s.busy = true → ∀ v, a ≠ .command v) (hu : hostAccess a s = .next u)
    (ht : (u.busy = true ∧ Machine.step u = .next t) ∨ (u.busy = false ∧ t = u)) : OnlyReturns t ∧ t.ovr = s.ovr := by
  obtain ⟨hret, hovr⟩ := hs.access ha hu
  obtain ⟨-, hstep⟩ | ⟨-, rfl⟩ := ht
  · obtain ⟨hret', hovr'⟩ := hret.step hstep
    exact ⟨hret', hovr'.trans hovr⟩
  · exact ⟨hret, hovr⟩

@[simp] theorem observe_lines (h : HostRun) (polled : Bool) (s : State) : (h.observe polled s).lines = h.lines := by
  unfold HostRun.observe; split <;> rfl

/-- A waiting host goes on only when its poll has found the block idle (R66, R90). -/
theorem Patient.poll {h : HostRun} {s u t : State} (hp : Patient h s) (hw : h.waiting = true)
    (hu : hostAccess .poll s = .next u) (ht : (u.busy = true ∧ step u = .next t) ∨ (u.busy = false ∧ t = u)) :
    Patient (h.observe true u) t ∧ t.ovr = s.ovr := by
  obtain ⟨hret, hovr⟩ := hp.returns.turn (a := .poll) (fun _ v => by simp [HostAccess.poll, HostAccess.command]) hu ht
  refine ⟨⟨by simpa using hp.issues, fun hk => ?_, hret⟩, hovr⟩
  cases hu
  obtain ⟨hb, -⟩ | ⟨hb, rfl⟩ := ht
  · rw [hostRead_busy] at hb
    simp [HostRun.observe, sawIdle_poll_busy hb, hw] at hk
  · exact hb

/-- A host that does not wait finds the block idle, so its word is taken, and then waits. -/
theorem Patient.issue {h : HostRun} {s u t : State} {w : Word} {ls : List HostLine} (hp : Patient h s)
    (hw : h.waiting = false) (hl : h.lines = .issue w :: ls) (hu : hostAccess (.command w) s = .next u)
    (ht : (u.busy = true ∧ step u = .next t) ∨ (u.busy = false ∧ t = u)) :
    Patient ⟨ls, true⟩ t ∧ t.ovr = s.ovr := by
  have hb : s.busy = false := hp.idle hw
  obtain ⟨hret, hovr⟩ := hp.returns.turn (fun hbusy => by simp [hb] at hbusy) hu ht
  exact ⟨⟨fun l hm => hp.issues l (by simp [hl, hm]), nofun, hret⟩, hovr⟩

/-- A turn of a patient host leaves it patient, and drops no word. -/
theorem Patient.turn {h k : HostRun} {s t : State} (hp : Patient h s) (ht : hostTurn h s = .next (k, t)) :
    Patient k t ∧ t.ovr = s.ovr := by
  obtain ⟨hturn, rfl⟩ | ⟨h', a, u, hturn, hu, rfl, hstep⟩ := hostTurn_cases ht
  · refine ⟨?_, rfl⟩
    cases hw : h.waiting with
    | true => rw [turn_waiting hw] at hturn; cases hturn
    | false =>
      obtain hnone | ⟨w, ls, -, hissue⟩ := turn_ready hw hp.issues
      · rw [hnone] at hturn; cases hturn; exact hp
      · rw [hissue] at hturn; cases hturn
  · cases hw : h.waiting with
    | true => rw [turn_waiting hw] at hturn; cases hturn; exact hp.poll hw hu hstep
    | false =>
      obtain hnone | ⟨w, ls, hl, hissue⟩ := turn_ready hw hp.issues
      · rw [hnone] at hturn; cases hturn
      · rw [hissue] at hturn; cases hturn; exact hp.issue hw hl hu hstep

/-- Settles O53, by induction on the number of turns, each of which leaves the host patient. -/
theorem issuedWordsAreNeverDropped : Obligations.IssuedWordsAreNeverDropped := by
  intro n h h' s s' hissues hidle hreturns hturns
  have hp : Patient h s := ⟨hissues, hidle, hreturns⟩
  clear hissues hidle hreturns
  induction n generalizing h s with
  | zero => cases hturns; rfl
  | succ n ih =>
    unfold hostTurns at hturns
    split at hturns
    · rename_i k t ht
      obtain ⟨hk, hovr⟩ := hp.turn ht
      exact (ih k t hturns hk).trans hovr
    all_goals cases hturns

end Sys2Proof.Machine

/-! PROOFS about the raw bus commands: what their one transaction comes to, that they neither read nor write driver state and
bank fields, and what the whole course of a command with fixed steps issues (40_colorbus.md R100 to R108). -/

namespace Sys2Proof.Machine

/-! ### Fields that the steps of a command neither read nor write -/

/-- The outcome with its state changed. -/
def OpOutcome.map (f : State → State) : OpOutcome → OpOutcome
  | .passed s => .passed (f s)
  | .raised e s => .raised e (f s)
  | .waiting s => .waiting (f s)

/-- `f` replaces fields that no step of the class `C` reads or writes, nor the start of a call or the end of a command. -/
structure Untouched (C : Op → Prop) (f : State → State) : Prop where
  world : ∀ s, (f s).world = s.world
  draws : ∀ s, (f s).draws = s.draws
  micro : ∀ s, (f s).micro = s.micro
  emit : ∀ a s, (f s).emit a = f (s.emit a)
  withWorld : ∀ w s, (f s).withWorld w = f (s.withWorld w)
  draw : ∀ s, (f s).draw = f s.draw
  suspend : ∀ ops s, (f s).suspend ops = f (s.suspend ops)
  endOk : ∀ s, (f s).endOk = f s.endOk
  action : ∀ op s, C op → op.action (f s) = op.action s
  finish : ∀ op r s, C op → op.finish r (f s) = (op.finish r s).map f
  internal : ∀ op s, C op → op.internal (f s) = (op.internal s).map f
  raiseAt : ∀ rest e s, (∀ op ∈ rest, C op) → raiseAt rest e (f s) = f (raiseAt rest e s)

namespace Untouched

variable {C : Op → Prop} {f : State → State}

theorem lingering (h : Untouched C f) (s : State) : (f s).lingering = s.lingering.map f := by
  unfold State.lingering
  rw [h.world]
  split <;> simp [h.withWorld]

theorem nextReply (h : Untouched C f) (s : State) : (f s).nextReply = (s.nextReply.1, f s.nextReply.2) := by
  unfold State.nextReply
  rw [h.world, h.draws]
  split <;> simp [h.withWorld, h.draw]

theorem start (h : Untouched C f) {op : Op} (hop : C op) (s : State) : op.start (f s) = (op.start s).map f := by
  have effect : ∀ u x, OpOutcome.ofExcept (f u) (Except.map f x) = (OpOutcome.ofExcept u x).map f := by
    intro u x
    cases x <;> rfl
  unfold Op.start
  rw [h.action op s hop]
  split
  · rw [h.internal op s hop, effect]
  · rename_i a _
    rw [h.emit, h.nextReply]
    rcases (s.emit a).nextReply with ⟨_ | r, u⟩
    · rfl
    · exact (congrArg _ (h.finish op r u hop)).trans (effect ..)

/-- A run hands these fields on as they are. -/
theorem run (h : Untouched C f) {ops : List Op} (hops : ∀ op ∈ ops, C op) (s : State) :
    run ops (f s) = f (run ops s) := by
  induction ops generalizing s with
  | nil =>
    simp only [Machine.run, h.lingering]
    cases s.lingering with
    | none => exact h.endOk s
    | some t => exact h.suspend _ t
  | cons op rest ih =>
    obtain ⟨hop, hrest⟩ := List.forall_mem_cons.1 hops
    simp only [Machine.run, h.lingering, h.start hop]
    cases s.lingering with
    | some t => exact h.suspend _ t
    | none =>
      cases op.start s with
      | passed t => exact ih hrest t
      | raised e t => exact h.raiseAt rest e t hrest
      | waiting t => exact h.suspend _ t

theorem resume (h : Untouched C f) {s : State} (hops : ∀ op ∈ s.micro, C op) (r : Reply) :
    resume r (f s) = f (resume r s) := by
  unfold Machine.resume
  rw [h.micro]
  split
  · rfl
  · rename_i op rest hm
    obtain ⟨hop, hrest⟩ := List.forall_mem_cons.1 (hm ▸ hops)
    rw [h.finish op r s hop]
    cases op.finish r s with
    | ok t => exact h.run hrest t
    | error e => exact h.raiseAt rest e s hrest

theorem unprompted (h : Untouched C f) {s : State} (hops : ∀ op ∈ s.micro, C op) :
    unprompted (f s) = f (unprompted s) := by
  unfold Machine.unprompted
  rw [h.micro, h.draws]
  split
  · rfl
  · rename_i rest hm
    exact h.run (fun op ho => hops op (by simp [hm, ho])) s
  · split
    · rw [h.draw, h.resume (s := s.draw) hops]
    · exact h.draw s

end Untouched

/-! ### Driver state and bank fields -/

/-- `s` with the driver's fields, the shadow configuration and the bank fields of `x` (R107). -/
def State.withUnits (x s : State) : State :=
  { s with sstate := x.sstate, enabled := x.enabled, atime := x.atime, gain := x.gain, lbinit := x.lbinit,
           inverted := x.inverted, ledcount := x.ledcount, ledStates := x.ledStates, pinmap := x.pinmap }

/-- A step that writes driver state or bank fields. -/
def Op.writesUnits : Op → Bool
  | .setVerifying | .setReady | .setEnabled _ | .setAtime _ | .setGain _ | .bankUp _ _ => true
  | .memWrite _ _ | .memWriteMasked _ _ | .memRead _ | .memReadPair _ _ | .delay | .pinOpen _ | .pinSetOutput _
  | .pinWrite _ _ | .checkId | .resultByte | .resultPair | .resultRgb | .work => false

theorem finish_withUnits (op : Op) (r : Reply) (x s : State) :
    op.finish r (x.withUnits s) = (op.finish r s).map x.withUnits := by
  cases op with
  | memReadPair reg y => simp only [Op.finish]; split <;> cases y <;> rfl
  | memWrite | memWriteMasked | memRead | pinOpen => simp only [Op.finish]; split <;> rfl
  | _ => rfl

theorem internal_withUnits {op : Op} (h : op.writesUnits = false) (x s : State) :
    op.internal (x.withUnits s) = (op.internal s).map x.withUnits := by
  cases op with
  | setVerifying | setReady | setEnabled | setAtime | setGain | bankUp => cases h
  | checkId =>
    change (if s.locals.byte = _ then _ else _) = Except.map _ (if s.locals.byte = _ then _ else _)
    split <;> rfl
  | _ => rfl

theorem raiseAt_withUnits {rest : List Op} (h : ∀ op ∈ rest, op.writesUnits = false) (e : ErrCode) (x s : State) :
    raiseAt rest e (x.withUnits s) = x.withUnits (raiseAt rest e s) := by
  have hready : Op.setReady ∉ rest := fun hm => by cases h _ hm
  have htry : inTry rest = false := by simp [inTry, hready]
  rw [raiseAt_outside htry, raiseAt_outside htry]
  rfl

/-- A step that writes none of the units' fields does not read them either. -/
theorem withUnits_untouched (x : State) : Untouched (fun op => op.writesUnits = false) x.withUnits where
  world _ := rfl
  draws _ := rfl
  micro _ := rfl
  emit _ _ := rfl
  withWorld _ _ := rfl
  draw _ := rfl
  suspend _ _ := rfl
  endOk _ := rfl
  action op _ _ := by cases op <;> rfl
  finish op r s _ := finish_withUnits op r x s
  internal _ s h := internal_withUnits h x s
  raiseAt _ e s h := raiseAt_withUnits h e x s

/-- A host access to a busy block does not reach the units' fields (R26). -/
theorem hostAccess_withUnits {s t : State} {a : HostAccess} (hb : s.busy = true) (x : State)
    (h : hostAccess a s = .next t) : hostAccess a (x.withUnits s) = .next (x.withUnits t) := by
  have hb' : (x.withUnits s).busy = true := hb
  unfold hostAccess at h ⊢
  split
  · simp_all
  · rename_i reg hreg
    rw [hreg] at h
    cases a with
    | read off n =>
      cases h
      cases reg <;> simp only [hostRead, hb, hb', if_true] <;> rfl
    | write off n v =>
      cases reg with
      | cmd =>
        simp only [hostWrite_busy v hb] at h
        cases h
        exact hostWrite_busy v hb'
      | status | result | config => cases h; rfl

/-- A step of a command in progress whose steps write none of the units' fields hands them on as they are. -/
theorem step_withUnits {s t : State} (hb : s.busy = true) (hr : s.world.head? ≠ some .reset)
    (hops : ∀ op ∈ s.micro, op.writesUnits = false) (x : State) (h : step s = .next t) :
    step (x.withUnits s) = .next (x.withUnits t) := by
  cases hw : s.world with
  | nil =>
    rw [step_quiet hw] at h
    cases h
    exact (step_quiet (s := x.withUnits s) hw).trans (congrArg _ ((withUnits_untouched x).unprompted hops))
  | cons y w =>
    have hstep : step s = react y (s.withWorld w) := by simp [step, stepWorld, hw]
    have hstep' : step (x.withUnits s) = react y (x.withUnits (s.withWorld w)) := by
      simp only [step, stepWorld, show (x.withUnits s).world = _ from hw]
      rfl
    rw [hstep] at h
    rw [hstep']
    cases y with
    | access a => exact hostAccess_withUnits (s := s.withWorld w) hb x h
    | ret r =>
      cases h
      exact congrArg _ ((withUnits_untouched x).resume (s := s.withWorld w) hops r)
    | linger | pinReleased p => cases h; rfl
    | reset => simp [hw] at hr

/-! ### What a command with fixed steps issues through its course -/

/-- A command with the steps `prog`, started in `s`, has come to `t` with the actions of `ops` still to issue: the actions
are a first part of those of its steps, and RESULT is written only by a step that writes it. -/
structure Progress (prog : List Op) (s : State) (ops : List Op) (t : State) : Prop where
  lastcmd : t.lastcmd = s.lastcmd
  result : (∀ op ∈ prog, op.writesResult = false) → t.result = s.result
  issued : ∃ as, t.actions = s.actions ++ as ∧ as ++ ops.filterMap (Op.action s) <+: prog.filterMap (Op.action s)

/-- A command with the steps `prog`, started in `s`, stands at `t`: at one of its steps, which is issued, or at its own
work. -/
structure Underway (prog : List Op) (s t : State) : Prop where
  steps : ∀ op ∈ t.micro, op ∈ .work :: prog
  progress : Progress prog s t.micro.tail t

theorem finish_log {op : Op} {r : Reply} {s t : State} (h : op.finish r s = .ok t) :
    t.lastcmd = s.lastcmd ∧ t.actions = s.actions := by
  obtain rfl | ⟨v, rfl⟩ | ⟨x, v, rfl⟩ | ⟨p, -, rfl⟩ | ⟨p, -, rfl⟩ | ⟨p, l, -, rfl⟩ := finish_ok_cases h
  all_goals simp

theorem internal_log {op : Op} {s t : State} (h : op.internal s = .ok t) :
    t.lastcmd = s.lastcmd ∧ t.actions = s.actions := by
  cases op <;> simp only [Op.internal] at h <;> (try split at h) <;> cases h <;> exact ⟨rfl, rfl⟩

theorem raiseAt_log (rest : List Op) (e : ErrCode) (s : State) :
    (raiseAt rest e s).lastcmd = s.lastcmd ∧ (raiseAt rest e s).actions = s.actions := by
  unfold raiseAt; split <;> exact ⟨rfl, rfl⟩

theorem ofExcept_state {P : State → Prop} {s : State} {x : Except ErrCode State} (hs : P s)
    (h : ∀ t, x = .ok t → P t) : P (OpOutcome.ofExcept s x).state := by
  cases x with
  | ok t => exact h t rfl
  | error e => exact hs

namespace Progress

variable {prog ops rest : List Op} {op : Op} {s t u : State} {r : Reply} {a : Action}

theorem same (h : Progress prog s ops t) (hc : u.lastcmd = t.lastcmd) (hr : u.result = t.result)
    (ha : u.actions = t.actions) : Progress prog s ops u :=
  ⟨hc.trans h.lastcmd, fun hp => hr.trans (h.result hp), by rw [ha]; exact h.issued⟩

/-- What is not issued any more need not be counted. -/
theorem abandon (h : Progress prog s ops t) : Progress prog s [] t := by
  obtain ⟨as, has, hle⟩ := h.issued
  exact ⟨h.lastcmd, h.result, as, has, by simpa using (List.prefix_append ..).trans hle⟩

/-- The next action is issued. -/
theorem issue (h : Progress prog s (op :: rest) t) (ha : op.action s = some a) (hu : u.actions = t.actions ++ [a])
    (hsame : sameBlock t u) : Progress prog s rest u := by
  obtain ⟨as, has, hle⟩ := h.issued
  refine ⟨hsame.lastcmd.trans h.lastcmd, fun hp => hsame.result.trans (h.result hp), as ++ [a], ?_, ?_⟩
  · rw [hu, has, List.append_assoc]
  · simpa [ha] using hle

/-- The next step issues nothing. -/
theorem skip (h : Progress prog s (op :: rest) t) (ha : op.action s = none) : Progress prog s rest t :=
  ⟨h.lastcmd, h.result, by simpa [ha] using h.issued⟩

theorem finish (h : Progress prog s ops t) (hf : op.finish r t = .ok u) : Progress prog s ops u :=
  h.same (finish_log hf).1 (finish_result hf) (finish_log hf).2

theorem internal (h : Progress prog s ops t) (hop : op ∈ .work :: prog) (hi : op.internal t = .ok u) :
    Progress prog s ops u := by
  obtain ⟨hc, ha⟩ := internal_log hi
  refine ⟨hc.trans h.lastcmd, fun hp => ?_, by rw [ha]; exact h.issued⟩
  have hkeep : op.writesResult = false := by
    obtain rfl | hop := List.mem_cons.1 hop
    · rfl
    · exact hp op hop
  exact ((internal_result hi).resolve_right (by simp [hkeep])).trans (h.result hp)

theorem raised (h : Progress prog s ops t) (rest : List Op) (e : ErrCode) : Progress prog s [] (raiseAt rest e t) :=
  h.abandon.same (raiseAt_log ..).1 (raiseAt_result ..) (raiseAt_log ..).2

/-- One step of the command, however it comes out. -/
theorem start (hprog : ∀ op ∈ prog, ∀ u, op.action u = op.action s) (hop : op ∈ .work :: prog)
    (h : Progress prog s (op :: rest) t) : Progress prog s rest (op.start t).state := by
  have hact : op.action t = op.action s := by
    obtain rfl | hop := List.mem_cons.1 hop
    · rfl
    · exact hprog op hop t
  obtain ⟨ha, hs⟩ | ⟨a, u, ha, hu, hsame, hs⟩ := start_cases op t
  · have hskip := h.skip (hact ▸ ha)
    rw [hs]
    exact ofExcept_state hskip fun v hi => hskip.internal hop hi
  · have hissue := h.issue (hact ▸ ha) hu hsame
    obtain ⟨r, hs⟩ | hs := hs <;> rw [hs]
    · exact ofExcept_state hissue fun v hf => hissue.finish hf
    · exact hissue

/-- The run of steps of the command. -/
theorem run (hprog : ∀ op ∈ prog, ∀ u, op.action u = op.action s) (hops : ∀ op ∈ ops, op ∈ .work :: prog)
    (h : Progress prog s ops t) : Underway prog s (run ops t) := by
  have start {op : Op} {rest : List Op} {u : State} {o : OpOutcome} (hops : ∀ o ∈ op :: rest, o ∈ .work :: prog)
      (h : Progress prog s (op :: rest) u) (ho : op.start u = o) : Progress prog s rest o.state :=
    ho ▸ h.start hprog (hops op (by simp))
  refine run_induction (P := fun ops u => (∀ op ∈ ops, op ∈ .work :: prog) ∧ Progress prog s ops u)
    (Q := Underway prog s) ?linger ?finish ?passed ?raised ?waiting ops t ⟨hops, h⟩
  case linger =>
    exact fun ops u w ⟨hops, h⟩ _ =>
      ⟨List.forall_mem_cons.2 ⟨List.mem_cons_self .., hops⟩, h.same rfl rfl rfl⟩
  case finish => exact fun u ⟨_, h⟩ _ => ⟨nofun, h.same rfl rfl rfl⟩
  case passed => exact fun op rest u v ⟨hops, h⟩ hs => ⟨(List.forall_mem_cons.1 hops).2, start hops h hs⟩
  case raised =>
    intro op rest u e v ⟨hops, h⟩ hs
    have hm := (raiseAt_bank rest e v).2.1
    exact ⟨by rw [hm]; exact nofun, by rw [hm]; exact (start hops h hs).raised rest e⟩
  case waiting => exact fun op rest u v ⟨hops, h⟩ hs => ⟨hops, (start hops h hs).same rfl rfl rfl⟩

end Progress

theorem Underway.resume {prog : List Op} {s t : State} (hprog : ∀ op ∈ prog, ∀ u, op.action u = op.action s)
    (h : Underway prog s t) (r : Reply) : Underway prog s (resume r t) := by
  obtain ⟨-, hr⟩ | ⟨op, rest, u, hm, hf, hr⟩ | ⟨op, rest, e, hm, hf, hr⟩ := resume_cases r t <;> rw [hr]
  · exact h
  · obtain ⟨hsteps, hp⟩ := h
    rw [hm] at hsteps hp
    exact (hp.finish hf).run hprog (List.forall_mem_cons.1 hsteps).2
  · have hnil := (raiseAt_bank rest e t).2.1
    exact ⟨by rw [hnil]; exact nofun, by rw [hnil]; exact h.progress.raised rest e⟩

/-- A command that is the run of steps whose actions do not depend on the state, at every point of its course. -/
theorem course_underway {i : Instr} {prog : List Op} {s t : State} (hexec : exec i s = .next (run prog s))
    (hprog : ∀ op ∈ prog, ∀ u, op.action u = op.action s) (h : Course i s t) : Underway prog s t := by
  refine course_induction ?first ?outside ?returned h
  case first =>
    intro u hu
    cases hexec.symm.trans hu
    have hstart : Progress prog s prog s := ⟨rfl, fun _ => rfl, [], by simp, List.prefix_rfl⟩
    exact hstart.run hprog fun op ho => List.mem_cons_of_mem _ ho
  case outside =>
    intro u v ⟨hsteps, hp⟩ ho
    rw [← ho.micro] at hsteps hp
    exact ⟨hsteps, hp.same (by rw [ho]) (by rw [ho]) (by rw [ho])⟩
  case returned => exact fun u r _ hu => hu.resume hprog r

/-- What holds of every step of a command holds of those it still has to do. -/
theorem Underway.steps_units {prog : List Op} {s t : State} (h : Underway prog s t)
    (hprog : ∀ op ∈ prog, op.writesUnits = false) : ∀ op ∈ t.micro, op.writesUnits = false := by
  intro op ho
  obtain rfl | hop := List.mem_cons.1 (h.steps op ho)
  · rfl
  · exact hprog op hop

/-- A command none of whose steps writes the units' fields leaves them through its course. -/
theorem course_withUnits {i : Instr} {prog : List Op} {s t : State} (hexec : exec i s = .next (run prog s))
    (hact : ∀ op ∈ prog, ∀ u, op.action u = op.action s) (hprog : ∀ op ∈ prog, op.writesUnits = false)
    (h : Course i s t) : s.withUnits t = t := by
  induction h with
  | first h =>
    cases hexec.symm.trans h
    exact ((withUnits_untouched s).run hprog s).symm
  | @more u v hu hb hr hs ih =>
    have hstep := step_withUnits hb hr ((course_underway hexec hact hu).steps_units hprog) s hs
    rw [ih, hs] at hstep
    exact (Host.Outcome.next.inj hstep).symm

/-- A run without pin steps leaves the LED bank and its pins (R193). -/
theorem bank_keeps (b : Bank) : RunKeeps fun ops s => (∀ op ∈ ops, op.isPin = false) ∧ s.bank = b := by
  have tail {op : Op} {rest : List Op} {k k' : Bank} (h : (∀ o ∈ op :: rest, o.isPin = false) ∧ k = b)
      (hk : k' = op.onBank k) : (∀ o ∈ rest, o.isPin = false) ∧ k' = b := by
    obtain ⟨hop, hrest⟩ := List.forall_mem_cons.1 h.1
    have hsame : op.onBank k = k := settle_of_not_pin (ops := [op]) (by simpa using hop) k
    exact ⟨hrest, (hk.trans hsame).trans h.2⟩
  exact
    { same := fun h e => ⟨h.1, e.bank.trans h.2⟩
      work := fun h => ⟨List.forall_mem_cons.2 ⟨rfl, h.1⟩, h.2⟩
      returned := fun ho h hf => tail h (finish_bank hf ho).2
      internal := fun ha h hi => tail h (internal_bank hi ha).2
      raised := fun _ h => ⟨nofun, (raiseAt_bank ..).2.2.trans h.2⟩ }

/-! ### The raw commands (R103, R105, R106, R107) -/

/-- The steps of a raw command: one transaction, whose action is `a`, and perhaps the write of RESULT. -/
structure RawSteps (i : Instr) (a : Action) (prog : List Op) : Prop where
  exec : ∀ s, exec i s = .next (run prog s)
  issues : ∀ s, prog.filterMap (Op.action s) = [a]
  action : ∀ op ∈ prog, ∀ s u, op.action u = op.action s
  units : ∀ op ∈ prog, op.writesUnits = false
  pins : ∀ op ∈ prog, op.isPin = false
  result : (∃ reg v, i = .bwr reg v) → ∀ op ∈ prog, op.writesResult = false

theorem bwr_steps (reg v : Byte) : RawSteps (.bwr reg v) (busW reg v) [.memWrite reg v] :=
  ⟨fun _ => rfl, fun _ => rfl, by simp [Op.action], by simp [Op.writesUnits], by simp [Op.isPin],
    by simp [Op.writesResult]⟩

theorem brd_steps (reg : Byte) : RawSteps (.brd reg) (busR reg 1) [.memRead reg, .resultByte] :=
  ⟨fun _ => rfl, fun _ => rfl, by simp [Op.action], by simp [Op.writesUnits], by simp [Op.isPin], by simp⟩

theorem brd2_steps (reg : Byte) : RawSteps (.brd2 reg) (busR reg 2) [.memReadPair reg .v, .resultPair] :=
  ⟨fun _ => rfl, fun _ => rfl, by simp [Op.action], by simp [Op.writesUnits], by simp [Op.isPin], by simp⟩

namespace RawSteps

variable {i : Instr} {a : Action} {prog : List Op} {s t : State}

theorem underway (hp : RawSteps i a prog) (h : Course i s t) : Underway prog s t :=
  course_underway (hp.exec s) (fun op ho u => hp.action op ho s u) h

/-- The units' fields are the same throughout. -/
theorem withUnits (hp : RawSteps i a prog) (h : Course i s t) : s.withUnits t = t :=
  course_withUnits (hp.exec s) (fun op ho u => hp.action op ho s u) hp.units h

/-- At most the one transaction is issued. -/
theorem actions (hp : RawSteps i a prog) (h : Course i s t) : t.actions = s.actions ∨ t.actions = s.actions ++ [a] := by
  obtain ⟨as, has, hle⟩ := (hp.underway h).progress.issued
  rw [hp.issues s] at hle
  have hpre : as <+: [a] := (List.prefix_append ..).trans hle
  obtain rfl | rfl := by simpa [List.prefix_cons_iff] using hpre
  · exact .inl (by simpa using has)
  · exact .inr has

/-- The first step leaves the pins. -/
theorem run_pins (hp : RawSteps i a prog) (s : State) : (run prog s).pins = s.pins :=
  congrArg Bank.pins ((bank_keeps s.bank).run ⟨hp.pins, rfl⟩).2

end RawSteps

/-- Settles O23: the steps of a raw command write none of these fields, so they do not read them either. -/
theorem rawCommandsTouchNoDriverState : Obligations.RawCommandsTouchNoDriverState := by
  intro s i a hraw
  have hsteps : ∃ prog, RawSteps i a prog := by
    obtain ⟨reg, v, rfl, rfl⟩ | ⟨reg, rfl, rfl⟩ | ⟨reg, rfl, rfl⟩ := hraw
    · exact ⟨_, bwr_steps reg v⟩
    · exact ⟨_, brd_steps reg⟩
    · exact ⟨_, brd2_steps reg⟩
  obtain ⟨prog, hp⟩ := hsteps
  refine ⟨fun t h => ?_, fun t h => ?_, fun t u h hb hr hs x e c g b v n ls pm => ?_⟩
  · have hprogress := (hp.underway h).progress
    have hactions := hp.actions h
    rw [← hp.withUnits h]
    exact ⟨rfl, rfl, rfl, rfl, rfl, rfl, rfl, rfl, rfl, hprogress.lastcmd, hactions,
      fun hi => hprogress.result (hp.result hi)⟩
  · cases (hp.exec s).symm.trans h
    have hsticky := run_noViolation prog s
    refine ⟨hp.run_pins s, hsticky.cv, hsticky.ovr, fun x e c g b v n ls pm => ?_⟩
    let y : State := { s with sstate := x, enabled := e, atime := c, gain := g, lbinit := b, inverted := v,
                              ledcount := n, ledStates := ls, pinmap := pm }
    exact (hp.exec (y.withUnits s)).trans (congrArg _ ((withUnits_untouched y).run hp.units s))
  · let y : State := { t with sstate := x, enabled := e, atime := c, gain := g, lbinit := b, inverted := v,
                              ledcount := n, ledStates := ls, pinmap := pm }
    exact step_withUnits hb hr ((hp.underway h).steps_units hp.units) y hs

/-! ### One transaction that returns at once (R100 to R105) -/

theorem finish_failed {op : Op} {r : Reply} (hop : op.isTransaction = true) (hr : r.ok = false) (s : State) :
    op.finish r s = .error .busError := by
  cases op with
  | memWrite | memWriteMasked | memRead | memReadPair => simp [Op.finish, hr]
  | _ => cases hop

/-- A transaction that fails ends the command, outside `Begin`, with BUS_ERROR (R101). -/
theorem run_transaction_failed {op : Op} {rest : List Op} {s : State} {a : Action} {r : Reply} {w : List Stimulus}
    (hop : op.isTransaction = true) (hw : s.world = .ret r :: w) (ha : op.action s = some a) (hr : r.ok = false)
    (htry : inTry rest = false) : run (op :: rest) s = ((s.emit a).withWorld w).raise .busError := by
  rw [run_ret_raise hw ha (finish_failed hop hr _), raiseAt_outside htry]

theorem raise_busError (s : State) : s.raise .busError =
    { s with err := .busError, busy := false, micro := [], locals := {} } := by
  simp [State.raise, ErrCode.isContract]

/-- Settles O20: the transaction fails, or it succeeds and the command ends. -/
theorem bwrIsOneWrite : Obligations.BwrIsOneWrite := by
  intro reg value s r w hw hc
  change Host.Outcome.next (run [.memWrite reg value] s) = _
  cases hr : r.ok with
  | false => rw [run_transaction_failed rfl hw rfl hr rfl, raise_busError]; rfl
  | true => rw [run_ret hw rfl (by simp [Op.finish, hr]; rfl), run_nil (hc hr)]; rfl

/-- Settles O21: the transaction fails, or it succeeds and RESULT is the byte. -/
theorem brdReadsOneByte : Obligations.BrdReadsOneByte := by
  intro reg s r w hw hc
  change Host.Outcome.next (run [.memRead reg, .resultByte] s) = _
  cases hr : r.ok with
  | false => rw [run_transaction_failed rfl hw rfl hr rfl, raise_busError]; rfl
  | true =>
    rw [run_ret hw rfl (by simp [Op.finish, hr]; rfl), run_internal (hc hr) rfl rfl, run_nil (hc hr),
      BitVec.ofNat_toNat]
    rfl

/-! ### The value of a pair (R56, R104, R108) -/

/-- The first byte of a pair is the low one. -/
theorem pairValue_toNat (lo hi : Byte) : (pairValue lo hi).toNat = hi.toNat * 256 + lo.toNat := by
  have happend : pairValue lo hi = hi ++ lo := by
    rw [pairValue, BitVec.append_def, BitVec.shiftLeftZeroExtend_eq, BitVec.setWidth'_eq]
  rw [happend, append_toNat]
  rfl

/-- Settles O22: the transaction fails, or it succeeds and RESULT is the value of the pair. -/
theorem brd2ReadsLittleEndianPair : Obligations.Brd2ReadsLittleEndianPair := by
  intro reg s r w hw hc
  change Host.Outcome.next (run [.memReadPair reg .v, .resultPair] s) = _
  cases hr : r.ok with
  | false => rw [run_transaction_failed rfl hw rfl hr rfl, raise_busError]; rfl
  | true =>
    rw [run_ret hw rfl (by simp [Op.finish, hr]; rfl), run_internal (hc hr) rfl rfl, run_nil (hc hr),
      ← pairValue_toNat, BitVec.ofNat_toNat]
    rfl

/-- Settles O24, from the value of a pair as a number. -/
theorem pairSwapLaw : Obligations.PairSwapLaw := by
  intro x y
  have hxy := pairValue_toNat x y
  have hyx := pairValue_toNat y x
  refine ⟨by omega, fun hne heq => hne (BitVec.eq_of_toNat_eq ?_)⟩
  rw [heq] at hxy
  omega

end Sys2Proof.Machine

/-! PROOFS about the sensor driver: the begin sequence and its failures, each driver command once begun, and what a driver
command issues, and when, through its whole course (41_sensor_driver.md R120 to R137). -/

namespace Sys2Proof.Machine

/-! ### A driver command is its guard and its body (R121) -/

/-- The steps of a driver command after the guard (R125, R127, R128, R130, R134). -/
def bodyOps : Instr → List Op
  | .enable => enableBody
  | .disable => [.memRead Target.regEnable, .memWriteMasked Target.regEnable (~~~(Target.pon ||| Target.aen)),
      .setEnabled false]
  | .setatime c => [.setAtime c, .memWrite Target.regAtime c]
  | .setgain c => [.setGain c, .memWrite Target.regControl c]
  | .readrgb => [.memReadPair Target.regCdatal .c, .memReadPair Target.regRdatal .r, .memReadPair Target.regGdatal .g,
      .memReadPair Target.regBdatal .b, .resultRgb]
  | .bwr _ _ | .brd _ | .brd2 _ | .ledpin _ _ | .ledinit _ _ | .setled _ _ | .getled _ => []

theorem exec_driver {i : Instr} (hd : i.isDriver = true) (hl : i.legal = true) (s : State) :
    exec i s = .next (run (guardOps s ++ bodyOps i) s) := by
  cases i with
  | setatime c => simp only [exec, execSetatime, show atimeLegal c = true from hl, if_true]; rfl
  | setgain c => simp only [exec, execSetgain, show gainLegal c = true from hl, if_true]; rfl
  | enable | disable | readrgb => rfl
  | bwr | brd | brd2 | ledpin | ledinit | setled | getled => cases hd

/-- What a driver command's first step comes to, whatever its operand. -/
theorem driver_next {i : Instr} {s t : State} (hd : i.isDriver = true) (h : exec i s = .next t) :
    t = run (guardOps s ++ bodyOps i) s ∨ t = s.raise .badOperand := by
  cases hl : i.legal with
  | true => exact .inl (Host.Outcome.next.inj (h.symm.trans (exec_driver hd hl s)))
  | false => exact .inr (Host.Outcome.next.inj (h.symm.trans (exec_of_not_legal hl s)))

/-- Once the begin sequence is done a driver command is its body. -/
theorem exec_begun {i : Instr} {s : State} (hd : i.isDriver = true) (hl : i.legal = true) (hs : s.sstate ≠ .uninit) :
    exec i s = .next (run (bodyOps i) s) := by
  rw [exec_driver hd hl, guardOps_of_begun hs, List.nil_append]

/-- The transactions of the begin sequence after the identity read, with its settling delay (R122, R126). -/
def beginCalls (s : State) : List Op :=
  [.memWrite Target.regAtime s.atime, .memWrite Target.regControl s.gain, .memWrite Target.regEnable Target.pon, .delay,
   .memWrite Target.regEnable (Target.pon ||| Target.aen)]

theorem guardOps_of_uninit {s : State} (h : s.sstate = .uninit) : guardOps s =
    .memRead Target.regId :: .checkId :: .setVerifying :: (beginCalls s ++ [.setEnabled true, .setReady]) := by
  simp [guardOps, h, beginOps, enableBody, beginCalls]

/-- The body does not enter the `try` block of `Begin` again. -/
theorem setVerifying_not_mem_bodyOps (i : Instr) : Op.setVerifying ∉ bodyOps i := by
  cases i <;> simp [bodyOps, enableBody]

/-! ### Calls that return at once -/

section

variable {s : State} {r : Reply} {w : List Stimulus} (hw : s.world = .ret r :: w) (rest : List Op)

include hw

theorem run_delay : run (.delay :: rest) s = run rest ((s.emit (.delay 3)).withWorld w) := run_ret hw rfl rfl

variable (hr : r.ok = true)

include hr

theorem run_memWrite (reg v : Byte) : run (.memWrite reg v :: rest) s = run rest ((s.emit (busW reg v)).withWorld w) :=
  run_ret hw rfl (if_pos hr)

theorem run_memWriteMasked (reg mask : Byte) : run (.memWriteMasked reg mask :: rest) s =
    run rest ((s.emit (busW reg (s.locals.byte &&& mask))).withWorld w) :=
  run_ret hw rfl (if_pos hr)

theorem run_memRead (reg : Byte) :
    run (.memRead reg :: rest) s = run rest (((s.emit (busR reg 1)).withWorld w).setByte r.b0) :=
  run_ret hw rfl (if_pos hr)

theorem run_memReadPair (reg : Byte) (x : PairVar) : run (.memReadPair reg x :: rest) s =
    run rest (((s.emit (busR reg 2)).withWorld w).setPair x (pairValue r.b0 r.b1)) :=
  run_ret hw rfl (if_pos hr)

end

/-! ### The begin sequence (R121 to R124) -/

/-- Settles O25: the guard runs as `run_begin` says, and from READY there is no guard. -/
theorem guardRunsBeginThenBody : Obligations.GuardRunsBeginThenBody := by
  intro i s r0 r1 r2 r3 r4 r5 w hd hl hu hw h0 hi h1 h2 h3 h5 hc
  rw [exec_driver hd hl, run_begin (bodyOps i) hu hw h0 hi h1 h2 h3 h5 hc, exec_begun hd hl]
  exact nofun

theorem raise_of_not_contract {e : ErrCode} (h : e.isContract = false) (s : State) :
    s.raise e = { s with err := e, busy := false, micro := [], locals := {} } := by
  simp [State.raise, h]

/-- Before the `try` block of `Begin` is entered no handler is active. -/
theorem inTry_of_mem_setVerifying {ops : List Op} (h : Op.setVerifying ∈ ops) : inTry ops = false := by
  simp [inTry, h]

/-- Settles O26: the identity read, or the check after it, raises before the `try` block of `Begin` is entered. -/
theorem identityFailureEndsCommand : Obligations.IdentityFailureEndsCommand := by
  intro i s r w hd hl hu hw
  replace hw : s.world = .ret r :: w := hw
  rw [exec_driver hd hl, guardOps_of_uninit hu, List.cons_append, List.cons_append, List.cons_append]
  refine ⟨fun hr => ?_, fun hr hi hc => ?_⟩
  · rw [run_transaction_failed rfl hw rfl hr (inTry_of_mem_setVerifying (by simp)), raise_busError]
    rfl
  · rw [run_memRead hw _ hr, run_internal_raise (e := .identityMismatch) hc rfl (by exact if_neg hi),
      raiseAt_outside (inTry_of_mem_setVerifying (by simp)), raise_of_not_contract rfl]
    rfl

/-- A call that issues the same action in every state and, when it returns, writes at most the command's variables. -/
def Op.isPlainCall : Op → Bool
  | .memWrite _ _ | .memRead _ | .memReadPair _ _ | .delay => true
  | .memWriteMasked _ _ | .pinOpen _ | .pinSetOutput _ | .pinWrite _ _ | .checkId | .setVerifying | .setReady
  | .setEnabled _ | .setAtime _ | .setGain _ | .resultByte | .resultPair | .resultRgb | .bankUp _ _ | .work => false

theorem plainCall_action {op : Op} (h : op.isPlainCall = true) : ∃ a, ∀ s, op.action s = some a := by
  cases op with
  | memWrite | memRead | memReadPair | delay => exact ⟨_, fun _ => rfl⟩
  | _ => cases h

theorem plainCall_finish {op : Op} {r : Reply} (h : op.isPlainCall = true) (hr : r.ok = true) (s : State) :
    ∃ l, op.finish r s = .ok { s with locals := l } := by
  cases op with
  | memWrite | memRead | delay => exact ⟨_, by simp only [Op.finish, hr, if_true]; rfl⟩
  | memReadPair reg x => simp only [Op.finish, hr, if_true]; cases x <;> exact ⟨_, rfl⟩
  | _ => cases h

/-- An error ending forgets the command's variables. -/
theorem raiseAt_withLocals (rest : List Op) (e : ErrCode) (s : State) (l : Locals) :
    raiseAt rest e { s with locals := l } = raiseAt rest e s := by
  unfold raiseAt; split <;> rfl

/-- Calls of which the first ones succeed and the next, a transaction, fails: the command ends there with BUS_ERROR, through
the handler where it is active (R65, R101, R123). -/
theorem run_calls_failed {calls : List Op} (tail : List Op) {op : Op} {s : State} {rs : List Reply} {r : Reply}
    {w : List Stimulus} (hcalls : ∀ c ∈ calls, c.isPlainCall = true) (hop : calls[rs.length]? = some op)
    (htr : op.isTransaction = true) (hw : s.world = rets (rs ++ [r]) ++ w) (hrs : ∀ q ∈ rs, q.ok = true)
    (hr : r.ok = false) :
    run (calls ++ tail) s = raiseAt (calls.drop (rs.length + 1) ++ tail) .busError { s with
      world := w, actions := s.actions ++ (calls.filterMap (Op.action s)).take (rs.length + 1) } := by
  induction calls generalizing s rs with
  | nil => simp at hop
  | cons c calls ih =>
    obtain ⟨hc, hcalls⟩ := List.forall_mem_cons.1 hcalls
    obtain ⟨a, ha⟩ := plainCall_action hc
    rw [List.cons_append, List.filterMap_cons_some (ha s)]
    cases rs with
    | nil =>
      obtain rfl : c = op := by simpa using hop
      rw [run_ret_raise hw (ha s) (finish_failed htr hr _)]
      simp [State.emit, State.withWorld]
    | cons q rs =>
      obtain ⟨hq, hrs⟩ := List.forall_mem_cons.1 hrs
      obtain ⟨l, hf⟩ := plainCall_finish hc hq ((s.emit a).withWorld (rets (rs ++ [r]) ++ w))
      have hsame : ∀ u, calls.filterMap (Op.action u) = calls.filterMap (Op.action s) := fun u =>
        List.filterMap_congr fun o ho => by
          obtain ⟨b, hb⟩ := plainCall_action (hcalls o ho)
          rw [hb, hb]
      rw [run_ret hw (ha s) hf, ih hcalls (by simpa using hop) rfl hrs, hsame]
      refine (raiseAt_withLocals _ _ _ s.locals).symm.trans ?_
      simp [State.emit, State.withWorld]

theorem setVerifying_not_mem_beginCalls (s : State) : Op.setVerifying ∉ beginCalls s := by simp [beginCalls]

theorem beginCalls_plain (s : State) : ∀ c ∈ beginCalls s, c.isPlainCall = true := by
  simp [beginCalls, Op.isPlainCall]

/-- Settles O27: the identity check passes, and then one of the calls in the `try` block of `Begin` fails. -/
theorem failedBeginRevertsToUninit : Obligations.FailedBeginRevertsToUninit := by
  intro i s k r0 r rs w hd hl hu hk hlen hw h0 hi hrs hr
  replace hw : s.world = .ret r0 :: (rets (rs ++ [r]) ++ w) := hw
  have hcalm : calm (rets (rs ++ [r]) ++ w) := by cases rs <;> exact calm_ret _ _
  have hcall : ∃ op, (beginCalls s)[rs.length]? = some op ∧ op.isTransaction = true := by
    obtain h | h | h | h : rs.length = 0 ∨ rs.length = 1 ∨ rs.length = 2 ∨ rs.length = 4 := by omega
    all_goals rw [h]; exact ⟨_, rfl, rfl⟩
  obtain ⟨op, hop, htr⟩ := hcall
  have htry : inTry ((beginCalls s).drop (rs.length + 1) ++ ([.setEnabled true, .setReady] ++ bodyOps i)) = true := by
    have hcalls : Op.setVerifying ∉ (beginCalls s).drop (rs.length + 1) := fun hm =>
      setVerifying_not_mem_beginCalls s (List.mem_of_mem_drop hm)
    simp [inTry, hcalls, setVerifying_not_mem_bodyOps]
  rw [exec_driver hd hl, guardOps_of_uninit hu, List.cons_append, List.cons_append, List.cons_append,
    run_memRead hw _ h0, run_internal hcalm rfl (by exact if_pos hi), run_internal hcalm rfl rfl, List.append_assoc,
    run_calls_failed _ (beginCalls_plain s) hop htr rfl hrs hr, raiseAt_inTry htry, raise_busError, ← hlen]
  simp only [State.revertBegin, State.setSstate, State.setByte, State.emit, State.withWorld, List.append_assoc]
  rfl

/-! ### Driver commands once begun (R125 to R135) -/

/-- Settles O28: the first write fails, or the second one does after the delay, or neither. -/
theorem enableFromReady : Obligations.EnableFromReady := by
  intro s r1 r2 r3 w hs hw
  replace hw : s.world = .ret r1 :: .ret r2 :: .ret r3 :: w := hw
  rw [exec_begun rfl rfl hs, bodyOps, enableBody]
  refine ⟨fun h1 h3 hc => ?_, fun h1 => ?_, fun h1 h3 => ?_⟩
  · rw [run_memWrite hw _ h1, run_delay rfl, run_memWrite rfl _ h3, run_internal hc rfl rfl, run_nil hc]
    simp only [State.endOk, State.setEnabled, State.emit, State.withWorld, List.append_assoc]
    rfl
  · rw [run_transaction_failed rfl hw rfl h1 rfl, raise_busError]
    rfl
  · rw [run_memWrite hw _ h1, run_delay rfl, run_transaction_failed rfl rfl rfl h3 rfl, raise_busError]
    simp only [State.emit, State.withWorld, List.append_assoc]
    rfl

/-- Settles O29: the read fails, or the write of the masked byte does, or neither. -/
theorem disableFromReady : Obligations.DisableFromReady := by
  intro s r1 r2 w hs hw
  replace hw : s.world = .ret r1 :: .ret r2 :: w := hw
  rw [exec_begun rfl rfl hs, bodyOps]
  refine ⟨fun h1 h2 hc => ?_, fun h1 => ?_, fun h1 h2 => ?_⟩
  · rw [run_memRead hw _ h1, run_memWriteMasked rfl _ h2, run_internal hc rfl rfl, run_nil hc]
    simp only [State.endOk, State.setEnabled, State.setByte, State.emit, State.withWorld, List.append_assoc]
    rfl
  · rw [run_transaction_failed rfl hw rfl h1 rfl, raise_busError]
    rfl
  · rw [run_memRead hw _ h1, run_transaction_failed rfl rfl rfl h2 rfl, raise_busError]
    simp only [State.setByte, State.emit, State.withWorld, List.append_assoc]
    rfl

/-- Settles O30: the shadow takes the code, and what is left is the one write a BWR makes. -/
theorem setatimeFromReady : Obligations.SetatimeFromReady := by
  intro code s r w hcode hs hw hc
  have hl : (Instr.setatime code).legal = true := by simpa [Instr.legal, atimeLegal, Target.atimeCodes] using hcode
  have hcalm : calm s.world := by rw [hw]; exact calm_ret r w
  rw [exec_begun rfl hl hs, bodyOps, run_internal hcalm rfl rfl]
  exact bwrIsOneWrite Target.regAtime code (s.setAtime code) r w hw hc

/-- Settles O31: the shadow takes the code, and what is left is the one write a BWR makes. -/
theorem setgainFromReady : Obligations.SetgainFromReady := by
  intro code s r w hcode hs hw hc
  have hl : (Instr.setgain code).legal = true := by simpa [Instr.legal, gainLegal, Target.gainCodes] using hcode
  have hcalm : calm s.world := by rw [hw]; exact calm_ret r w
  rw [exec_begun rfl hl hs, bodyOps, run_internal hcalm rfl rfl]
  exact bwrIsOneWrite Target.regControl code (s.setGain code) r w hw hc

/-- Settles O32: each read writes the variable of its channel, and RESULT is made of the four. -/
theorem readrgbFromReady : Obligations.ReadrgbFromReady := by
  intro s rc rr rg rb w hs hw hrc hrr hrg hrb hc
  replace hw : s.world = .ret rc :: .ret rr :: .ret rg :: .ret rb :: w := hw
  rw [exec_begun rfl rfl hs, bodyOps, run_memReadPair hw _ hrc, run_memReadPair rfl _ hrr,
    run_memReadPair rfl _ hrg, run_memReadPair rfl _ hrb, run_internal hc rfl rfl, run_nil hc]
  simp only [State.endOk, State.setResult, State.setPair, State.emit, State.withWorld, List.append_assoc]
  rfl

/-- The reads of READRGB (R134). -/
def channelReads : List Op :=
  [.memReadPair Target.regCdatal .c, .memReadPair Target.regRdatal .r, .memReadPair Target.regGdatal .g,
   .memReadPair Target.regBdatal .b]

theorem channelReads_plain : ∀ c ∈ channelReads, c.isPlainCall = true ∧ c.isTransaction = true := by
  simp [channelReads, Op.isPlainCall, Op.isTransaction]

/-- Settles O33: the reads are calls that fail at the k-th, with no handler active. -/
theorem readrgbStopsAtFailedRead : Obligations.ReadrgbStopsAtFailedRead := by
  intro s rs r w hs hlen hw hrs hr
  have hop : channelReads[rs.length]? = some channelReads[rs.length] := List.getElem?_eq_getElem hlen
  have htr := (channelReads_plain _ (List.getElem_mem hlen)).2
  have htry : inTry (channelReads.drop (rs.length + 1) ++ [.resultRgb]) = false := by
    have hmem : Op.setReady ∉ channelReads.drop (rs.length + 1) := fun hm =>
      nomatch (channelReads_plain _ (List.mem_of_mem_drop hm)).1
    simp [inTry, hmem]
  rw [exec_begun rfl rfl hs, show bodyOps .readrgb = channelReads ++ [.resultRgb] from rfl,
    run_calls_failed _ (fun c hc => (channelReads_plain c hc).1) hop htr hw hrs hr, raiseAt_outside htry,
    raise_busError]
  rfl

/-! ### DISABLE and BRD on the reference target (R55, R127) -/

/-- One step of a command issues its action, if it has one, and nothing else. -/
theorem start_actions (op : Op) (s : State) : (op.start s).state.actions = s.actions ++ (op.action s).toList := by
  obtain ⟨ha, hs⟩ | ⟨a, u, ha, hu, -, ⟨r, hs⟩ | hs⟩ := start_cases op s <;> rw [hs, ha]
  · rw [Option.toList_none, List.append_nil]
    exact ofExcept_state (P := fun t => t.actions = s.actions) rfl fun t hi => (internal_log hi).2
  · exact ofExcept_state (P := fun t => t.actions = s.actions ++ [a]) hu fun t hf => (finish_log hf).2.trans hu
  · exact hu

/-- A run issues actions and takes none back. -/
theorem run_actions (ops : List Op) (s : State) : s.actions <+: (run ops s).actions := by
  have start {op : Op} {u : State} {o : OpOutcome} (hu : s.actions <+: u.actions) (ho : op.start u = o) :
      s.actions <+: o.state.actions := by
    rw [← ho, start_actions]; exact hu.trans (List.prefix_append ..)
  refine run_induction (P := fun _ u => s.actions <+: u.actions) (Q := fun t => s.actions <+: t.actions)
    ?linger ?finish ?passed ?raised ?waiting ops s List.prefix_rfl
  case linger => exact fun ops u w hu _ => hu
  case finish => exact fun u hu _ => hu
  case passed => exact fun op rest u u' hu hs => start hu hs
  case raised => exact fun op rest u e u' hu hs => (raiseAt_log rest e u').2 ▸ start hu hs
  case waiting => exact fun op rest u u' hu hs => start hu hs

/-- A run that is not made to linger issues its first step's action. -/
theorem run_issues {op : Op} {s : State} {a : Action} (hc : calm s.world) (ha : op.action s = some a) (rest : List Op) :
    s.actions ++ [a] <+: (run (op :: rest) s).actions := by
  have hstart := start_actions op s
  rw [ha, Option.toList_some] at hstart
  rw [← hstart, run, lingering_eq_none.2 hc]
  cases op.start s with
  | passed t => exact run_actions rest t
  | raised e t => exact (raiseAt_log rest e t).2 ▸ List.prefix_rfl
  | waiting t => exact List.prefix_rfl

theorem calm_rets_append {w : List Stimulus} (hc : calm w) (rs : List Reply) : calm (rets rs ++ w) := by
  cases rs with
  | nil => exact hc
  | cons r rs => exact calm_ret r _

/-- Where the target answers the actions that are issued, in their order, the first of them is the first call's. -/
theorem answered_first {op : Op} {rest : List Op} {s : State} {a : Action} {target : RefTarget} {acts : List Action}
    {w : List Stimulus} (hc : calm w) (hw : s.world = rets (target.answers acts) ++ w) (ha : op.action s = some a)
    (hacts : (run (op :: rest) s).actions <+: s.actions ++ acts) : ∃ as, acts = a :: as := by
  have hfirst := (run_issues (by rw [hw]; exact calm_rets_append hc _) ha rest).trans hacts
  obtain ⟨as, rfl⟩ := (List.prefix_append_right_inj s.actions).1 hfirst
  exact ⟨as, rfl⟩

theorem RefTarget.reg_setReg (t : RefTarget) (c v : Byte) : (t.setReg c v).reg c = v := by
  have hlt : (c &&& 0x7F#8).toNat < 128 := by
    rw [BitVec.toNat_and]; exact Nat.lt_of_le_of_lt Nat.and_le_right (by decide)
  rw [RefTarget.reg, RefTarget.setReg, Vector.getElem?_setIfInBounds_self_of_lt hlt, Option.getD_some]

/-- The byte DISABLE writes back, as a RESULT: bits 1 and 0 clear, bits [7:2] kept (R127, R103). -/
theorem maskedByte_bits (v : Byte) : ((v &&& 0xFC#8).zeroExtend 32).extractLsb' 0 2 = 0 ∧
    ((v &&& 0xFC#8).zeroExtend 32).extractLsb' 2 6 = v.extractLsb' 2 6 ∧
    ((v &&& 0xFC#8).zeroExtend 32).extractLsb' 8 24 = 0 := by
  have hlow : ∀ i < 2, (0xFC#32).getLsbD i = false := by decide
  have hhigh : ∀ i < 6, (0xFC#32).getLsbD (2 + i) = true := by decide
  refine ⟨?_, ?_, ?_⟩ <;> ext i hi
  · simp [hlow i hi]
  · simp [hhigh i hi, show 2 + i < 32 by omega]
  · simp

/-- Settles O35: the actions issued are those of the two commands, so that their answers are the target's. -/
theorem disableThenReadBack : Obligations.DisableThenReadBack := by
  intro s t u target acts w hs hc ht hu hacts hw
  have hbegun : s.sstate ≠ .uninit := by rw [hs]; exact nofun
  have hdisable : run (bodyOps .disable) s = t := Host.Outcome.next.inj ((exec_begun rfl rfl hbegun).symm.trans ht)
  have hbrd : run [.memRead 0x00, .resultByte] t = u := Host.Outcome.next.inj hu
  have htu : t.actions <+: s.actions ++ acts := by rw [← hacts, ← hbrd]; exact run_actions ..
  obtain ⟨acts, rfl⟩ := answered_first (a := busR 0x00 1) hc hw rfl (hdisable ▸ htu)
  have hread : run (bodyOps .disable) s = run _ _ := run_memRead hw _ rfl _
  rw [List.append_cons, ← hdisable, hread] at htu
  let v : Byte := target.reg 0x80 &&& 0xFC
  obtain ⟨acts, rfl⟩ := answered_first (target := target) (a := busW 0x00 v) hc rfl rfl htu
  obtain ⟨hok, -, -⟩ := disableFromReady s ⟨true, target.reg 0x80, 0⟩ ⟨true, 0, 0⟩
    (rets ((target.setReg 0x80 v).answers acts) ++ w) hbegun hw
  cases ht.symm.trans (hok rfl rfl (calm_rets_append hc _))
  have hlast : u.actions = (s.actions ++ [busR 0x00 1, busW 0x00 v]) ++ acts := by rw [hacts, List.append_assoc]; rfl
  obtain ⟨acts, rfl⟩ := answered_first (a := busR 0x00 1) hc rfl rfl (by rw [hbrd, hlast]; exact List.prefix_rfl)
  cases hu.symm.trans (brdReadsOneByte 0x00 _ ⟨true, (target.setReg 0x80 v).reg 0x80, 0⟩ _ rfl fun _ =>
    calm_rets_append hc _)
  have hnil : acts = [] := by simpa using congrArg List.length hlast
  have hbyte : (target.setReg 0x80 v).reg 0x80 = v := RefTarget.reg_setReg ..
  subst hnil
  rw [hbyte, BitVec.ofNat_toNat]
  exact ⟨rfl, rfl, rfl, maskedByte_bits (target.reg 0x80)⟩

/-! ### What a driver command issues through its course (R137) -/

/-- The step's action holds the command's byte (R127). -/
def Op.readsByte : Op → Bool
  | .memWriteMasked _ _ => true
  | .memWrite _ _ | .memRead _ | .memReadPair _ _ | .delay | .pinOpen _ | .pinSetOutput _ | .pinWrite _ _ | .checkId
  | .setVerifying | .setReady | .setEnabled _ | .setAtime _ | .setGain _ | .resultByte | .resultPair | .resultRgb
  | .bankUp _ _ | .work => false

/-- The action of a step, the command's byte being `v`. -/
def Op.issues (v : Byte) (op : Op) : Option Action := op.action (State.reset.setByte v)

/-- Of the state an action depends on the command's byte alone. -/
theorem action_eq_issues (op : Op) (s : State) : op.action s = op.issues s.locals.byte := by cases op <;> rfl

theorem issues_of_not_readsByte {op : Op} (h : op.readsByte = false) (v x : Byte) : op.issues v = op.issues x := by
  cases op with
  | memWriteMasked => cases h
  | _ => rfl

/-- A command with the steps `prog`, started in `s`, has come to `t` with `rest` left to issue: the steps before are
issued, a masked write among them with one byte `v`. -/
def Traced (prog : List Op) (s : State) (rest : List Op) (t : State) : Prop :=
  ∃ done v, done ++ rest = prog ∧ t.actions = s.actions ++ done.filterMap (Op.issues v)

/-- A command with the steps `prog`, started in `s`, stands at `t`: at one of its steps, which is issued, or at its own
work, and at its end all are issued if it ends OK. -/
def Follows (prog : List Op) (s t : State) : Prop :=
  ∃ rest, Traced prog s rest t ∧ (t.micro ≠ [] → t.micro.tail = rest) ∧ (t.micro = [] → t.err = .ok → rest = [])

/-- At most one step of the command holds its byte. -/
def OneMasked (prog : List Op) : Prop := (prog.filter Op.readsByte).length ≤ 1

theorem OneMasked.before {done rest : List Op} {op : Op} (h : OneMasked (done ++ op :: rest))
    (hop : op.readsByte = true) : ∀ o ∈ done, o.readsByte = false := by
  have hlen : (done.filter Op.readsByte).length = 0 := by
    simp only [OneMasked, List.filter_append, List.filter_cons_of_pos hop, List.length_append, List.length_cons] at h
    omega
  simpa using List.eq_nil_of_length_eq_zero hlen

theorem finish_error_ne_ok {op : Op} {r : Reply} {s : State} {e : ErrCode} (h : op.finish r s = .error e) :
    e ≠ .ok := by
  obtain ⟨-, rfl⟩ | ⟨-, rfl⟩ := finish_error_cases h <;> exact nofun

theorem start_raised_ne_ok {op : Op} {s t : State} {e : ErrCode} (h : op.start s = .raised e t) : e ≠ .ok := by
  obtain ⟨-, hi, -⟩ | ⟨a, r, -, -, -, hf⟩ := start_raised h
  · obtain ⟨-, rfl⟩ := internal_error_cases hi; exact nofun
  · exact finish_error_ne_ok hf

namespace Traced

variable {prog ops rest : List Op} {op : Op} {s t u : State}

theorem same (h : Traced prog s rest t) (ha : u.actions = t.actions) : Traced prog s rest u := by
  rw [Traced, ha]; exact h

/-- One step of the command, however it comes out. -/
theorem start (hone : OneMasked prog) (h : Traced prog s (op :: rest) t) : Traced prog s rest (op.start t).state := by
  obtain ⟨done, v, rfl, ha⟩ := h
  have hbyte : ∃ x, op.issues x = op.action t ∧ done.filterMap (Op.issues x) = done.filterMap (Op.issues v) := by
    rw [action_eq_issues]
    cases hop : op.readsByte with
    | true =>
      exact ⟨_, rfl, List.filterMap_congr fun o ho => issues_of_not_readsByte (hone.before hop o ho) _ _⟩
    | false => exact ⟨v, issues_of_not_readsByte hop _ _, rfl⟩
  obtain ⟨x, hop, hdone⟩ := hbyte
  refine ⟨done ++ [op], x, by simp, ?_⟩
  rw [start_actions, ha, List.filterMap_append, hdone, List.append_assoc, ← hop]
  cases hx : op.issues x <;> simp [hx]

/-- A raised error ends the command, and not with OK. -/
theorem raised (h : Traced prog s rest t) {e : ErrCode} (he : e ≠ .ok) (ops : List Op) :
    Follows prog s (raiseAt ops e t) := by
  refine ⟨rest, h.same (raiseAt_log ..).2, fun hm => absurd (raiseAt_bank ..).2.1 hm, fun _ herr => ?_⟩
  exact absurd ((raiseAt_err ..).symm.trans herr) he

/-- The run of the steps left. -/
theorem run (hone : OneMasked prog) (h : Traced prog s ops t) : Follows prog s (run ops t) := by
  have start {op : Op} {rest : List Op} {u : State} {o : OpOutcome} (h : Traced prog s (op :: rest) u)
      (ho : op.start u = o) : Traced prog s rest o.state := ho ▸ h.start hone
  refine run_induction (P := Traced prog s) (Q := Follows prog s) ?linger ?finish ?passed ?raised ?waiting ops t h
  case linger => exact fun ops u w h _ => ⟨ops, h, fun _ => rfl, nofun⟩
  case finish => exact fun u h _ => ⟨[], h, fun hm => absurd rfl hm, fun _ _ => rfl⟩
  case passed => exact fun op rest u v h hs => start h hs
  case raised => exact fun op rest u e v h hs => (start h hs).raised (start_raised_ne_ok hs) rest
  case waiting => exact fun op rest u v h hs => ⟨rest, start h hs, fun _ => rfl, nofun⟩

end Traced

/-- The step a command stands at is issued. -/
theorem Follows.traced {prog rest : List Op} {op : Op} {s t : State} (h : Follows prog s t)
    (hm : t.micro = op :: rest) : Traced prog s rest t := by
  obtain ⟨rest', htr, htail, -⟩ := h
  obtain rfl : rest = rest' := by simpa [hm] using htail
  exact htr

theorem Follows.resume {prog : List Op} {s t : State} (hone : OneMasked prog) (h : Follows prog s t) (r : Reply) :
    Follows prog s (resume r t) := by
  obtain ⟨-, hr⟩ | ⟨op, rest, u, hm, hf, hr⟩ | ⟨op, rest, e, hm, hf, hr⟩ := resume_cases r t <;> rw [hr]
  · exact h
  · exact ((h.traced hm).same (finish_log hf).2).run hone
  · exact (h.traced hm).raised (finish_error_ne_ok hf) rest

theorem oneMasked_driver (i : Instr) (s : State) : OneMasked (guardOps s ++ bodyOps i) := by
  have hguard : ∀ op ∈ guardOps s, op.readsByte = false :=
    guardOps_forall (by simp [beginOps, enableBody, Op.readsByte])
  have hnil : (guardOps s).filter Op.readsByte = [] := by simpa using hguard
  rw [OneMasked, List.filter_append, hnil, List.nil_append]
  cases i <;> exact of_decide_eq_true rfl

/-- A driver command at every point of its course: rejected for its operand, or its guard and its body underway. -/
theorem course_follows {i : Instr} {s t : State} (hd : i.isDriver = true) (h : Course i s t) :
    Follows (guardOps s ++ bodyOps i) s t := by
  have hstart : Traced (guardOps s ++ bodyOps i) s (guardOps s ++ bodyOps i) s := ⟨[], 0, by simp⟩
  refine course_induction ?first ?outside ?returned h
  case first =>
    intro u hu
    obtain rfl | rfl := driver_next hd hu
    · exact hstart.run (oneMasked_driver i s)
    · exact ⟨_, hstart, fun hm => absurd rfl hm, nofun⟩
  case outside =>
    intro u v ⟨rest, htr, htail, hend⟩ ho
    have herr : v.err = u.err := by rw [ho]
    exact ⟨rest, htr.same (by rw [ho]), by rwa [ho.micro], by rwa [ho.micro, herr]⟩
  case returned => exact fun u r _ hu => hu.resume (oneMasked_driver i s) r

/-- The actions of a driver command's steps are its row of the table (R137). -/
theorem issues_driver {i : Instr} (hd : i.isDriver = true) (s : State) (v : Byte) :
    (guardOps s ++ bodyOps i).filterMap (Op.issues v) = driverActions i s v := by
  have hguard : (guardOps s).filterMap (Op.issues v) = if s.sstate = .uninit then beginActions s else [] := by
    unfold guardOps; split <;> rfl
  rw [List.filterMap_append, hguard, driverActions]
  congr 1
  cases i with
  | enable | disable | setatime | setgain | readrgb => rfl
  | bwr | brd | brd2 | ledpin | ledinit | setled | getled => cases hd

/-- The course of an accepted command is at rest between steps. -/
theorem course_atRest {i : Instr} {s t : State} (hb : s.busy = true) (h : Course i s t) : AtRest t :=
  course_induction (first := fun _ hu => (started_atRest hb (exec_started hu)).1)
    (outside := fun _ _ hu ho => hu.of_eq ho.busy ho.micro) (returned := fun _ r _ hu => (resume_atRest r hu).1) h

/-- Settles O37: the actions are those of the steps done, and all steps are done where the command ends OK. -/
theorem driverActionsFollowTable : Obligations.DriverActionsFollowTable := by
  intro i s t hd _ hb hc
  obtain ⟨rest, ⟨done, v, hprog, hactions⟩, -, hend⟩ := course_follows hd hc
  have htable := issues_driver hd s v
  rw [← hprog, List.filterMap_append] at htable
  refine ⟨v, (done.filterMap (Op.issues v)).length, ?_, fun hidle hok => ?_⟩
  · rw [hactions, ← htable, List.take_left]
  · obtain rfl := hend ((course_atRest hb hc).micro_nil hidle) hok
    rw [hactions, ← htable, List.filterMap_nil, List.append_nil]

/-! ### The settling delay (R126, R250) -/

/-- Every write of 0x03 to ENABLE comes right after a settling delay, which comes right after a write of 0x01 to ENABLE. -/
def Settled (as : List Action) : Prop :=
  ∀ k, as[k]? = some (busW 0x00 0x03) → ∃ j, k = j + 2 ∧ as[j]? = some (busW 0x00 0x01) ∧ as[j + 1]? = some (.delay 3)

theorem settled_of_not_mem {as : List Action} (h : busW 0x00 0x03 ∉ as) : Settled as :=
  fun _ hk => absurd (List.mem_of_getElem? hk) h

theorem Settled.of_isPrefix {as bs : List Action} (h : Settled bs) (hp : as <+: bs) : Settled as := by
  intro k hk
  obtain ⟨hlt, -⟩ := List.getElem?_eq_some_iff.1 hk
  obtain ⟨cs, rfl⟩ := hp
  rw [← List.getElem?_append_left (l₂ := cs) hlt] at hk
  obtain ⟨j, rfl, h0, h1⟩ := h k hk
  rw [List.getElem?_append_left (by omega)] at h0 h1
  exact ⟨j, rfl, h0, h1⟩

theorem Settled.append {as bs : List Action} (ha : Settled as) (hb : Settled bs) : Settled (as ++ bs) := by
  intro k hk
  by_cases hlt : k < as.length
  · rw [List.getElem?_append_left hlt] at hk
    obtain ⟨j, rfl, h0, h1⟩ := ha k hk
    exact ⟨j, rfl, by rwa [List.getElem?_append_left (by omega)], by rwa [List.getElem?_append_left (by omega)]⟩
  · obtain ⟨m, rfl⟩ := Nat.exists_eq_add_of_le (Nat.le_of_not_lt hlt)
    rw [List.getElem?_append_right (by omega), Nat.add_sub_cancel_left] at hk
    obtain ⟨j, rfl, h0, h1⟩ := hb m hk
    refine ⟨as.length + j, by omega, ?_, ?_⟩
    · rwa [List.getElem?_append_right (by omega), Nat.add_sub_cancel_left]
    · rwa [List.getElem?_append_right (by omega), Nat.add_assoc, Nat.add_sub_cancel_left]

theorem settled_enActions : Settled enActions := by
  intro k hk
  match k with
  | 0 | 1 => simp [enActions, busW] at hk
  | 2 => exact ⟨0, rfl, rfl, rfl⟩
  | k + 3 => simp [enActions] at hk

/-- DISABLE does not write 0x03: bits 1 and 0 of the byte it writes are clear (R127). -/
theorem ne_maskedByte (v : Byte) : 0x03#8 ≠ v &&& 0xFC#8 := fun h => by
  simpa using congrArg (BitVec.getLsbD · 0) h

theorem settled_bodyActions (v : Byte) (i : Instr) : Settled (bodyActions v i) := by
  cases i with
  | enable => exact settled_enActions
  | disable => exact settled_of_not_mem (by simp [bodyActions, busW, busR, ne_maskedByte v])
  | setatime | setgain => exact settled_of_not_mem (by simp [bodyActions, busW, wireByte, Config.cmdBit])
  | readrgb => exact settled_of_not_mem (by simp [bodyActions, busW, busR])
  | bwr | brd | brd2 | ledpin | ledinit | setled | getled => exact settled_of_not_mem (by simp [bodyActions])

theorem settled_beginActions (s : State) : Settled (beginActions s) :=
  (settled_of_not_mem (by simp [busW, busR, wireByte, Config.cmdBit])).append settled_enActions

theorem settled_driverActions (i : Instr) (s : State) (v : Byte) : Settled (driverActions i s v) := by
  unfold driverActions
  split
  · exact (settled_beginActions s).append (settled_bodyActions v i)
  · exact settled_bodyActions v i

/-- Settles O38: a beginning of a row of the table in which the delay and the two writes stand together. -/
theorem settlingDelayBeforeAdcEnable : Obligations.SettlingDelayBeforeAdcEnable := by
  intro i s t as k hd hc has hk
  obtain ⟨rest, ⟨done, v, hprog, hactions⟩, -⟩ := course_follows hd hc
  obtain rfl := List.append_cancel_left (has.symm.trans hactions)
  have hprefix : done.filterMap (Op.issues v) <+: driverActions i s v := by
    rw [← issues_driver hd s v, ← hprog, List.filterMap_append]; exact List.prefix_append ..
  exact (settled_driverActions i s v).of_isPrefix hprefix k hk

/-! ### The driver state while a transaction is outstanding (R136) -/

/-- In UNINIT the only transaction still to do before the driver state moves to VERIFYING is the identity read (R122). -/
def OnlyIdUninit (ops : List Op) (s : State) : Prop :=
  s.sstate = .uninit → ∀ op ∈ ops.takeWhile (· ≠ .setVerifying), op.isTransaction = true → op = .memRead Target.regId

theorem onlyIdUninit_guarded (s : State) (body : List Op) : OnlyIdUninit (guardOps s ++ body) s := by
  intro hu
  rw [guardOps_of_uninit hu]
  simp [Op.isTransaction]

/-- A step that leaves the driver state, done. -/
theorem OnlyIdUninit.tail {op : Op} {rest : List Op} {s t : State} (h : OnlyIdUninit (op :: rest) s)
    (hop : op ≠ .setVerifying) (hs : t.sstate = s.sstate) : OnlyIdUninit rest t := by
  intro hu o ho
  refine h (hs.symm.trans hu) o ?_
  rw [List.takeWhile_cons_of_pos (by simpa using hop)]
  exact List.mem_cons_of_mem _ ho

/-- A step inside the block leaves the driver state, or moves it to VERIFYING or READY. -/
theorem internal_sstate {op : Op} {s t : State} (h : op.internal s = .ok t) :
    (op ≠ .setVerifying ∧ t.sstate = s.sstate) ∨ t.sstate ≠ .uninit := by
  cases op with
  | setVerifying | setReady => cases h; exact .inr nofun
  | checkId =>
    simp only [Op.internal] at h
    split at h <;> cases h
    exact .inl ⟨nofun, rfl⟩
  | _ => cases h; exact .inl ⟨nofun, rfl⟩

theorem onlyIdUninit_keeps : RunKeeps OnlyIdUninit where
  same h e hu := h (e.sstate.symm.trans hu)
  work h hu := by simpa [Op.isTransaction] using h hu
  returned ho h hf := h.tail (by rintro rfl; cases ho) (finish_driver hf).2.1
  internal _ h hi := by
    obtain ⟨hop, hs⟩ | hs := internal_sstate hi
    · exact h.tail hop hs
    · exact fun hu => absurd hu hs
  raised _ _ _ := nofun

/-- A command that waits stands at a step that can be outstanding (R31). -/
def Outstanding (s : State) : Prop := ∀ op rest, s.micro = op :: rest → op.waits = true

theorem outstanding_of_nil {s : State} (h : s.micro = []) : Outstanding s := by
  intro op rest hm; cases h.symm.trans hm

theorem run_outstanding (ops : List Op) (s : State) : Outstanding (run ops s) := by
  refine run_induction (P := fun _ _ => True) (Q := Outstanding) ?linger ?finish ?passed ?raised ?waiting ops s trivial
  case linger => rintro ops s w - - op rest h; cases h; rfl
  case finish => exact fun s _ _ => outstanding_of_nil rfl
  case passed => exact fun _ _ _ _ _ _ => trivial
  case raised => exact fun op rest s e s' _ _ => outstanding_of_nil (raiseAt_bank rest e s').2.1
  case waiting =>
    rintro op rest s s' - hs o ops h
    cases h
    obtain ⟨a, ha, -⟩ := start_waiting hs
    exact waits_of_action ha

theorem resume_outstanding {s : State} (r : Reply) (h : Outstanding s) : Outstanding (resume r s) := by
  obtain ⟨-, hr⟩ | ⟨op, rest, t, -, -, hr⟩ | ⟨op, rest, e, -, -, hr⟩ := resume_cases r s <;> rw [hr]
  · exact h
  · exact run_outstanding rest t
  · exact outstanding_of_nil (raiseAt_bank rest e s).2.1

/-- A driver command at every point of its course. -/
theorem course_onlyIdUninit {i : Instr} {s t : State} (hd : i.isDriver = true) (h : Course i s t) :
    OnlyIdUninit t.micro t := by
  refine (course_induction (P := fun t => Outstanding t ∧ OnlyIdUninit t.micro t) ?first ?outside ?returned h).2
  case first =>
    intro u hu
    obtain rfl | rfl := driver_next hd hu
    · exact ⟨run_outstanding _ s, onlyIdUninit_keeps.run (onlyIdUninit_guarded s _)⟩
    · exact ⟨outstanding_of_nil rfl, fun _ => nofun⟩
  case outside =>
    intro u v ⟨hout, hu⟩ ho
    have hs : v.sstate = u.sstate := by rw [ho]
    rw [Outstanding, ho.micro]
    exact ⟨hout, fun hv => hu (hs.symm.trans hv)⟩
  case returned =>
    exact fun u r _ ⟨hout, hu⟩ => ⟨resume_outstanding r hout, onlyIdUninit_keeps.resume hu fun op rest t hm hf =>
      onlyIdUninit_keeps.returned (hout op rest hm) (hm ▸ hu) hf⟩

/-- Settles O39: in UNINIT the outstanding transaction is the first left to do, so it is the identity read. -/
theorem transactionsOutsideUninit : Obligations.TransactionsOutsideUninit := by
  intro i s t op rest hd hc hm htr hid hu
  have hop : op ≠ .setVerifying := by rintro rfl; cases htr
  refine hid (course_onlyIdUninit hd hc hu op ?_ htr)
  rw [hm, List.takeWhile_cons_of_pos (by simpa using hop)]
  exact List.mem_cons_self ..

end Sys2Proof.Machine

/-! PROOFS about the quantizer: its function and its laws, READRGB on a zero clear count, and the time the block may take
for its own work, at any point of a command (42_quantizer.md R160 to R166). -/

namespace Sys2Proof.Machine

/-! ### The function and its laws (R160, R163) -/

/-- The clamp on the full quotient makes it fit in 8 bits (R161). -/
theorem quantize_toNat (raw clear : Half) : (quantize raw clear).toNat =
    if clear.toNat = 0 then 0 else min 255 (raw.toNat * 255 / clear.toNat) := by
  have hfits : min 255 (raw.toNat * 255 / clear.toNat) < 2 ^ 8 := by omega
  have hzero : clear = 0 ↔ clear.toNat = 0 := BitVec.toNat_inj.symm
  simp only [quantize, hzero]
  split
  · rfl
  · rw [BitVec.toNat_ofNat, Nat.mod_eq_of_lt hfits]

/-- Settles O42: the function as a number, which the clamp keeps within the 8 bits of the output. -/
theorem quantizerFunction : Obligations.QuantizerFunction := quantize_toNat

theorem quantize_zero_clear (raw : Half) : quantize raw 0 = 0 := if_pos rfl

section

variable {raw clear : Half} (hpos : 0 < clear.toNat)

include hpos

theorem quantize_toNat_of_pos (raw : Half) :
    (quantize raw clear).toNat = min 255 (raw.toNat * 255 / clear.toNat) := by
  rw [quantize_toNat, if_neg hpos.ne']

/-- The clamp is active exactly when the colour count reaches the clear count (R162). -/
theorem quantize_eq_255_iff : (quantize raw clear).toNat = 255 ↔ clear.toNat ≤ raw.toNat := by
  have hclamped : 255 ≤ raw.toNat * 255 / clear.toNat ↔ 255 * clear.toNat ≤ raw.toNat * 255 :=
    Nat.le_div_iff_mul_le hpos
  rw [quantize_toNat_of_pos hpos]
  omega

/-- Below the clear count the result is the quotient itself (R163). -/
theorem quantize_of_lt (hlt : raw.toNat < clear.toNat) :
    (quantize raw clear).toNat = 255 * raw.toNat / clear.toNat ∧ (quantize raw clear).toNat ≤ 254 := by
  have hbelow : (quantize raw clear).toNat ≠ 255 := (quantize_eq_255_iff hpos).not.2 hlt.not_ge
  rw [quantize_toNat_of_pos hpos] at hbelow ⊢
  rw [Nat.mul_comm 255]
  omega

theorem quantize_zero_raw : quantize 0 clear = 0 := by
  apply BitVec.eq_of_toNat_eq
  rw [quantize_toNat_of_pos hpos]
  simp

theorem quantize_mono_raw {raw' : Half} (hle : raw.toNat ≤ raw'.toNat) :
    (quantize raw clear).toNat ≤ (quantize raw' clear).toNat := by
  rw [quantize_toNat_of_pos hpos, quantize_toNat_of_pos hpos]
  exact min_le_min_left 255 (Nat.div_le_div_right (Nat.mul_le_mul_right 255 hle))

theorem quantize_antitone_clear {clear' : Half} (hle : clear.toNat ≤ clear'.toNat) :
    (quantize raw clear').toNat ≤ (quantize raw clear).toNat := by
  rw [quantize_toNat_of_pos hpos, quantize_toNat_of_pos (hpos.trans_le hle)]
  exact min_le_min_left 255 (Nat.div_le_div_left hle hpos)

end

/-- Settles O43, law by law; the last one is an instance. -/
theorem quantizerLaws : Obligations.QuantizerLaws := fun _ _ hpos =>
  ⟨quantize_eq_255_iff hpos, quantize_of_lt hpos, quantize_zero_raw hpos, fun _ => quantize_mono_raw hpos,
    fun _ => quantize_antitone_clear hpos, by decide⟩

/-! ### READRGB on a zero clear count (R134, R164) -/

theorem readrgb_zero_clear {s : State} {rr rg rb : Reply} {w : List Stimulus} (hs : s.sstate ≠ .uninit)
    (hw : s.world = rets [⟨true, 0, 0⟩, rr, rg, rb] ++ w) (hrr : rr.ok = true) (hrg : rg.ok = true)
    (hrb : rb.ok = true) (hc : calm w) :
    ∃ t, exec .readrgb s = .next t ∧ t.err = .ok ∧ t.busy = false ∧ t.result = 0x00000000#32 := by
  refine ⟨_, readrgbFromReady s _ rr rg rb w hs hw rfl hrr hrg hrb hc, rfl, rfl, ?_⟩
  rw [show pairValue 0 0 = 0 from rfl, quantize_zero_clear, quantize_zero_clear, quantize_zero_clear]
  rfl

/-- Settles O34: once the guard has run its begin sequence, READRGB goes on as it does from READY. -/
theorem zeroClearCountGivesZero : Obligations.ZeroClearCountGivesZero := by
  refine ⟨quantize_zero_clear, fun s rs rc rr rg rb w hguard hw hrc hrr hrg hrb hc => ?_⟩
  subst hrc
  by_cases hu : s.sstate = .uninit
  · rw [guardReplies, if_pos hu] at hguard
    obtain ⟨r0, r1, r2, r3, r4, r5, rfl, h0, hid, h1, h2, h3, h5⟩ := hguard
    rw [guardRunsBeginThenBody .readrgb s r0 r1 r2 r3 r4 r5 (rets [⟨true, 0, 0⟩, rr, rg, rb] ++ w) rfl rfl hu hw h0 hid
      h1 h2 h3 h5 (calm_ret _ _)]
    exact readrgb_zero_clear nofun rfl hrr hrg hrb hc
  · rw [guardReplies, if_neg hu] at hguard
    subst hguard
    exact readrgb_zero_clear hu hw hrr hrg hrb hc

/-! ### The block's own work (R166; log 4) -/

theorem run_linger {s : State} {w : List Stimulus} (hw : s.world = .linger :: w) (ops : List Op) :
    run ops s = (s.withWorld w).suspend (.work :: ops) := by
  cases ops <;> rw [run, lingering_eq_some.2 ⟨w, hw, rfl⟩]

/-- A command that has had the answers `rs` when the block lingers has ended, or it is at its own work with steps `rest` to
do, which are what it does where there is no lingering. -/
theorem exec_lingers (i : Instr) (s : State) (rs : List Reply) :
    (∀ (x t : State) (w : List Stimulus), x.world = rets rs ++ .linger :: w → exec i (x.outer s) = .next t →
      t.busy = false) ∨
    ∃ rest u, (∀ (x : State) (w : List Stimulus), x.world = rets rs ++ .linger :: w →
        exec i (x.outer s) = .next (((x.withWorld w).outer u).suspend (.work :: rest))) ∧
      ∀ (x : State) (w : List Stimulus), x.world = rets rs ++ w →
        exec i (x.outer s) = .next (run rest ((x.withWorld w).outer u)) := by
  obtain ⟨e, hx⟩ | ⟨ops, s', -, hx⟩ := exec_outer i s
  · refine .inl fun x t w _ ht => ?_
    rw [hx] at ht
    cases ht; rfl
  obtain hend | ⟨rest, u, -, hrets⟩ := run_rets ops s' rs
  · refine .inl fun x t w hw ht => ?_
    rw [hx] at ht
    cases ht; exact (hend x _ hw).1
  · refine .inr ⟨rest, u, fun x w hw => ?_, fun x w hw => ?_⟩
    · rw [hx, hrets x _ hw, run_linger (w := w) rfl]; rfl
    · rw [hx, hrets x w hw]

/-- The return that ends the block's own work, whatever it brings, leaves the command where it would be without the work. -/
theorem lingered_return {i : Instr} {s t : State} {rs : List Reply} {r : Reply} {w : List Stimulus} (hb : t.busy = true)
    (hexec : exec i { s with world := rets rs ++ .linger :: .ret r :: w } = .next t) :
    t.world = .ret r :: w ∧ ∃ u, step t = .next u ∧ exec i { s with world := rets rs ++ w } = .next u := by
  let x : State := { s with world := rets rs ++ .linger :: .ret r :: w }
  let y : State := { s with world := rets rs ++ w }
  obtain hend | ⟨rest, c, hlinger, hatOnce⟩ := exec_lingers i s rs
  · simp [hend x t _ rfl hexec] at hb
  cases hexec.symm.trans (hlinger x (.ret r :: w) rfl)
  refine ⟨rfl, run rest ((y.withWorld w).outer c), ?_, hatOnce y w rfl⟩
  rw [step_ret (r := r) (w := w) rfl, resume_work (rest := rest) r rfl]
  exact congrArg _ (run_suspend rest (.work :: rest) ((y.withWorld w).outer c))

/-- READRGB lingers after its fourth read: all its reads are issued and RESULT is not yet written (R166). -/
theorem readrgb_lingers {s : State} {rc rr rg rb : Reply} {w : List Stimulus} (hs : s.sstate ≠ .uninit)
    (hw : s.world = rets [rc, rr, rg, rb] ++ .linger :: w) (hrc : rc.ok = true) (hrr : rr.ok = true)
    (hrg : rg.ok = true) (hrb : rb.ok = true) :
    ∃ l, exec .readrgb s = .next { s with
      world := w, micro := [.work, .resultRgb], locals := l
      actions := s.actions ++ [busR 0x14 2, busR 0x16 2, busR 0x18 2, busR 0x1A 2] } := by
  replace hw : s.world = .ret rc :: .ret rr :: .ret rg :: .ret rb :: .linger :: w := hw
  rw [exec_begun rfl rfl hs, bodyOps, run_memReadPair hw _ hrc, run_memReadPair rfl _ hrr, run_memReadPair rfl _ hrg,
    run_memReadPair rfl _ hrb, run_linger rfl]
  simp only [State.suspend, State.setPair, State.emit, State.withWorld, List.append_assoc]
  exact ⟨_, rfl⟩

/-- Settles O40: a lingering at any point, and one after the fourth read of READRGB. -/
theorem lingeringOnlyDelays : Obligations.LingeringOnlyDelays := by
  refine ⟨fun _ _ _ _ _ _ _ hexec hb => lingered_return hb hexec,
    fun s rc rr rg rb w hb hs hw hrc hrr hrg hrb => ?_⟩
  obtain ⟨l, h⟩ := readrgb_lingers hs hw hrc hrr hrg hrb
  exact ⟨_, h, hb, rfl, rfl, rfl⟩

end Sys2Proof.Machine

/-! PROOFS about the LED driver: what each LED command comes to, the claims of LEDINIT, the round trip of a logical
value, and that the LED commands and the bus and driver commands are independent (43_led_driver.md R180 to R194). -/

namespace Sys2Proof.Machine

/-! ### What each LED command starts (R186, R187, R189, R191, R213) -/

section

variable {s : State} {index count pin : Byte} {v : Bool}

theorem exec_ledpin (hi : index.toNat < Config.nledMax) (hl : s.lbinit = false) :
    exec (.ledpin index pin) s = .next (run [] (s.setPinmap index.toNat pin)) := by
  simp [exec, execLedpin, hi, hl]

theorem exec_ledpin_index (hi : Config.nledMax ≤ index.toNat) :
    exec (.ledpin index pin) s = .next (s.raise .indexOutOfRange) := by
  simp [exec, execLedpin, hi]

theorem exec_ledpin_up (hi : index.toNat < Config.nledMax) (hl : s.lbinit = true) :
    exec (.ledpin index pin) s = .next (s.raise .badState) := by
  simp [exec, execLedpin, hi, hl]

theorem exec_ledinit (hc : count.toNat ≤ Config.nledMax) (hl : s.lbinit = false) : exec (.ledinit count v) s =
    .next (run (claimOps v (s.bankPins count.toNat) ++ [.bankUp count v]) s) := by
  simp [exec, execLedinit, countLegal, hc, hl]

theorem exec_ledinit_up (hc : count.toNat ≤ Config.nledMax) (hl : s.lbinit = true) :
    exec (.ledinit count v) s = .next (s.raise .badState) := by
  simp [exec, execLedinit, countLegal, hc, hl]

theorem exec_setled (hi : index.toNat < s.ledcount.toNat) : exec (.setled index v) s =
    .next (run [.pinWrite (s.pinOf index.toNat) (ledLevel v s.inverted)] (s.setLed index.toNat v)) := by
  simp [exec, execSetled, hi]

theorem exec_setled_index (hi : s.ledcount.toNat ≤ index.toNat) :
    exec (.setled index v) s = .next (s.raise .indexOutOfRange) := by
  simp [exec, execSetled, hi]

theorem exec_getled (hi : index.toNat < s.ledcount.toNat) :
    exec (.getled index) s = .next (run [] (s.setResult ((bit (s.led index.toNat)).zeroExtend 32))) := by
  simp [exec, execGetled, hi]

theorem exec_getled_index (hi : s.ledcount.toNat ≤ index.toNat) :
    exec (.getled index) s = .next (s.raise .indexOutOfRange) := by
  simp [exec, execGetled, hi]

end

theorem raise_of_contract {e : ErrCode} (h : e.isContract = true) (s : State) :
    s.raise e = { s with err := e, cv := true, busy := false, micro := [], locals := {} } := by
  simp [State.raise, h]

/-- Settles O45: the index is checked before the state of the bank, and nothing is checked after it. -/
theorem ledCommandErrors : Obligations.LedCommandErrors := by
  intro i index pin count v s
  refine ⟨fun h => ?_, fun hl h => ?_⟩
  · rw [← raise_of_contract rfl]
    obtain ⟨rfl, hi⟩ | ⟨rfl, hi⟩ | ⟨rfl, hi⟩ := h
    · exact exec_ledpin_index hi
    · exact exec_setled_index hi
    · exact exec_getled_index hi
  · rw [← raise_of_contract rfl]
    obtain ⟨rfl, hi⟩ | ⟨rfl, hc⟩ := h
    · exact exec_ledpin_up hi hl
    · exact exec_ledinit_up hc hl

/-! ### One store, one read (R186, R189, R191) -/

theorem pinmap_set (m : Vector (BitVec Config.pinIdW) Config.nledMax) {i : Nat} (j : Nat) (p : Byte)
    (hi : i < Config.nledMax) : ((m.setIfInBounds i p)[j]?).getD 0 = if j = i then p else (m[j]?).getD 0 := by
  rw [Vector.getElem?_setIfInBounds]
  by_cases h : i = j
  · subst h; simp [hi]
  · simp [h, Ne.symm h]

/-- Settles O44: the store is all LEDPIN does. -/
theorem ledpinRecordsPin : Obligations.LedpinRecordsPin := by
  intro index pin s hi hl hc
  refine ⟨s.pinmap.setIfInBounds index.toNat pin, ?_, fun i _ => pinmap_set s.pinmap i pin hi⟩
  exact (exec_ledpin hi hl).trans (congrArg Host.Outcome.next (run_nil hc))

/-- RESULT of a logical value (R191). -/
theorem zeroExtend_bit (b : Bool) : (bit b).zeroExtend 32 = if b then 1 else 0 := by cases b <;> rfl

/-- Settles O49: RESULT is all GETLED writes. -/
theorem getledReturnsLogicalValue : Obligations.GetledReturnsLogicalValue := by
  intro index s hi hc
  rw [exec_getled hi, zeroExtend_bit]
  exact congrArg Host.Outcome.next (run_nil hc)

/-! ### Pin operations that return at once (R181) -/

section

variable {s : State} {r : Reply} {w : List Stimulus} (hw : s.world = .ret r :: w) (p : Byte) (rest : List Op)

include hw

theorem run_pinOpen (hr : r.ok = true) : run (.pinOpen p :: rest) s =
    run rest (((s.emit (.pinOpen p)).withWorld w).updPin p fun x => { x with claimed := true }) :=
  run_ret hw rfl (if_pos hr)

theorem run_pinSetOutput : run (.pinSetOutput p :: rest) s =
    run rest (((s.emit (.pinSetOutput p)).withWorld w).updPin p fun x => { x with output := true }) :=
  run_ret hw rfl rfl

theorem run_pinWrite (l : Bool) : run (.pinWrite p l :: rest) s =
    run rest (((s.emit (.pinWrite p l)).withWorld w).updPin p fun x => { x with level := some l }) :=
  run_ret hw rfl rfl

end

/-- Settles O48: the store, then the one pin write. -/
theorem setledStoresAndDrives : Obligations.SetledStoresAndDrives := by
  intro index value s r w hi hn hw hc
  have hi3 : index.toNat < Config.nledMax := Nat.lt_of_lt_of_le hi hn
  let p := s.pinOf index.toNat
  refine ⟨s.ledStates.setIfInBounds index.toNat value,
    s.pins.set p.toNat { s.pins.get p.toNat with level := some (value ^^ s.inverted) }, ?_,
    fun i _ => led_set s.ledStates _ i value hi3, fun hwf q => ?_⟩
  · rw [exec_setled hi, run_pinWrite (s := s.setLed index.toNat value) hw, run_nil hc]
    rfl
  · rw [Pins.get_set _ _ _ hwf]
    by_cases hq : q = p
    · subst hq; simp [p]
    · simp [hq, p, BitVec.toNat_inj]

/-! ### The claims of LEDINIT (R187, R188, R194) -/

/-- What the claims issue, all granted (R187). -/
def claimActions (inv : Bool) (pins : List Byte) : List Action :=
  pins.flatMap fun p => [.pinOpen p, .pinSetOutput p, .pinWrite p inv]

theorem claimActions_cons (inv : Bool) (p : Byte) (ps : List Byte) : claimActions inv (p :: ps) =
    [.pinOpen p, .pinSetOutput p, .pinWrite p inv] ++ claimActions inv ps := rfl

theorem claimOps_cons (inv : Bool) (p : Byte) (ps : List Byte) : claimOps inv (p :: ps) =
    .pinOpen p :: .pinSetOutput p :: .pinWrite p (ledLevel false inv) :: claimOps inv ps := rfl

/-- Three answers for each of `n` pins, each claim among them granted. -/
def Granted (n : Nat) (rs : List Reply) : Prop :=
  rs.length = 3 * n ∧ ∀ j, j < n → ∃ r, rs[3 * j]? = some r ∧ r.ok = true

theorem Granted.cons {n : Nat} {rs : List Reply} (h : Granted (n + 1) rs) :
    ∃ r r' r'' rs', rs = r :: r' :: r'' :: rs' ∧ r.ok = true ∧ Granted n rs' := by
  obtain ⟨hlen, hok⟩ := h
  match rs, hlen with
  | r :: r' :: r'' :: rs', hlen =>
    obtain ⟨_, h0, hr⟩ := hok 0 (by omega)
    cases h0
    refine ⟨r, r', r'', rs', rfl, hr, ?_, fun j hj => hok (j + 1) (by omega)⟩
    simp only [List.length_cons] at hlen
    omega

/-- A pin whose claim is granted is opened, set to output and driven to the off level. -/
theorem run_claim {s : State} {r r' r'' : Reply} {w : List Stimulus} (hw : s.world = .ret r :: .ret r' :: .ret r'' :: w)
    (hr : r.ok = true) (inv : Bool) (p : Byte) (ps : List Byte) (rest : List Op) :
    run (claimOps inv (p :: ps) ++ rest) s = run (claimOps inv ps ++ rest) { s with
      world := w, actions := s.actions ++ [.pinOpen p, .pinSetOutput p, .pinWrite p inv]
      pins := (Bank.settle (claimOps inv [p]) s.bank).pins } := by
  rw [claimOps_cons, List.cons_append, List.cons_append, List.cons_append, run_pinOpen hw _ _ hr,
    run_pinSetOutput rfl, run_pinWrite rfl]
  simp only [State.updPin, State.emit, State.withWorld, List.append_assoc]
  cases inv <;> rfl

/-- The claims of LEDINIT, all granted: the bank's fields are as they were, whatever is left to do. -/
theorem run_claims {s : State} {ps : List Byte} {rs : List Reply} {w : List Stimulus} (hrs : Granted ps.length rs)
    (hw : s.world = rets rs ++ w) (inv : Bool) (rest : List Op) :
    run (claimOps inv ps ++ rest) s = run rest { s with
      world := w, actions := s.actions ++ claimActions inv ps
      pins := (Bank.settle (claimOps inv ps) s.bank).pins } := by
  induction ps generalizing s rs with
  | nil =>
    obtain rfl : rs = [] := List.eq_nil_of_length_eq_zero hrs.1
    replace hw : s.world = w := hw
    simp [claimOps, claimActions, Bank.settle, ← hw, State.bank]
  | cons p ps ih =>
    obtain ⟨r, r', r'', rs', rfl, hr, hrs'⟩ := hrs.cons
    rw [run_claim hw hr, ih hrs' rfl, claimActions_cons, ← List.append_assoc]
    rfl

/-- The claims of LEDINIT, all granted, in the pin record. -/
theorem claims_pins (inv : Bool) (ps : List Byte) (b : Bank) (hwf : b.pins.wf = true) (p : Byte) :
    (Bank.settle (claimOps inv ps) b).pins.get p.toNat =
      if p ∈ ps then { claimed := true, output := true, level := some inv } else b.pins.get p.toNat := by
  obtain ⟨-, -, -, hget⟩ := claims_settle inv ps b hwf
  exact hget p

theorem length_bankPins {s : State} {n : Nat} (h : n ≤ Config.nledMax) : (s.bankPins n).length = n := by
  simp [State.bankPins, h]

/-- Settles O46: the claims, all granted, and then the success writes. -/
theorem ledinitBringsBankUp : Obligations.LedinitBringsBankUp := by
  intro count inverted s rs w hn hl hlen hok hw hc
  have hrs : Granted (s.bankPins count.toNat).length rs := by rw [length_bankPins hn]; exact ⟨hlen, hok⟩
  refine ⟨_, ?_, fun hwf => claims_pins inverted _ s.bank hwf⟩
  rw [exec_ledinit hn hl, run_claims hrs hw, run_internal hc rfl rfl, run_nil hc]
  rfl

/-- The bank's first pins, the pin whose claim is refused, and the pins after it. -/
theorem bankPins_split {s : State} {k n : Nat} {q : Byte} (hk : k < n) (hq : (s.bankPins n)[k]? = some q) :
    s.bankPins n = s.bankPins k ++ q :: (s.bankPins n).drop (k + 1) := by
  obtain ⟨hlt, rfl⟩ := List.getElem?_eq_some_iff.1 hq
  have htake : (s.bankPins n).take k = s.bankPins k := by
    rw [State.bankPins, List.take_take, Nat.min_eq_left hk.le, State.bankPins]
  rw [← List.drop_eq_getElem_cons hlt, ← htake, List.take_append_drop]

theorem claimOps_append (inv : Bool) (ps qs : List Byte) :
    claimOps inv (ps ++ qs) = claimOps inv ps ++ claimOps inv qs := List.flatMap_append

/-- No step of a LED command lies inside the `try` block of `Begin`. -/
theorem inTry_of_led {ops : List Op} (h : ∀ op ∈ ops, op.isPin = true ∨ op = .work) : inTry ops = false := by
  have hready : Op.setReady ∉ ops := fun hm => by obtain h | h := h _ hm <;> cases h
  simp [inTry, hready]

theorem claimOps_isPin {inv : Bool} {ps : List Byte} : ∀ op ∈ claimOps inv ps, op.isPin = true := by
  intro op h
  obtain ⟨p, -, rfl | rfl | rfl⟩ := mem_claimOps.1 h <;> rfl

/-- A refused claim ends LEDINIT with PIN_UNAVAILABLE and changes nothing of the bank or the pins (R187). -/
theorem run_claim_refused {s : State} {r : Reply} {w : List Stimulus} {rest : List Op} (hw : s.world = .ret r :: w)
    (hr : r.ok = false) (hrest : ∀ op ∈ rest, op.isPin = true) (p : Byte) :
    run (.pinOpen p :: rest) s = ((s.emit (.pinOpen p)).withWorld w).raise .pinUnavailable := by
  rw [run_ret_raise (e := .pinUnavailable) hw rfl (by simp [Op.finish, hr]),
    raiseAt_outside (inTry_of_led fun op ho => .inl (hrest op ho))]

/-- Settles O47: the claims before the k-th, all granted, and then the refused one. -/
theorem refusedClaimLeavesNoBank : Obligations.RefusedClaimLeavesNoBank := by
  intro count inverted s k q rs r w hn hl hk hq hlen hok hr hw
  have hrs : Granted (s.bankPins k).length rs := by rw [length_bankPins (hk.le.trans hn)]; exact ⟨hlen, hok⟩
  replace hw : s.world = rets rs ++ .ret r :: w := by simpa [rets] using hw
  have hrest : ∀ op ∈ .pinSetOutput q :: .pinWrite q (ledLevel false inverted) ::
      (claimOps inverted ((s.bankPins count.toNat).drop (k + 1)) ++ [.bankUp count inverted]), op.isPin = true := by
    simp only [List.forall_mem_cons, List.forall_mem_append]
    exact ⟨rfl, rfl, claimOps_isPin, rfl, nofun⟩
  refine ⟨_, ?_, fun hwf => claims_pins inverted _ s.bank hwf⟩
  rw [exec_ledinit hn hl, bankPins_split hk hq, claimOps_append, claimOps_cons, List.append_assoc, run_claims hrs hw,
    List.cons_append, List.cons_append, List.cons_append, run_claim_refused rfl hr hrest, raise_of_not_contract rfl]
  rfl

/-! ### The round trip of a logical value (R192) -/

/-- A run whose steps write none of the units' fields leaves them. -/
theorem run_units {ops : List Op} (h : ∀ op ∈ ops, op.writesUnits = false) (s : State) :
    run ops s = s.withUnits (run ops s) :=
  (withUnits_untouched s).run h s

/-- SETLED writes its LED's logical value, if there is such an LED, and nothing else of the bank, whatever the outside
world does. -/
theorem setled_bank {s t : State} {j : Byte} {v : Bool} (h : exec (.setled j v) s = .next t) :
    t.ledcount = s.ledcount ∧ t.ledStates =
      if j.toNat < s.ledcount.toNat then s.ledStates.setIfInBounds j.toNat v else s.ledStates := by
  by_cases hj : j.toNat < s.ledcount.toNat
  · rw [exec_setled hj, run_units (by simp [Op.writesUnits])] at h
    cases h
    exact ⟨rfl, (if_pos hj).symm⟩
  · rw [exec_setled_index (Nat.le_of_not_lt hj)] at h
    cases h
    exact ⟨rfl, (if_neg hj).symm⟩

/-- The logical value SETLED stores. -/
theorem setled_led_same {s t : State} {j : Byte} {v : Bool} (hj : j.toNat < s.ledcount.toNat)
    (hn : s.ledcount.toNat ≤ Config.nledMax) (h : exec (.setled j v) s = .next t) : t.led j.toNat = v := by
  rw [State.led, (setled_bank h).2, if_pos hj, led_set _ _ _ _ (Nat.lt_of_lt_of_le hj hn), if_pos rfl]

/-- SETLED leaves every other LED's logical value. -/
theorem setled_led_other {s t : State} {i j : Byte} {v : Bool} (hne : j ≠ i) (h : exec (.setled j v) s = .next t) :
    t.led i.toNat = s.led i.toNat := by
  have hnat : j.toNat ≠ i.toNat := fun he => hne (BitVec.eq_of_toNat_eq he)
  rw [State.led, (setled_bank h).2, State.led]
  split
  · rw [Vector.getElem?_setIfInBounds_ne hnat]
  · rfl

/-- SETLEDs of other indices, one after the other, leave an LED's logical value. -/
theorem setleds_led_other {f : State → Byte × Bool → State} (hf : ∀ s x, exec (.setled x.1 x.2) s = .next (f s x))
    {i : Byte} {xs : List (Byte × Bool)} (hxs : ∀ x ∈ xs, x.1 ≠ i) (s : State) :
    (xs.foldl f s).ledcount = s.ledcount ∧ (xs.foldl f s).led i.toNat = s.led i.toNat := by
  induction xs generalizing s with
  | nil => exact ⟨rfl, rfl⟩
  | cons x xs ih =>
    obtain ⟨hx, hxs⟩ := List.forall_mem_cons.1 hxs
    obtain ⟨hn, hled⟩ := ih hxs (f s x)
    exact ⟨hn.trans (setled_bank (hf s x)).1, hled.trans (setled_led_other hx (hf s x))⟩

/-- The end of a command leaves RESULT, made to linger or not. -/
theorem run_nil_result (s : State) : (run [] s).result = s.result := by
  unfold run
  split
  · rename_i hl
    obtain ⟨w, -, rfl⟩ := lingering_eq_some.1 hl
    rfl
  · rfl

theorem getled_result {s t : State} {i : Byte} (hi : i.toNat < s.ledcount.toNat) (h : exec (.getled i) s = .next t) :
    t.result = if s.led i.toNat then 1 else 0 := by
  rw [exec_getled hi] at h
  cases h
  rw [run_nil_result, ← zeroExtend_bit]
  rfl

/-- Settles O50: the value is stored, the SETLEDs between leave it, and GETLED returns it. -/
theorem setThenGetRoundTrip : Obligations.SetThenGetRoundTrip := by
  intro i v between s t hi hn hne h
  generalize hf : (fun (u : State) (x : Byte × Bool) => _) = f at h
  have hstep : ∀ u x, exec (.setled x.1 x.2) u = .next (f u x) := by
    intro u x
    obtain ⟨u', hu⟩ := exec_next (.setled x.1 x.2) u
    simp only [← hf, hu]
  obtain ⟨hcount, hled⟩ := setleds_led_other hstep hne (f s (i, v))
  have hset := hstep s (i, v)
  rw [List.foldl_cons] at h
  rw [getled_result (by rwa [hcount, (setled_bank hset).1]) h, hled, setled_led_same hi hn hset]

/-! ### What the commands of one unit issue (R193) -/

/-- A step of a LED command (`led`), or of a bus or driver command, or the block's own work. -/
def Op.ofUnit (led : Bool) (op : Op) : Prop := op.isPin = led ∨ op = .work

/-- The actions issued from `s` to `t` are all bus actions (`bus`), or all pin operations. -/
def Issued (bus : Bool) (s t : State) : Prop := ∃ as, t.actions = s.actions ++ as ∧ ∀ a ∈ as, a.isBus = bus

theorem Issued.none {bus : Bool} {s t : State} (h : t.actions = s.actions) : Issued bus s t := ⟨[], by simp [h], nofun⟩

theorem Issued.trans {bus : Bool} {s t u : State} (h : Issued bus s t) (h' : Issued bus t u) : Issued bus s u := by
  obtain ⟨as, hs, has⟩ := h
  obtain ⟨bs, ht, hbs⟩ := h'
  exact ⟨as ++ bs, by rw [ht, hs, List.append_assoc], List.forall_mem_append.2 ⟨has, hbs⟩⟩

theorem Issued.same {bus : Bool} {s t u : State} (h : Issued bus s t) (ha : u.actions = t.actions) : Issued bus s u :=
  h.trans (.none ha)

theorem isBus_action {op : Op} {s : State} {a : Action} (h : op.action s = some a) : a.isBus = !op.isPin := by
  cases op <;> cases h <;> rfl

theorem start_issued {led : Bool} {op : Op} (hop : op.ofUnit led) (s : State) : Issued (!led) s (op.start s).state := by
  refine ⟨_, start_actions op s, fun a ha => ?_⟩
  have ha : op.action s = some a := by simpa using ha
  obtain rfl | rfl := hop
  · exact isBus_action ha
  · cases ha

/-- A command with steps of one unit, started in `s`, stands at `t` with steps of that unit left to do. -/
structure WithinUnit (led : Bool) (s t : State) : Prop where
  steps : ∀ op ∈ t.micro, op.ofUnit led
  issued : Issued (!led) s t

theorem withinUnit_raiseAt {led : Bool} {s t : State} (h : Issued (!led) s t) (rest : List Op) (e : ErrCode) :
    WithinUnit led s (raiseAt rest e t) :=
  ⟨by rw [(raiseAt_bank rest e t).2.1]; exact nofun, h.same (raiseAt_log rest e t).2⟩

theorem run_withinUnit {led : Bool} {ops : List Op} {s t : State} (hops : ∀ op ∈ ops, op.ofUnit led)
    (h : Issued (!led) s t) : WithinUnit led s (run ops t) := by
  have start {op : Op} {rest : List Op} {u : State} {o : OpOutcome} (hops : ∀ o ∈ op :: rest, o.ofUnit led)
      (h : Issued (!led) s u) (ho : op.start u = o) : Issued (!led) s o.state :=
    h.trans (ho ▸ start_issued (hops op (by simp)) u)
  refine run_induction (P := fun ops u => (∀ op ∈ ops, op.ofUnit led) ∧ Issued (!led) s u) (Q := WithinUnit led s)
    ?linger ?finish ?passed ?raised ?waiting ops t ⟨hops, h⟩
  case linger => exact fun ops u w ⟨hops, h⟩ _ => ⟨List.forall_mem_cons.2 ⟨.inr rfl, hops⟩, h⟩
  case finish => exact fun u ⟨_, h⟩ _ => ⟨nofun, h⟩
  case passed => exact fun op rest u v ⟨hops, h⟩ hs => ⟨(List.forall_mem_cons.1 hops).2, start hops h hs⟩
  case raised => exact fun op rest u e v ⟨hops, h⟩ hs => withinUnit_raiseAt (start hops h hs) rest e
  case waiting => exact fun op rest u v ⟨hops, h⟩ hs => ⟨hops, start hops h hs⟩

theorem WithinUnit.resume {led : Bool} {s t : State} (h : WithinUnit led s t) (r : Reply) :
    WithinUnit led s (resume r t) := by
  obtain ⟨-, hr⟩ | ⟨op, rest, u, hm, hf, hr⟩ | ⟨op, rest, e, hm, hf, hr⟩ := resume_cases r t <;> rw [hr]
  · exact h
  · exact run_withinUnit (List.forall_mem_cons.1 (hm ▸ h.steps)).2 (h.issued.same (finish_log hf).2)
  · exact withinUnit_raiseAt h.issued rest e

/-! ### The fields of the other unit (R193) -/

/-- `s` with the driver's fields of `x`, which no LED command reads or writes. -/
def State.withDriver (x s : State) : State :=
  { s with sstate := x.sstate, enabled := x.enabled, atime := x.atime, gain := x.gain }

/-- `s` with the bank fields and the pins of `x`, which no bus or driver command reads or writes. -/
def State.withBank (x s : State) : State :=
  { s with lbinit := x.lbinit, inverted := x.inverted, ledcount := x.ledcount, ledStates := x.ledStates,
           pinmap := x.pinmap, pins := x.pins }

/-- A command is rejected, or steps of its unit run, and which of the two, and which steps, does not depend on the
fields that `g` replaces. -/
def Blind (led : Bool) (g : State → State → State) (i : Instr) (s : State) : Prop :=
  (∃ e, ∀ x, exec i (g x s) = .next ((g x s).raise e)) ∨
  ∃ ops u, g s u = u ∧ u.actions = s.actions ∧ (∀ op ∈ ops, op.ofUnit led) ∧
    ∀ x, exec i (g x s) = .next (run ops (g x u))

/-- `g x s` is `s` with fields of `x` that the commands of one unit neither read nor write; of these only the pins can
change while such a command is in progress. -/
structure Apart (led : Bool) (g : State → State → State) : Prop where
  self : ∀ s, g s s = s
  outside : ∀ x s t, outsideOnly s t → g x s = s → g { x with pins := t.pins } t = t
  untouched : ∀ x, Untouched (Op.ofUnit led) (g x)
  blind : ∀ i s, i.isLed = led → Blind led g i s

namespace Apart

variable {led : Bool} {g : State → State → State} {i : Instr} {s t : State}

/-- The first step stays within its unit, and hands on the fields of any other state as they are. -/
theorem started (hg : Apart led g) (hi : i.isLed = led) (h : exec i s = .next t) :
    WithinUnit led s t ∧ ∀ x, exec i (g x s) = .next (g x t) := by
  obtain ⟨e, hx⟩ | ⟨ops, u, hself, hu, hops, hx⟩ := hg.blind i s hi
  · have hs := hx s
    rw [hg.self, h] at hs
    cases hs
    exact ⟨⟨nofun, .none rfl⟩, fun x => (hx x).trans (congrArg _ ((hg.untouched x).raiseAt [] e s nofun))⟩
  · have hs := hx s
    rw [hg.self, hself, h] at hs
    cases hs
    exact ⟨run_withinUnit hops (.none hu), fun x => (hx x).trans (congrArg _ ((hg.untouched x).run hops u))⟩

/-- At every point of the course the fields are as they were, but for the pins. -/
theorem course (hg : Apart led g) (hi : i.isLed = led) (h : Course i s t) :
    WithinUnit led s t ∧ ∃ ps, g { s with pins := ps } t = t := by
  refine course_induction (P := fun t => WithinUnit led s t ∧ ∃ ps, g { s with pins := ps } t = t)
    ?first ?outside ?returned h
  case first =>
    intro u hu
    obtain ⟨hwithin, hfields⟩ := hg.started hi hu
    have hsame := hfields s
    rw [hg.self, hu] at hsame
    exact ⟨hwithin, s.pins, (Host.Outcome.next.inj hsame).symm⟩
  case outside =>
    intro u v ⟨hwithin, ps, hsame⟩ ho
    exact ⟨⟨by rw [ho.micro]; exact hwithin.steps, hwithin.issued.same (by rw [ho])⟩, v.pins,
      hg.outside { s with pins := ps } u v ho hsame⟩
  case returned =>
    intro u r _ ⟨hwithin, ps, hsame⟩
    refine ⟨hwithin.resume r, ps, ?_⟩
    rw [← (hg.untouched _).resume hwithin.steps r, hsame]

end Apart

/-- A step of a LED command does not reach the driver's fields. -/
theorem withDriver_untouched (x : State) : Untouched (Op.ofUnit true) x.withDriver where
  world _ := rfl
  draws _ := rfl
  micro _ := rfl
  emit _ _ := rfl
  withWorld _ _ := rfl
  draw _ := rfl
  suspend _ _ := rfl
  endOk _ := rfl
  action op _ _ := by cases op <;> rfl
  finish op r s hop := by
    obtain hop | rfl := hop
    · cases op with
      | pinOpen => simp only [Op.finish]; split <;> rfl
      | pinSetOutput | pinWrite | bankUp => rfl
      | _ => cases hop
    · rfl
  internal op s hop := by
    obtain hop | rfl := hop
    · cases op <;> first | rfl | cases hop
    · rfl
  raiseAt rest e s h := by
    rw [raiseAt_outside (inTry_of_led h), raiseAt_outside (inTry_of_led h)]
    rfl

/-- A step of a bus or driver command does not reach the bank fields or the pins. -/
theorem withBank_untouched (x : State) : Untouched (Op.ofUnit false) x.withBank where
  world _ := rfl
  draws _ := rfl
  micro _ := rfl
  emit _ _ := rfl
  withWorld _ _ := rfl
  draw _ := rfl
  suspend _ _ := rfl
  endOk _ := rfl
  action op _ _ := by cases op <;> rfl
  finish op r s hop := by
    obtain hop | rfl := hop
    · cases op with
      | memReadPair reg y => simp only [Op.finish]; split <;> cases y <;> rfl
      | memWrite | memWriteMasked | memRead => simp only [Op.finish]; split <;> rfl
      | pinOpen | pinSetOutput | pinWrite | bankUp => cases hop
      | _ => rfl
    · rfl
  internal op s hop := by
    obtain hop | rfl := hop
    · cases op with
      | checkId =>
        change (if s.locals.byte = _ then _ else _) = Except.map _ (if s.locals.byte = _ then _ else _)
        split <;> rfl
      | pinOpen | pinSetOutput | pinWrite | bankUp => cases hop
      | _ => rfl
    · rfl
  raiseAt rest e s _ := by unfold raiseAt; split <;> rfl

/-- The checks and the steps of a LED command do not depend on the driver's fields. -/
theorem led_blind {i : Instr} (hi : i.isLed = true) (s : State) : Blind true State.withDriver i s := by
  cases i with
  | bwr | brd | brd2 | enable | disable | setatime | setgain | readrgb => cases hi
  | ledpin index pin =>
    by_cases hn : index.toNat < Config.nledMax
    · cases hl : s.lbinit with
      | true => exact .inl ⟨_, fun x => exec_ledpin_up (s := x.withDriver s) hn hl⟩
      | false => exact .inr ⟨[], s.setPinmap index.toNat pin, rfl, rfl, nofun,
        fun x => exec_ledpin (s := x.withDriver s) hn hl⟩
    · exact .inl ⟨_, fun x => exec_ledpin_index (Nat.le_of_not_lt hn)⟩
  | ledinit count v =>
    cases hc : countLegal count with
    | false => exact .inl ⟨_, fun x => exec_of_not_legal (i := .ledinit count v) hc _⟩
    | true =>
      have hn : count.toNat ≤ Config.nledMax := of_decide_eq_true hc
      cases hl : s.lbinit with
      | true => exact .inl ⟨_, fun x => exec_ledinit_up (s := x.withDriver s) hn hl⟩
      | false =>
        refine .inr ⟨claimOps v (s.bankPins count.toNat) ++ [.bankUp count v], s, rfl, rfl, ?_, fun x =>
          exec_ledinit (s := x.withDriver s) hn hl⟩
        exact List.forall_mem_append.2 ⟨fun op ho => .inl (claimOps_isPin op ho), by simp [Op.ofUnit, Op.isPin]⟩
  | setled index v =>
    by_cases hn : index.toNat < s.ledcount.toNat
    · exact .inr ⟨[.pinWrite (s.pinOf index.toNat) (ledLevel v s.inverted)], s.setLed index.toNat v, rfl,
        rfl, by simp [Op.ofUnit, Op.isPin], fun x => exec_setled (s := x.withDriver s) hn⟩
    · exact .inl ⟨_, fun x => exec_setled_index (s := x.withDriver s) (Nat.le_of_not_lt hn)⟩
  | getled index =>
    by_cases hn : index.toNat < s.ledcount.toNat
    · exact .inr ⟨[], s.setResult ((bit (s.led index.toNat)).zeroExtend 32), rfl, rfl, nofun,
        fun x => exec_getled (s := x.withDriver s) hn⟩
    · exact .inl ⟨_, fun x => exec_getled_index (s := x.withDriver s) (Nat.le_of_not_lt hn)⟩

/-- The driver's fields lie outside the LED commands. -/
theorem withDriver_apart : Apart true State.withDriver where
  self _ := rfl
  outside x s t ho hs := by
    rw [ho, ← hs]
    rfl
  untouched := withDriver_untouched
  blind _ s hi := led_blind hi s

theorem bodyOps_not_pin (i : Instr) : ∀ op ∈ bodyOps i, op.isPin = false := by
  cases i <;> simp [bodyOps, enableBody, Op.isPin]

/-- The steps of a raw command are the same in every state. -/
theorem RawSteps.blind {i : Instr} {a : Action} {prog : List Op} (hp : RawSteps i a prog) (s : State) :
    Blind false State.withBank i s :=
  .inr ⟨prog, s, rfl, rfl, fun op ho => .inl (hp.pins op ho), fun x => hp.exec (x.withBank s)⟩

/-- The checks and the steps of a bus or driver command do not depend on the bank fields or the pins. -/
theorem bus_blind {i : Instr} (hi : i.isLed = false) (s : State) : Blind false State.withBank i s := by
  cases hd : i.isDriver with
  | true =>
    cases hl : i.legal with
    | false => exact .inl ⟨.badOperand, fun x => exec_of_not_legal hl _⟩
    | true =>
      refine .inr ⟨guardOps s ++ bodyOps i, s, rfl, rfl, ?_, fun x => exec_driver hd hl (x.withBank s)⟩
      exact List.forall_mem_append.2 ⟨fun op ho => .inl (guardOps_not_pin s op ho),
        fun op ho => .inl (bodyOps_not_pin i op ho)⟩
  | false =>
    cases i with
    | bwr reg v => exact (bwr_steps reg v).blind s
    | brd reg => exact (brd_steps reg).blind s
    | brd2 reg => exact (brd2_steps reg).blind s
    | enable | disable | setatime | setgain | readrgb => cases hd
    | ledpin | ledinit | setled | getled => cases hi

/-- The bank fields and the pins lie outside the bus and driver commands. -/
theorem withBank_apart : Apart false State.withBank where
  self _ := rfl
  outside x s t ho hs := by
    rw [ho, ← hs]
    rfl
  untouched := withBank_untouched
  blind _ s hi := bus_blind hi s

/-- Settles O51: each unit's fields lie outside the other unit's commands. -/
theorem unitsAreIndependent : Obligations.UnitsAreIndependent := by
  intro i s
  refine ⟨fun t h => ⟨fun hi => ?_, fun hi => ?_⟩, fun t h => ⟨fun hi x e a g => ?_, fun hi b v n ls pm ps => ?_⟩⟩
  · obtain ⟨hwithin, ps, hsame⟩ := withDriver_apart.course hi h
    refine ⟨hwithin.issued, ?_⟩
    rw [← hsame]
    exact ⟨rfl, rfl, rfl, rfl⟩
  · obtain ⟨hwithin, ps, hsame⟩ := withBank_apart.course hi h
    refine ⟨hwithin.issued, ?_⟩
    rw [← hsame]
    exact ⟨rfl, rfl, rfl, rfl, rfl⟩
  · exact (withDriver_apart.started hi h).2 { s with sstate := x, enabled := e, atime := a, gain := g }
  · exact (withBank_apart.started hi h).2
      { s with lbinit := b, inverted := v, ledcount := n, ledStates := ls, pinmap := pm, pins := ps }

end Sys2Proof.Machine

/-! PROOFS about the reset input, and about the bounds and the end of every command (70_reset_and_hazards.md R240, R241,
R259). -/

namespace Sys2Proof.Machine

/-! ### The reset input (R240, R241) -/

/-- Settles O8, from what a reset leaves of a pin. -/
theorem resetInputRestartsBlock : Obligations.ResetInputRestartsBlock :=
  fun s _ hw => ⟨s.pins.afterReset, step_reset hw, fun hwf p => Pins.get_afterReset p hwf⟩

/-! ### A command ends once its calls have returned (R259) -/

/-- The command in progress is over. -/
def Ended (s : State) : Prop := s.busy = false ∧ s.micro = []

theorem ended_raise (e : ErrCode) (s : State) : Ended (s.raise e) := ⟨rfl, rfl⟩

theorem ended_raiseAt (rest : List Op) (e : ErrCode) (s : State) : Ended (raiseAt rest e s) :=
  ⟨(raiseAt_bank rest e s).1, (raiseAt_bank rest e s).2.1⟩

theorem calm_of_rets {s : State} {rs : List Reply} (hw : s.world = rets rs) : calm s.world := by
  rw [hw, ← List.append_nil (rets rs)]
  exact calm_rets_append calm_nil rs

/-- Steps of which no more can be outstanding than there are returns to come run to the end. -/
theorem run_ends {ops : List Op} {s : State} {rs : List Reply} (hw : s.world = rets rs)
    (hlen : ops.countP Op.waits ≤ rs.length) : Ended (run ops s) := by
  induction ops generalizing s rs with
  | nil => rw [run_nil (calm_of_rets hw)]; exact ⟨rfl, rfl⟩
  | cons op ops ih =>
    rw [List.countP_cons] at hlen
    cases ha : op.action s with
    | none =>
      cases hi : op.internal s with
      | ok t =>
        rw [run_internal (calm_of_rets hw) ha hi]
        exact ih ((internal_world hi).trans hw) (by omega)
      | error e => rw [run_internal_raise (calm_of_rets hw) ha hi]; exact ended_raiseAt ..
    | some a =>
      rw [if_pos (waits_of_action ha)] at hlen
      match rs, hw with
      | r :: rs, hw =>
        replace hw : s.world = .ret r :: rets rs := hw
        cases hf : op.finish r ((s.emit a).withWorld (rets rs)) with
        | ok t =>
          rw [run_ret hw ha hf]
          exact ih (finish_world hf) (by simpa using hlen)
        | error e => rw [run_ret_raise hw ha hf]; exact ended_raiseAt ..

/-- A return ends the command when no more steps than there are further returns are left after the outstanding one. -/
theorem resume_ends {s : State} {r : Reply} {op : Op} {rest : List Op} {rs : List Reply} (hm : s.micro = op :: rest)
    (hw : s.world = rets rs) (hlen : rest.length ≤ rs.length) : Ended (resume r s) := by
  obtain ⟨hnil, -⟩ | ⟨op', rest', t, hm', hf, hr⟩ | ⟨op', rest', e, -, -, hr⟩ := resume_cases r s
  · cases hm.symm.trans hnil
  · cases hm.symm.trans hm'
    rw [hr]
    exact run_ends ((finish_world hf).trans hw) (List.countP_le_length.trans hlen)
  · rw [hr]; exact ended_raiseAt ..

/-! ### How many calls a command makes (R259) -/

/-- At most ten steps that can be outstanding, at most nine pin operations among them, and at most one step whose action
holds the command's byte. -/
structure FewCalls (prog : List Op) : Prop where
  oneMasked : OneMasked prog
  calls : prog.countP Op.waits ≤ 10
  pinCalls : prog.countP (fun op => op.waits && op.isPin) ≤ 9

theorem oneMasked_of_forall {prog : List Op} (h : ∀ op ∈ prog, op.readsByte = false) : OneMasked prog := by
  rw [OneMasked, List.filter_eq_nil_iff.2 (by simpa using h)]
  exact Nat.zero_le 1

/-- A short program none of whose actions holds the command's byte. -/
theorem fewCalls_of_length {prog : List Op} (hmasked : ∀ op ∈ prog, op.readsByte = false) (hlen : prog.length ≤ 9) :
    FewCalls prog :=
  ⟨oneMasked_of_forall hmasked, List.countP_le_length.trans (hlen.trans (by omega)), List.countP_le_length.trans hlen⟩

theorem guardOps_waits_le (s : State) : (guardOps s).countP Op.waits ≤ 6 := by
  unfold guardOps
  split
  · exact of_decide_eq_true rfl
  · exact Nat.zero_le 6

theorem bodyOps_waits_le (i : Instr) : (bodyOps i).countP Op.waits ≤ 4 := by
  cases i <;> exact of_decide_eq_true rfl

/-- A driver command makes at most six calls for its guard and four for its body, none of them a pin operation. -/
theorem fewCalls_driver (i : Instr) (s : State) : FewCalls (guardOps s ++ bodyOps i) := by
  have hpin : ∀ op ∈ guardOps s ++ bodyOps i, op.isPin = false :=
    List.forall_mem_append.2 ⟨guardOps_not_pin s, bodyOps_not_pin i⟩
  have hnone : (guardOps s ++ bodyOps i).countP (fun op => op.waits && op.isPin) = 0 :=
    List.countP_eq_zero.2 fun op ho => by simp [hpin op ho]
  refine ⟨oneMasked_driver i s, ?_, by omega⟩
  rw [List.countP_append]
  have hguard := guardOps_waits_le s
  have hbody := bodyOps_waits_le i
  omega

theorem length_claimOps (inv : Bool) (ps : List Byte) : (claimOps inv ps).length = 3 * ps.length := by
  induction ps with
  | nil => rfl
  | cons p ps ih => rw [claimOps_cons]; simp only [List.length_cons, ih]; omega

/-- LEDINIT makes three calls for each LED. -/
theorem fewCalls_ledinit {s : State} {n : Byte} (inv : Bool) (hn : n.toNat ≤ Config.nledMax) :
    FewCalls (claimOps inv (s.bankPins n.toNat) ++ [.bankUp n inv]) := by
  have hcalls : (claimOps inv (s.bankPins n.toNat) ++ [Op.bankUp n inv]).countP Op.waits ≤ 9 := by
    have hle : (claimOps inv (s.bankPins n.toNat)).countP Op.waits ≤ _ := List.countP_le_length
    rw [length_claimOps, length_bankPins hn] at hle
    have hmax : n.toNat ≤ 3 := hn
    rw [List.countP_append, show List.countP Op.waits [Op.bankUp n inv] = 0 from rfl]
    omega
  have hmasked : ∀ op ∈ claimOps inv (s.bankPins n.toNat) ++ [.bankUp n inv], op.readsByte = false := by
    refine List.forall_mem_append.2 ⟨fun op ho => ?_, by simp [Op.readsByte]⟩
    obtain ⟨p, -, rfl | rfl | rfl⟩ := mem_claimOps.1 ho <;> rfl
  have hpins : ∀ op : Op, (op.waits && op.isPin) = true → op.waits = true := fun _ ho => (Bool.and_eq_true_iff.1 ho).1
  exact ⟨oneMasked_of_forall hmasked, hcalls.trans (by omega),
    (List.countP_mono_left fun op _ => hpins op).trans hcalls⟩

/-- Every command is rejected, or it is the run of few calls from a state in which nothing is issued yet. -/
theorem started_fewCalls {i : Instr} {s t : State} (h : Started s i t) :
    Starts (fun prog u => FewCalls prog ∧ u.actions = s.actions ∧ u.world = s.world) s t := by
  cases h with
  | rejected i e he => exact .inl ⟨e, rfl⟩
  | enable => exact .inr ⟨_, _, rfl, fewCalls_driver .enable s, rfl, rfl⟩
  | disable => exact .inr ⟨_, _, rfl, fewCalls_driver .disable s, rfl, rfl⟩
  | setatime c => exact .inr ⟨_, _, rfl, fewCalls_driver (.setatime c) s, rfl, rfl⟩
  | setgain c => exact .inr ⟨_, _, rfl, fewCalls_driver (.setgain c) s, rfl, rfl⟩
  | readrgb => exact .inr ⟨_, _, rfl, fewCalls_driver .readrgb s, rfl, rfl⟩
  | ledinit n inv hn hl => exact .inr ⟨_, _, rfl, fewCalls_ledinit inv (of_decide_eq_true hn), rfl, rfl⟩
  | bwr | brd | brd2 | setled | ledpin | getled =>
    exact .inr ⟨_, _, rfl, fewCalls_of_length (by simp [Op.readsByte]) (by simp), rfl, rfl⟩

/-! ### What a command issues through its course (R259) -/

/-- What changes outside a command leaves it where it stands. -/
theorem Follows.outside {prog : List Op} {s t u : State} (h : Follows prog s t) (ho : outsideOnly t u) :
    Follows prog s u := by
  obtain ⟨rest, htraced, htail, hend⟩ := h
  have herr : u.err = t.err := by rw [ho]
  exact ⟨rest, htraced.same (by rw [ho]), by rwa [ho.micro], by rwa [ho.micro, herr]⟩

/-- A command at every point of its course has issued the actions of the first of its few calls. -/
theorem course_fewCalls {i : Instr} {s t : State} (h : Course i s t) : ∃ prog, FewCalls prog ∧ Follows prog s t := by
  obtain ⟨first, hfirst⟩ := exec_next i s
  have hprog : ∃ prog, FewCalls prog ∧ Follows prog s first := by
    obtain ⟨e, rfl⟩ | ⟨prog, u, rfl, hfew, hactions, -⟩ := started_fewCalls (exec_started hfirst)
    · have hstart : Traced [] s [] s := ⟨[], 0, rfl, by simp⟩
      exact ⟨[], fewCalls_of_length nofun (by simp), [], hstart.same rfl, fun hm => absurd rfl hm, fun _ _ => rfl⟩
    · have hstart : Traced prog s prog u := ⟨[], 0, rfl, by simpa using hactions⟩
      exact ⟨prog, hfew, hstart.run hfew.oneMasked⟩
  obtain ⟨prog, hfew, hfollows⟩ := hprog
  refine ⟨prog, hfew, course_induction ?first ?outside ?returned h⟩
  case first => exact fun u hu => by cases hfirst.symm.trans hu; exact hfollows
  case outside => exact fun u v hu ho => hu.outside ho
  case returned => exact fun u r _ hu => hu.resume hfew.oneMasked r

/-- The actions of some kind are no more than the steps that issue that kind. -/
theorem countP_issues_le {prog : List Op} {v : Byte} {p : Action → Bool} {q : Op → Bool}
    (h : ∀ op a, op.issues v = some a → p a = true → q op = true) :
    (prog.filterMap (Op.issues v)).countP p ≤ prog.countP q := by
  rw [List.countP_filterMap]
  refine List.countP_mono_left fun op _ hop => ?_
  cases ha : op.issues v with
  | none => simp [ha] at hop
  | some a => exact h op a ha (by simpa [ha] using hop)

/-- Through its whole course a command issues at most ten bus actions and nine pin operations. -/
theorem course_bounds {i : Instr} {s t : State} (h : Course i s t) : ∃ as, t.actions = s.actions ++ as ∧
    as.countP Action.isBus ≤ 10 ∧ as.countP (fun a => !a.isBus) ≤ 9 := by
  obtain ⟨prog, hfew, rest, ⟨done, v, rfl, hactions⟩, -⟩ := course_fewCalls h
  have hdone : done.Sublist (done ++ rest) := List.sublist_append_left ..
  refine ⟨_, hactions, (countP_issues_le fun op a ha _ => waits_of_action ha).trans
    (hdone.countP_le.trans hfew.calls), (countP_issues_le fun op a ha hbus => ?_).trans
    (hdone.countP_le.trans hfew.pinCalls)⟩
  have hpin : op.isPin = true := by simpa [isBus_action ha] using hbus
  simp [waits_of_action ha, hpin]

/-- Ten returns are enough for every command. -/
theorem exec_ends {i : Instr} {s t : State} {rs : List Reply} (hw : s.world = rets rs) (hlen : 10 ≤ rs.length)
    (h : exec i s = .next t) : Ended t := by
  obtain ⟨e, rfl⟩ | ⟨prog, u, rfl, hfew, -, hworld⟩ := started_fewCalls (exec_started h)
  · exact ended_raise e s
  · exact run_ends (hworld.trans hw) (hfew.calls.trans hlen)

/-- As many returns as there are steps left are enough for a command that waits. -/
theorem step_ends {s t : State} {rs : List Reply} (hm : s.micro ≠ []) (hw : s.world = rets rs)
    (hlen : s.micro.length ≤ rs.length) (h : step s = .next t) : Ended t := by
  obtain ⟨op, rest, hm⟩ := List.exists_cons_of_ne_nil hm
  rw [hm] at hlen
  match rs, hw with
  | r :: rs, hw =>
    cases (step_ret hw).symm.trans h
    exact resume_ends (s := s.withWorld (rets rs)) hm rfl (by simpa using hlen)

/-- With no stimulus left and no call to make, the end of the block's own work is the end of the command. -/
theorem step_work_ends {s : State} {rest : List Op} (hm : s.micro = .work :: rest)
    (hrest : ∀ op ∈ rest, op.waits = false) (hw : s.world = []) : ∃ t, step s = .next t ∧ Ended t := by
  have hnone : rest.countP Op.waits = 0 := List.countP_eq_zero.2 fun op ho => by simp [hrest op ho]
  exact ⟨run rest s, by rw [step_quiet hw, unprompted_work hm], run_ends (rs := []) hw hnone.le⟩

/-- Settles O52: the bounds over a course, and the end of a command from its acceptance, from any point on, and of the
block's own work. -/
theorem commandsAreFinite : Obligations.CommandsAreFinite := by
  refine ⟨fun i s t h => ?_, fun _ _ _ _ hw hlen h => exec_ends hw hlen h, fun _ _ _ hm hw hlen h =>
    step_ends hm hw hlen h, fun _ _ hm hrest hw => step_work_ends hm hrest hw⟩
  simp only [← List.countP_eq_length_filter]
  exact course_bounds h

end Sys2Proof.Machine
